-- ==== Sys2Proof/Word.lean ====
section
/-! DEFINITION. The word types of the block: bytes, coordinates, addresses and request words. -/

namespace Sys2Proof

/-- An 8-bit byte, as memory and the wire carry it (20_memory.md R70, 30_encoding.md R110). -/
abbrev Byte := BitVec 8

/-- A coordinate, dimension or rotation operand, `COORD_W` = 16 bits, unsigned (00_scope.md R6, 30_encoding.md R101). -/
abbrev Coord := BitVec 16

/-- A host-memory byte address operand, `ADDR_W` = 32 bits (00_scope.md R6). -/
abbrev Addr := BitVec 32

/-- A request word `W`, 128 bits (30_encoding.md R100). -/
abbrev ReqWord := BitVec 128

end Sys2Proof
end

