-- ==== Sys2Proof/Syntax.lean ====
section
/-! DEFINITION. The syntax of the block: display states, micro-actions, the thirteen wire commands, and the
instructions, one constructor for each row of spec/opcode_table.json. -/

namespace Sys2Proof

/-- The seven display states of `DSTATE` (10_state.md R40). -/
inductive DState where
  | poweredOff | resetting | initializing | idle | busy | partialLocked | sleeping
  deriving DecidableEq, Repr

/-- The micro-actions a protocol request is made of (44_wire_commands.md R260). `ResetPulse` is shorthand (R267)
and stands in Machine/Protocol.lean. -/
inductive Micro where
  /-- `SendCmd(b)` (R262) -/
  | sendCmd (b : Byte)
  /-- `SendData(v)`, with `v` already taken through `byte` (R262, 00_scope.md R15) -/
  | sendData (v : Byte)
  /-- `Stream(p, n)` (R265) -/
  | stream (p : Addr) (n : Nat)
  /-- `Rst(l)`; `true` is level 1, released (R263) -/
  | rst (level : Bool)
  /-- `Delay(ms)` (R264) -/
  | delay (ms : Nat)
  /-- `WaitIdle`, untimed (R270) -/
  | waitIdle
  /-- `WaitIdleTimed(t)` (R271) -/
  | waitIdleTimed (t : Nat)
  /-- `SetState(s)` (R266) -/
  | setState (d : DState)
  deriving DecidableEq, Repr

/-- The thirteen controller commands the block emits (30_encoding.md R111). -/
inductive WireOp where
  | swReset | driverOutput | dataEntry | ramXRange | ramYRange | border | tempSensor
  | ramXCounter | ramYCounter | writeRam | updCtrl2 | masterAct | deepSleep
  deriving DecidableEq, Repr

/-- The instructions: the fifteen requests the host issues (30_encoding.md R102) and the thirteen wire commands
the block emits (R111). Operands of a request are its fields; operands of a wire command are its data bytes in
the order they are sent (R110). -/
inductive Instr where
  /-- `CONSTRUCT` (40_canvas_config.md R140): K, A, B, C, D[0], P -/
  | construct (color : Byte) (width height rot : Coord) (hasBuffer : Bool) (base : Addr)
  /-- `SET_BUFFER` (R145): P -/
  | setBuffer (base : Addr)
  /-- `SET_ROTATION` (R150): A -/
  | setRotation (rot : Coord)
  /-- `SET_MIRROR` (R155): K -/
  | setMirror (mode : Byte)
  /-- `SET_DENSITY` (R160): K -/
  | setDensity (scale : Byte)
  /-- `CLEAR` (42_pixel.md R215): K -/
  | clear (color : Byte)
  /-- `CLEAR_AREA` (R220): K, A, B, C, D -/
  | clearArea (color : Byte) (x y w h : Coord)
  /-- `DRAW_PIXEL` (R205): K, A, B -/
  | drawPixel (color : Byte) (x y : Coord)
  /-- `READ_PIXEL` (R210): A, B -/
  | readPixel (x y : Coord)
  /-- `WINDOW_CALC` (43_windowing.md R236): A, B, C, D -/
  | windowCalc (x y w h : Coord)
  /-- `INIT` (45_protocol_ops.md R300) -/
  | init
  /-- `REFRESH_FULL` (R305): P -/
  | refreshFull (image : Addr)
  /-- `REFRESH_PARTIAL` (R310): A, B, C, D, P -/
  | refreshPartial (x y w h : Coord) (sub : Addr)
  /-- `REFRESH_FAST` (R315): P -/
  | refreshFast (image : Addr)
  /-- `DEEP_SLEEP` (R320) -/
  | deepSleep
  /-- `CMD_SW_RESET` (44_wire_commands.md R275): no data -/
  | cmdSwReset
  /-- `CMD_DRIVER_OUTPUT` (R276): three data bytes -/
  | cmdDriverOutput (d0 d1 d2 : Byte)
  /-- `CMD_DATA_ENTRY` (R277): one data byte -/
  | cmdDataEntry (d : Byte)
  /-- `CMD_RAM_X_RANGE` (R278): X start byte, X end byte -/
  | cmdRamXRange (xs xe : Byte)
  /-- `CMD_RAM_Y_RANGE` (R279): Y start low, Y start high, Y end low, Y end high -/
  | cmdRamYRange (ysl ysh yel yeh : Byte)
  /-- `CMD_BORDER` (R280): one data byte -/
  | cmdBorder (d : Byte)
  /-- `CMD_TEMP_SENSOR` (R281): one data byte -/
  | cmdTempSensor (d : Byte)
  /-- `CMD_RAM_X_COUNTER` (R282): one data byte -/
  | cmdRamXCounter (d : Byte)
  /-- `CMD_RAM_Y_COUNTER` (R283): low byte, high byte -/
  | cmdRamYCounter (lo hi : Byte)
  /-- `CMD_WRITE_RAM` (R284): the `n` bytes of host memory from `p`, by `Stream(p, n)` -/
  | cmdWriteRam (p : Addr) (n : Nat)
  /-- `CMD_UPD_CTRL2` (R285): one data byte -/
  | cmdUpdCtrl2 (d : Byte)
  /-- `CMD_MASTER_ACT` (R286): no data -/
  | cmdMasterAct
  /-- `CMD_DEEP_SLEEP` (R287): one data byte -/
  | cmdDeepSleep (d : Byte)
  deriving DecidableEq, Repr

end Sys2Proof
end

