-- ==== Sys2Proof/Config.lean ====
section
/-! DEFINITION. The named parameters of the block (00_scope.md R6 to R13), each with the value the spec decides,
and the free values of the environment (10_state.md R33 to R35). -/

namespace Sys2Proof

/-- `TRANSFORM_EDGE` (00_scope.md R8). -/
inductive Edge where
  | raw | index
  deriving DecidableEq, Repr

/-- One slot of `D7_LAYOUT`: the group-bit positions (0..23) of value bits 2, 1 and 0 (00_scope.md R9). -/
structure D7Slot where
  p2 : Fin 24
  p1 : Fin 24
  p0 : Fin 24
  deriving DecidableEq, Repr

/-- `D7_LAYOUT`, a table of eight slots (00_scope.md R9). -/
structure D7Layout where
  s0 : D7Slot
  s1 : D7Slot
  s2 : D7Slot
  s3 : D7Slot
  s4 : D7Slot
  s5 : D7Slot
  s6 : D7Slot
  s7 : D7Slot
  deriving DecidableEq, Repr

/-- The wire command bytes `CMD_*` (00_scope.md R11). -/
structure Cmds where
  swReset : Byte
  driverOutput : Byte
  dataEntry : Byte
  ramXRange : Byte
  ramYRange : Byte
  border : Byte
  tempSensor : Byte
  ramXCounter : Byte
  ramYCounter : Byte
  writeRam : Byte
  updCtrl2 : Byte
  masterAct : Byte
  deepSleep : Byte
  deriving DecidableEq, Repr

/-- The init data bytes `INIT_*` (00_scope.md R10, R12). -/
structure InitData where
  doc0 : Byte
  doc1 : Byte
  doc2 : Byte
  dem : Byte
  xStart : Byte
  xEnd : Byte
  yStart : Byte
  yStartHi : Byte
  yEnd0 : Byte
  yEnd1 : Byte
  border : Byte
  temp : Byte
  xCounter : Byte
  yCounter0 : Byte
  yCounter1 : Byte
  deriving DecidableEq, Repr

/-- Every named parameter of 00_scope.md. The spec takes each as an argument of the model; here the argument
travels in the state (log 3), so that a statement about every state is a statement about every parameter value. -/
structure Params where
  /-- `PANEL_W`, `PANEL_H` (R6) -/
  panelW : Nat
  panelH : Nat
  /-- `MEM_SIZE`, OPEN in the spec (R6) -/
  memSize : Nat
  /-- `COLOR_BLACK`, `COLOR_WHITE` (R7) -/
  colorBlack : Byte
  colorWhite : Byte
  /-- `TRANSFORM_EDGE`, `SETROT_SWAPS_DIMS` (R8) -/
  edge : Edge
  setrotSwapsDims : Bool
  /-- `D7_LAYOUT` (R9) -/
  d7 : D7Layout
  /-- `UPD2_FULL`, `UPD2_PART`, `UPD2_FAST`, `BORDER_LOCK`, `DSLP_MODE` (R10) -/
  upd2Full : Byte
  upd2Part : Byte
  upd2Fast : Byte
  borderLock : Byte
  dslpMode : Byte
  /-- `CMD_*` (R11) -/
  cmds : Cmds
  /-- `INIT_*` (R10, R12) -/
  initData : InitData
  /-- delays and budgets in milliseconds (R13) -/
  tRstLow : Nat
  tRstWait : Nat
  tRstLowP : Nat
  tRstWaitP : Nat
  toFull : Nat
  toPart : Nat
  toFast : Nat
  tSleep : Nat
  /-- `FULL_RESETS_COUNTERS`, `FAST_WRITES_RAM` (R13) -/
  fullResetsCounters : Bool
  fastWritesRam : Bool
  deriving DecidableEq, Repr

/-- `PANEL_BYTES = (PANEL_W / 8) * PANEL_H` (00_scope.md R3, R6). -/
def Params.panelBytes (p : Params) : Nat := p.panelW / 8 * p.panelH

/-- The SSD1681 command bytes (00_scope.md R11; general knowledge of the spec's, log 15). -/
def Cmds.default : Cmds where
  swReset := 0x12
  driverOutput := 0x01
  dataEntry := 0x11
  ramXRange := 0x44
  ramYRange := 0x45
  border := 0x3C
  tempSensor := 0x18
  ramXCounter := 0x4E
  ramYCounter := 0x4F
  writeRam := 0x24
  updCtrl2 := 0x22
  masterAct := 0x20
  deepSleep := 0x10

/-- The init data bytes (00_scope.md R10, R12; partly general knowledge of the spec's, log 15). -/
def InitData.default : InitData where
  doc0 := 0xC7
  doc1 := 0x00
  doc2 := 0x00
  dem := 0x01
  xStart := 0x00
  xEnd := 0x18
  yStart := 0xC7
  yStartHi := 0x00
  yEnd0 := 0x00
  yEnd1 := 0x00
  border := 0x05
  temp := 0x80
  xCounter := 0x00
  yCounter0 := 0xC7
  yCounter1 := 0x00

/-- The default `D7_LAYOUT`, `pj = 3*s + (2 - j)` (00_scope.md R9, 42_pixel.md R199; not the source's table, log 16). -/
def D7Layout.default : D7Layout where
  s0 := ⟨0, 1, 2⟩
  s1 := ⟨3, 4, 5⟩
  s2 := ⟨6, 7, 8⟩
  s3 := ⟨9, 10, 11⟩
  s4 := ⟨12, 13, 14⟩
  s5 := ⟨15, 16, 17⟩
  s6 := ⟨18, 19, 20⟩
  s7 := ⟨21, 22, 23⟩

/-- Every parameter at the value 00_scope.md R6 to R13 decide. `MEM_SIZE` has none there: 0x10000 is a
DESIGN CHOICE (log 3), the value of the conventions of 95_test_vectors.md. -/
def Params.default : Params where
  panelW := 200
  panelH := 200
  memSize := 0x10000
  colorBlack := 0x00
  colorWhite := 0xFF
  edge := .raw
  setrotSwapsDims := true
  d7 := D7Layout.default
  upd2Full := 0xF7
  upd2Part := 0xFF
  upd2Fast := 0xC7
  borderLock := 0x80
  dslpMode := 0x01
  cmds := Cmds.default
  initData := InitData.default
  tRstLow := 10
  tRstWait := 100
  tRstLowP := 10
  tRstWaitP := 100
  toFull := 3000
  toPart := 1000
  toFast := 2000
  tSleep := 100
  fullResetsCounters := false
  fastWritesRam := false

/-- FREE VALUE (log 1): what the `k`-th transport result draw answers once no fixed draw is left
(10_state.md R35); `true` is `ok`. -/
opaque Config.xferDraw : Nat → Bool

/-- FREE VALUE (log 1): what the `k`-th busy-line read answers once no fixed draw is left (10_state.md R33);
`true` is busy. -/
opaque Config.busyDraw : Nat → Bool

/-- FREE VALUE (log 2): once no fixed draw is left, how many clock draws in a row show the least value they may have
before the clock's `k`-th advance (10_state.md R34). -/
opaque Config.clockStall : Nat → Nat

/-- FREE VALUE (log 2): by how much the clock rises, beyond the one millisecond it must, where its `k`-th advance is a
draw (10_state.md R34 (c)). -/
opaque Config.clockJump : Nat → Nat

end Sys2Proof
end

