-- ==== Sys2Proof/WellFormed.lean ====
section
/-! DEFINITION. Which instructions are well formed (30_encoding.md R104) and which parameter values the spec
admits (00_scope.md R6, R11, 70_reset_and_hazards.md R390). -/

namespace Sys2Proof

/-- An instruction that some legal word stands for. Operand widths are in the types; the one check left is
30_encoding.md R104 (d): a `CONSTRUCT` with no buffer has `P = 0`. -/
def Instr.wf : Instr → Bool
  | .construct _ _ _ _ hasBuffer base => hasBuffer || base == 0
  | .setBuffer _ => true
  | .setRotation _ => true
  | .setMirror _ => true
  | .setDensity _ => true
  | .clear _ => true
  | .clearArea _ _ _ _ _ => true
  | .drawPixel _ _ _ => true
  | .readPixel _ _ => true
  | .windowCalc _ _ _ _ => true
  | .init => true
  | .refreshFull _ => true
  | .refreshPartial _ _ _ _ _ => true
  | .refreshFast _ => true
  | .deepSleep => true
  | .cmdSwReset => true
  | .cmdDriverOutput _ _ _ => true
  | .cmdDataEntry _ => true
  | .cmdRamXRange _ _ => true
  | .cmdRamYRange _ _ _ _ => true
  | .cmdBorder _ => true
  | .cmdTempSensor _ => true
  | .cmdRamXCounter _ => true
  | .cmdRamYCounter _ _ => true
  | .cmdWriteRam _ _ => true
  | .cmdUpdCtrl2 _ => true
  | .cmdMasterAct => true
  | .cmdDeepSleep _ => true

/-- The command bytes in the order of 30_encoding.md R111. -/
def Cmds.bytes (c : Cmds) : List Byte :=
  [c.swReset, c.driverOutput, c.dataEntry, c.ramXRange, c.ramYRange, c.border, c.tempSensor,
   c.ramXCounter, c.ramYCounter, c.writeRam, c.updCtrl2, c.masterAct, c.deepSleep]

/-- No two commands share a byte (30_encoding.md R110: the command byte fixes the command). -/
def Cmds.distinct (c : Cmds) : Bool := decide c.bytes.Nodup

/-- The three positions of a slot are distinct (the side condition of 42_pixel.md R201). -/
def D7Slot.distinct (s : D7Slot) : Bool := s.p2 != s.p1 && s.p2 != s.p0 && s.p1 != s.p0

/-- Every slot's positions are distinct. -/
def D7Layout.distinct (d : D7Layout) : Bool :=
  d.s0.distinct && d.s1.distinct && d.s2.distinct && d.s3.distinct &&
  d.s4.distinct && d.s5.distinct && d.s6.distinct && d.s7.distinct

/-- The positions of a slot. -/
def D7Slot.positions (s : D7Slot) : List (Fin 24) := [s.p2, s.p1, s.p0]

/-- No two value bits of a group share a position: the eight slots use 24 different ones, as those of
42_pixel.md R199 do. -/
def D7Layout.disjoint (d : D7Layout) : Bool :=
  decide (d.s0.positions ++ d.s1.positions ++ d.s2.positions ++ d.s3.positions ++
    d.s4.positions ++ d.s5.positions ++ d.s6.positions ++ d.s7.positions).Nodup

/-- `1 <= MEM_SIZE <= 2^32` (00_scope.md R6). -/
def Params.memSizeOk (p : Params) : Bool := decide (1 ≤ p.memSize) && decide (p.memSize ≤ 2 ^ 32)

/-- A model that shortens `T_RST_LOW` below 10 or `T_RST_WAIT` below 100 does not meet the source
(70_reset_and_hazards.md R390). -/
def Params.pulseOk (p : Params) : Bool := decide (10 ≤ p.tRstLow) && decide (100 ≤ p.tRstWait)

/-- The parameter values the spec admits. -/
def Params.wf (p : Params) : Bool := p.memSizeOk && p.pulseOk && p.cmds.distinct

end Sys2Proof
end

