-- ==== Sys2Proof/Decode.lean ====
section
/-! DEFINITION. Decoding and encoding: the 128-bit request word (30_encoding.md R100 to R105, R122) and the wire
commands, a command byte with its data (R110, R111), as they stand in SEQ. -/

namespace Sys2Proof

/-! ### The fields of a request word (30_encoding.md R100, R101) -/

/-- `OP = W[7:0]` -/
def reqOp (w : ReqWord) : Byte := w.extractLsb' 0 8
/-- `K = W[15:8]` -/
def reqK (w : ReqWord) : Byte := w.extractLsb' 8 8
/-- `A = W[31:16]` -/
def reqA (w : ReqWord) : Coord := w.extractLsb' 16 16
/-- `B = W[47:32]` -/
def reqB (w : ReqWord) : Coord := w.extractLsb' 32 16
/-- `C = W[63:48]` -/
def reqC (w : ReqWord) : Coord := w.extractLsb' 48 16
/-- `D = W[79:64]` -/
def reqD (w : ReqWord) : Coord := w.extractLsb' 64 16
/-- `P = W[111:80]` -/
def reqP (w : ReqWord) : Addr := w.extractLsb' 80 32
/-- `Z = W[127:112]` -/
def reqZ (w : ReqWord) : Coord := w.extractLsb' 112 16

/-- Why a request word is illegal: the clauses of 30_encoding.md R104. -/
inductive Illegal where
  /-- (a) `OP` is not in the table -/
  | unassignedOpcode
  /-- (b) `Z != 0` -/
  | reservedField
  /-- (c) a field the opcode does not use is not zero -/
  | unusedField
  /-- (d) the flags of `CONSTRUCT` -/
  | constructFlags
  deriving DecidableEq, Repr

/-- An instruction, provided the fields its opcode does not use are zero (30_encoding.md R104 (c)). -/
def unlessUsed (zero : Bool) (i : Instr) : Except Illegal Instr :=
  if zero then .ok i else .error .unusedField

/-- `CONSTRUCT`'s own check, 30_encoding.md R104 (d): `D[15:1] = 0`, and `P = 0` when `D[0] = 0`. -/
def decodeConstruct (w : ReqWord) : Except Illegal Instr :=
  if reqD w = 0 then
    if reqP w = 0 then .ok (.construct (reqK w) (reqA w) (reqB w) (reqC w) false 0)
    else .error .constructFlags
  else if reqD w = 1 then .ok (.construct (reqK w) (reqA w) (reqB w) (reqC w) true (reqP w))
  else .error .constructFlags

/-- The opcode map of 30_encoding.md R102 with the must-be-zero fields of R104 (c). -/
def decodeOpcode (w : ReqWord) : Except Illegal Instr :=
  let k := reqK w == 0
  let a := reqA w == 0
  let b := reqB w == 0
  let c := reqC w == 0
  let d := reqD w == 0
  let p := reqP w == 0
  match (reqOp w).toNat with
  | 0x01 => decodeConstruct w
  | 0x02 => unlessUsed (k && a && b && c && d) (.setBuffer (reqP w))
  | 0x03 => unlessUsed (k && b && c && d && p) (.setRotation (reqA w))
  | 0x04 => unlessUsed (a && b && c && d && p) (.setMirror (reqK w))
  | 0x05 => unlessUsed (a && b && c && d && p) (.setDensity (reqK w))
  | 0x06 => unlessUsed (a && b && c && d && p) (.clear (reqK w))
  | 0x07 => unlessUsed p (.clearArea (reqK w) (reqA w) (reqB w) (reqC w) (reqD w))
  | 0x08 => unlessUsed (c && d && p) (.drawPixel (reqK w) (reqA w) (reqB w))
  | 0x09 => unlessUsed (k && c && d && p) (.readPixel (reqA w) (reqB w))
  | 0x10 => unlessUsed (k && p) (.windowCalc (reqA w) (reqB w) (reqC w) (reqD w))
  | 0x20 => unlessUsed (k && a && b && c && d && p) .init
  | 0x21 => unlessUsed (k && a && b && c && d) (.refreshFull (reqP w))
  | 0x22 => unlessUsed k (.refreshPartial (reqA w) (reqB w) (reqC w) (reqD w) (reqP w))
  | 0x23 => unlessUsed (k && a && b && c && d) (.refreshFast (reqP w))
  | 0x24 => unlessUsed (k && a && b && c && d && p) .deepSleep
  | _ => .error .unassignedOpcode

/-- Decoding a request word: total, and an illegal word is rejected by the clause it breaks
(30_encoding.md R103 to R105). -/
def decodeRequest (w : ReqWord) : Except Illegal Instr :=
  if reqZ w = 0 then decodeOpcode w else .error .reservedField

/-! ### Wire commands (30_encoding.md R110, R111) -/

/-- The command a command byte names: the first row of 30_encoding.md R111 whose byte it is (log 14). -/
def Cmds.find (c : Cmds) (b : Byte) : Option WireOp :=
  if b = c.swReset then some .swReset
  else if b = c.driverOutput then some .driverOutput
  else if b = c.dataEntry then some .dataEntry
  else if b = c.ramXRange then some .ramXRange
  else if b = c.ramYRange then some .ramYRange
  else if b = c.border then some .border
  else if b = c.tempSensor then some .tempSensor
  else if b = c.ramXCounter then some .ramXCounter
  else if b = c.ramYCounter then some .ramYCounter
  else if b = c.writeRam then some .writeRam
  else if b = c.updCtrl2 then some .updCtrl2
  else if b = c.masterAct then some .masterAct
  else if b = c.deepSleep then some .deepSleep
  else none

/-- The byte of a command (00_scope.md R11). -/
def Cmds.byteOf (c : Cmds) : WireOp → Byte
  | .swReset => c.swReset
  | .driverOutput => c.driverOutput
  | .dataEntry => c.dataEntry
  | .ramXRange => c.ramXRange
  | .ramYRange => c.ramYRange
  | .border => c.border
  | .tempSensor => c.tempSensor
  | .ramXCounter => c.ramXCounter
  | .ramYCounter => c.ramYCounter
  | .writeRam => c.writeRam
  | .updCtrl2 => c.updCtrl2
  | .masterAct => c.masterAct
  | .deepSleep => c.deepSleep

/-- How many data bytes a command takes as this block emits it; `none` for `CMD_WRITE_RAM`, whose data run is as
long as the image (30_encoding.md R110, R111). -/
def WireOp.dataCount : WireOp → Option Nat
  | .swReset => some 0
  | .driverOutput => some 3
  | .dataEntry => some 1
  | .ramXRange => some 2
  | .ramYRange => some 4
  | .border => some 1
  | .tempSensor => some 1
  | .ramXCounter => some 1
  | .ramYCounter => some 2
  | .writeRam => none
  | .updCtrl2 => some 1
  | .masterAct => some 0
  | .deepSleep => some 1

/-- The instruction a command and the micro-actions after it make: its data bytes, or for `CMD_WRITE_RAM` its
stream (30_encoding.md R111). What follows the command's own data is left alone. -/
def decodeData : WireOp → List Micro → Option Instr
  | .swReset, _ => some .cmdSwReset
  | .driverOutput, .sendData d0 :: .sendData d1 :: .sendData d2 :: _ => some (.cmdDriverOutput d0 d1 d2)
  | .dataEntry, .sendData d :: _ => some (.cmdDataEntry d)
  | .ramXRange, .sendData xs :: .sendData xe :: _ => some (.cmdRamXRange xs xe)
  | .ramYRange, .sendData ysl :: .sendData ysh :: .sendData yel :: .sendData yeh :: _ =>
    some (.cmdRamYRange ysl ysh yel yeh)
  | .border, .sendData d :: _ => some (.cmdBorder d)
  | .tempSensor, .sendData d :: _ => some (.cmdTempSensor d)
  | .ramXCounter, .sendData d :: _ => some (.cmdRamXCounter d)
  | .ramYCounter, .sendData lo :: .sendData hi :: _ => some (.cmdRamYCounter lo hi)
  | .writeRam, .stream p n :: _ => some (.cmdWriteRam p n)
  | .updCtrl2, .sendData d :: _ => some (.cmdUpdCtrl2 d)
  | .masterAct, _ => some .cmdMasterAct
  | .deepSleep, .sendData d :: _ => some (.cmdDeepSleep d)
  | _, _ => none

/-- The wire command that stands at the head of a micro-action list, if one does. -/
def decodeWire (p : Params) : List Micro → Option Instr
  | .sendCmd b :: rest => (p.cmds.find b).bind fun op => decodeData op rest
  | _ => none

/-! ### Encoding (30_encoding.md R122, R111) -/

/-- `W = OP | K<<8 | A<<16 | B<<32 | C<<48 | D<<64 | P<<80` (30_encoding.md R122). -/
def reqWord (op k : Byte) (a b c d : Coord) (p : Addr) : ReqWord :=
  op.setWidth 128 ||| k.setWidth 128 <<< 8 ||| a.setWidth 128 <<< 16 ||| b.setWidth 128 <<< 32 |||
  c.setWidth 128 <<< 48 ||| d.setWidth 128 <<< 64 ||| p.setWidth 128 <<< 80

/-- The word of a request, by the field mapping of 30_encoding.md R102 and R120; `none` for a wire command. -/
def encodeRequest : Instr → Option ReqWord
  | .construct color width height rot hasBuffer base =>
    some (reqWord 0x01 color width height rot (if hasBuffer then 1 else 0) base)
  | .setBuffer base => some (reqWord 0x02 0 0 0 0 0 base)
  | .setRotation rot => some (reqWord 0x03 0 rot 0 0 0 0)
  | .setMirror mode => some (reqWord 0x04 mode 0 0 0 0 0)
  | .setDensity scale => some (reqWord 0x05 scale 0 0 0 0 0)
  | .clear color => some (reqWord 0x06 color 0 0 0 0 0)
  | .clearArea color x y w h => some (reqWord 0x07 color x y w h 0)
  | .drawPixel color x y => some (reqWord 0x08 color x y 0 0 0)
  | .readPixel x y => some (reqWord 0x09 0 x y 0 0 0)
  | .windowCalc x y w h => some (reqWord 0x10 0 x y w h 0)
  | .init => some (reqWord 0x20 0 0 0 0 0 0)
  | .refreshFull image => some (reqWord 0x21 0 0 0 0 0 image)
  | .refreshPartial x y w h sub => some (reqWord 0x22 0 x y w h sub)
  | .refreshFast image => some (reqWord 0x23 0 0 0 0 0 image)
  | .deepSleep => some (reqWord 0x24 0 0 0 0 0 0)
  | .cmdSwReset => none
  | .cmdDriverOutput _ _ _ => none
  | .cmdDataEntry _ => none
  | .cmdRamXRange _ _ => none
  | .cmdRamYRange _ _ _ _ => none
  | .cmdBorder _ => none
  | .cmdTempSensor _ => none
  | .cmdRamXCounter _ => none
  | .cmdRamYCounter _ _ => none
  | .cmdWriteRam _ _ => none
  | .cmdUpdCtrl2 _ => none
  | .cmdMasterAct => none
  | .cmdDeepSleep _ => none

/-- The micro-actions of a wire command: `SendCmd` of its byte, then its data in order (30_encoding.md R110,
R111, 44_wire_commands.md R275 to R287); none for a request. -/
def encodeWire (p : Params) : Instr → List Micro
  | .cmdSwReset => [.sendCmd p.cmds.swReset]
  | .cmdDriverOutput d0 d1 d2 => [.sendCmd p.cmds.driverOutput, .sendData d0, .sendData d1, .sendData d2]
  | .cmdDataEntry d => [.sendCmd p.cmds.dataEntry, .sendData d]
  | .cmdRamXRange xs xe => [.sendCmd p.cmds.ramXRange, .sendData xs, .sendData xe]
  | .cmdRamYRange ysl ysh yel yeh =>
    [.sendCmd p.cmds.ramYRange, .sendData ysl, .sendData ysh, .sendData yel, .sendData yeh]
  | .cmdBorder d => [.sendCmd p.cmds.border, .sendData d]
  | .cmdTempSensor d => [.sendCmd p.cmds.tempSensor, .sendData d]
  | .cmdRamXCounter d => [.sendCmd p.cmds.ramXCounter, .sendData d]
  | .cmdRamYCounter lo hi => [.sendCmd p.cmds.ramYCounter, .sendData lo, .sendData hi]
  | .cmdWriteRam q n => [.sendCmd p.cmds.writeRam, .stream q n]
  | .cmdUpdCtrl2 d => [.sendCmd p.cmds.updCtrl2, .sendData d]
  | .cmdMasterAct => [.sendCmd p.cmds.masterAct]
  | .cmdDeepSleep d => [.sendCmd p.cmds.deepSleep, .sendData d]
  | .construct _ _ _ _ _ _ => []
  | .setBuffer _ => []
  | .setRotation _ => []
  | .setMirror _ => []
  | .setDensity _ => []
  | .clear _ => []
  | .clearArea _ _ _ _ _ => []
  | .drawPixel _ _ _ => []
  | .readPixel _ _ => []
  | .windowCalc _ _ _ _ => []
  | .init => []
  | .refreshFull _ => []
  | .refreshPartial _ _ _ _ _ => []
  | .refreshFast _ => []
  | .deepSleep => []

/-- The two encodings of 30_encoding.md as one code: a request word, or the micro-actions of a wire command. -/
inductive Code where
  | request (w : ReqWord)
  | wire (ms : List Micro)
  deriving DecidableEq, Repr

/-- The code of an instruction. -/
def encode (p : Params) (i : Instr) : Code :=
  match encodeRequest i with
  | some w => .request w
  | none => .wire (encodeWire p i)

/-- The instruction a code stands for, if it stands for one. -/
def decode (p : Params) : Code → Option Instr
  | .request w => (decodeRequest w).toOption
  | .wire ms => decodeWire p ms

/-! ### The opcode table's numbering -/

/-- The micro-actions in which a bare command byte stands with every data byte zero (and, for `CMD_WRITE_RAM`,
an empty stream from address 0): the layout of a wire row of the opcode table, whose operands have no bits
there (log 25). -/
def wireWords (p : Params) (b : Byte) : List Micro :=
  match p.cmds.find b with
  | some op =>
    match op.dataCount with
    | some n => .sendCmd b :: List.replicate n (.sendData 0)
    | none => [.sendCmd b, .stream 0 0]
  | none => [.sendCmd b]

/-- The instruction the decoder reads from `nbits` bits numbered as spec/opcode_table.json numbers them: 128 bits
are a request word, 8 bits a wire command byte. -/
def decodeTableWord (nbits w : Nat) : Option Instr :=
  if nbits = 128 then (decodeRequest (BitVec.ofNat 128 w)).toOption
  else if nbits = 8 then decodeWire Params.default (wireWords Params.default (BitVec.ofNat 8 w))
  else none

end Sys2Proof
end

