-- ==== Sys2Proof/Machine/State.lean ====
section
/-! DEFINITION. The state of the block as plain data: the registers of 10_state.md R38 and R39, the sequencer of
R37, host memory, the wire trace, the error log, the parameters and the inputs; the reasons a step may stop; the
state after block reset (R46). -/

namespace Sys2Proof.Machine

/-! ### What registers hold -/

/-- `CV_DENS`: the scale ids 2, 4 and 7 (10_state.md R38, 42_pixel.md R190). -/
inductive Density where
  | d2 | d4 | d7
  deriving DecidableEq, Repr

/-- `CV_ROT`: 0, 90, 180 or 270 degrees (10_state.md R38). -/
inductive Rotation where
  | r0 | r90 | r180 | r270
  deriving DecidableEq, Repr

/-- `CV_MIR`: none, horizontal, vertical, both (10_state.md R38). -/
inductive Mirror where
  | none | horizontal | vertical | both
  deriving DecidableEq, Repr

/-- The result kinds (60_exceptions.md R340). -/
inductive ResultCode where
  | ok | boundsError | invalidParameter | timeout | transportFailure
  deriving DecidableEq, Repr

/-- The contents of `FAULT` (60_exceptions.md R344): none, or one of the five fault codes. These are values of a
register; what stops the model itself is `Fault` below. -/
inductive FaultCode where
  | none | illegalRequest | noBuffer | bufferOverrun | notInitialised | sleepAccess
  deriving DecidableEq, Repr

/-- The kinds the error log holds: the source's four (00_scope.md R19, 60_exceptions.md R343). -/
inductive ErrorKind where
  | boundsError | invalidParameter | timeout | transportFailure
  deriving DecidableEq, Repr

/-- The kind of a send (10_state.md R45). -/
inductive SendKind where
  | cmd | data
  deriving DecidableEq, Repr

/-- The events of the wire trace (10_state.md R45). -/
inductive Event where
  | cmd (b : Byte)
  | data (b : Byte)
  | xferFail (k : SendKind) (b : Byte)
  | rst (level : Bool)
  | delay (ms : Nat)
  | poll (busy : Bool)
  deriving DecidableEq, Repr

/-- What the host does to the block (10_state.md R31, 20_memory.md R87, 93_implementation_defined.md I13; log 6, log 7).
Reading leaves no trace in the state and is `hostRead` of Machine/HostView.lean. -/
inductive HostAct where
  /-- do nothing at this moment -/
  | pass
  /-- do nothing until the block is ready, `REQ_ACTIVE = 0` (10_state.md R31) -/
  | await
  /-- present a request word on the request port -/
  | issue (w : ReqWord)
  /-- write one byte of host memory -/
  | writeMem (a : Nat) (v : Byte)
  deriving DecidableEq, Repr

/-- Host memory: the bytes that differ from what an unlisted address reads as, by rising address
(20_memory.md R70). -/
abbrev Memory := List Host.Cell

/-! ### The parts of the state -/

/-- The canvas registers (10_state.md R38). -/
structure Canvas where
  base : Addr
  valid : Bool
  wm : Coord
  hm : Coord
  wl : Coord
  hl : Coord
  dens : Density
  rot : Rotation
  mir : Mirror
  color : Byte
  deriving DecidableEq, Repr

/-- The protocol and status registers (10_state.md R39). -/
structure Status where
  dstate : DState
  rstLine : Bool
  maybeBusy : Bool
  result : ResultCode
  rval : Byte
  win0 : Byte
  win1 : Byte
  win2 : Byte
  win3 : Byte
  win4 : Byte
  win5 : Byte
  fault : FaultCode
  halted : Bool
  deriving DecidableEq, Repr

/-- The sequencer (10_state.md R37). `waiting` and `wr` are the model's own: whether the wait-idle at `MPC` has
begun (44_wire_commands.md R261), and the result of the request's timed wait (R271) (log 20). -/
structure Sequencer where
  reqActive : Bool
  req : ReqWord
  seq : List Micro
  mpc : Nat
  waitT0 : Int
  waiting : Bool
  wr : ResultCode
  deriving DecidableEq, Repr

/-- The inputs of the block, all the model's own: what the host will do, the block-reset level of each coming
step, the draws already fixed, the counters the free values of Config are applied to, how many clock draws in a row have
stood still, and the least value the next clock draw may have (10_state.md R33 to R35; log 1, 2, 6, 7, 11). -/
structure Env where
  host : List HostAct
  resetIn : List Bool
  xferIn : List Bool
  busyIn : List Bool
  clockIn : List Nat
  nXfer : Nat
  nBusy : Nat
  nClock : Nat
  nStall : Nat
  clockFloor : Nat
  clockRead : Bool
  deriving DecidableEq, Repr

/-- The state of the machine. -/
structure State where
  /-- the parameters of 00_scope.md, which no step changes -/
  par : Params
  /-- canvas registers -/
  cv : Canvas
  /-- protocol and status registers -/
  st : Status
  /-- sequencer state -/
  sq : Sequencer
  /-- host memory -/
  mem : Memory
  /-- the wire trace `WT` -/
  wt : List Event
  /-- the error log `EL`: kinds with the opcode of the request -/
  el : List (ErrorKind × Byte)
  /-- inputs -/
  env : Env
  deriving DecidableEq, Repr

/-- Why the machine may stop. The spec's own faults are no stops: they are register writes after which the block
is stuck (60_exceptions.md R345). -/
inductive Fault where
  /-- Raised by REFRESH_FULL, REFRESH_PARTIAL, REFRESH_FAST and DEEP_SLEEP in the display states Resetting,
  Initializing, Busy and PartialLocked, for which 45_protocol_ops.md R291 has no column because no request is
  admitted in them. No run from reset gets there. Safe: the model stops and says nothing (log 10). -/
  | displayStateOutsideTable
  deriving DecidableEq, Repr

/-- Why an instruction may have no meaning. -/
inductive Refusal where
  /-- Raised by an arm of `exec` whose instruction has no meaning yet. Safe: the model stops. -/
  | notModelled (mnemonic : String)
  deriving DecidableEq, Repr

/-! ### Reset -/

/-- The canvas registers' reset column (10_state.md R38). -/
def Canvas.reset : Canvas where
  base := 0
  valid := false
  wm := 0
  hm := 0
  wl := 0
  hl := 0
  dens := .d2
  rot := .r0
  mir := .none
  color := 0x00

/-- The protocol and status registers' reset column (10_state.md R39). -/
def Status.reset : Status where
  dstate := .poweredOff
  rstLine := true
  maybeBusy := false
  result := .ok
  rval := 0
  win0 := 0
  win1 := 0
  win2 := 0
  win3 := 0
  win4 := 0
  win5 := 0
  fault := .none
  halted := false

/-- The sequencer after reset (10_state.md R46). `req`, `waitT0`, `waiting` and `wr` have no reset value in the
spec: DESIGN CHOICE (log 5). -/
def Sequencer.reset : Sequencer where
  reqActive := false
  req := 0
  seq := []
  mpc := 0
  waitT0 := 0
  waiting := false
  wr := .ok

/-- No input given yet: every draw is free, the host does nothing, block reset is not asserted (log 1, 2, 5, 6). -/
def Env.initial : Env where
  host := []
  resetIn := []
  xferIn := []
  busyIn := []
  clockIn := []
  nXfer := 0
  nBusy := 0
  nClock := 0
  nStall := 0
  clockFloor := 0
  clockRead := false

/-- The machine right after block reset at power-on (10_state.md R38, R39, R46, 70_reset_and_hazards.md R380). -/
def State.reset : State where
  par := Params.default
  cv := Canvas.reset
  st := Status.reset
  sq := Sequencer.reset
  mem := []
  wt := []
  el := []
  env := Env.initial

end Sys2Proof.Machine
end

