-- ==== Sys2Proof/Machine/Operands.lean ====
section
/-! DEFINITION. Every operand form: byte conversion, the operand values the canvas registers accept, the
coordinate transform (41_transform.md), the addresses and bit fields of a pixel (42_pixel.md), and the window
(43_windowing.md). All pure. -/

namespace Sys2Proof.Machine

/-- `byte(v) = v % 256`, the only conversion from an integer to a byte (00_scope.md R15, 43_windowing.md R235). -/
def byte (v : Int) : Byte := BitVec.ofInt 8 v

/-! ### Operand values of the configuration requests -/

/-- Rotation in degrees (40_canvas_config.md R150): an unsupported value is no rotation. -/
def Rotation.ofDegrees (a : Coord) : Option Rotation :=
  if a = 0 then some .r0
  else if a = 90 then some .r90
  else if a = 180 then some .r180
  else if a = 270 then some .r270
  else none

/-- Mirror code (40_canvas_config.md R155): an unsupported value is no mirror mode. -/
def Mirror.ofCode (k : Byte) : Option Mirror :=
  if k = 0 then some .none
  else if k = 1 then some .horizontal
  else if k = 2 then some .vertical
  else if k = 3 then some .both
  else Option.none

/-- Density scale id (40_canvas_config.md R160): an unsupported value is no density. -/
def Density.ofScale (k : Byte) : Option Density :=
  if k = 2 then some .d2
  else if k = 4 then some .d4
  else if k = 7 then some .d7
  else none

/-- Whether the logical dimensions are the memory dimensions swapped (40_canvas_config.md R141). -/
def Rotation.swapsDims : Rotation → Bool
  | .r0 => false
  | .r90 => true
  | .r180 => false
  | .r270 => true

/-! ### The coordinate transform (41_transform.md R170 to R175) -/

/-- `e = 0` for `RAW` and `e = 1` for `INDEX` (00_scope.md R8). -/
def edgeTerm : Edge → Int
  | .raw => 0
  | .index => 1

/-- Logical bounds (41_transform.md R171). -/
def inLogical (cv : Canvas) (x y : Nat) : Bool := decide (x < cv.wl.toNat) && decide (y < cv.hl.toNat)

/-- The rotation formulas, with the logical dimensions (41_transform.md R172, R173). -/
def rotate (e : Edge) (cv : Canvas) (x y : Int) : Int × Int :=
  let w : Int := cv.wl.toNat
  let h : Int := cv.hl.toNat
  match cv.rot with
  | .r0 => (x, y)
  | .r90 => (h - edgeTerm e - y, x)
  | .r180 => (w - edgeTerm e - x, h - edgeTerm e - y)
  | .r270 => (y, w - edgeTerm e - x)

/-- The mirror formulas, with the memory dimensions (41_transform.md R174). -/
def mirror (e : Edge) (cv : Canvas) (xr yr : Int) : Int × Int :=
  let wm : Int := cv.wm.toNat
  let hm : Int := cv.hm.toNat
  match cv.mir with
  | .none => (xr, yr)
  | .horizontal => (wm - edgeTerm e - xr, yr)
  | .vertical => (xr, hm - edgeTerm e - yr)
  | .both => (wm - edgeTerm e - xr, hm - edgeTerm e - yr)

/-- Memory bounds (41_transform.md R175). -/
def inMemory (cv : Canvas) (xm ym : Int) : Bool :=
  decide (0 ≤ xm) && decide (xm < cv.wm.toNat) && decide (0 ≤ ym) && decide (ym < cv.hm.toNat)

/-- The pipeline (41_transform.md R170): a memory point, or `none` for `Oob`. -/
def transform (e : Edge) (cv : Canvas) (x y : Nat) : Option (Nat × Nat) :=
  if inLogical cv x y then
    let r := rotate e cv x y
    let m := mirror e cv r.1 r.2
    if inMemory cv m.1 m.2 then some (m.1.toNat, m.2.toNat) else none
  else none

/-! ### Row width, region, addresses and fields (42_pixel.md R190 to R202) -/

/-- `ceil(a / b)` (00_scope.md R14). -/
def ceilDiv (a b : Nat) : Nat := (a + b - 1) / b

/-- `width_bytes(d, W)` (42_pixel.md R190). -/
def widthBytes (d : Density) (w : Nat) : Nat :=
  match d with
  | .d2 => ceilDiv w 8
  | .d4 => ceilDiv w 4
  | .d7 => ceilDiv (w * 3) 8

/-- `width_bytes` of the canvas (42_pixel.md R190); no register, so never stale (10_state.md R38). -/
def Canvas.rowBytes (cv : Canvas) : Nat := widthBytes cv.dens cv.wm.toNat

/-- The bytes of the canvas region, `width_bytes * CV_HM` (20_memory.md R73). -/
def Canvas.regionBytes (cv : Canvas) : Nat := cv.rowBytes * cv.hm.toNat

/-- The region check of one address (20_memory.md R72, R73, 42_pixel.md R202). -/
def addrOk (p : Params) (cv : Canvas) (a : Nat) : Bool :=
  decide (cv.base.toNat ≤ a) && decide (a < cv.base.toNat + cv.regionBytes) && decide (a < p.memSize)

/-- Density 2: the byte address (42_pixel.md R191). -/
def addr2 (cv : Canvas) (xm ym : Nat) : Nat :=
  cv.base.toNat + xm / 8 + ym * widthBytes .d2 cv.wm.toNat

/-- Density 2: the mask `0x80 >> (xm % 8)` (42_pixel.md R191, 20_memory.md R74). -/
def mask2 (xm : Nat) : Byte := 0x80#8 >>> (xm % 8)

/-- Density 4: the byte address (42_pixel.md R194). -/
def addr4 (cv : Canvas) (xm ym : Nat) : Nat :=
  cv.base.toNat + xm / 4 + ym * widthBytes .d4 cv.wm.toNat

/-- Density 4: the shift `6 - 2 * (xm % 4)` (42_pixel.md R194). -/
def shift4 (xm : Nat) : Nat := 6 - 2 * (xm % 4)

/-- Density 7: the group address (42_pixel.md R197). -/
def group7 (cv : Canvas) (xm ym : Nat) : Nat :=
  cv.base.toNat + xm / 8 * 3 + ym * widthBytes .d7 cv.wm.toNat

/-- Density 7: the slot `(xm + ym * CV_WM) % 8` (42_pixel.md R197). -/
def slot7 (cv : Canvas) (xm ym : Nat) : Nat := (xm + ym * cv.wm.toNat) % 8

/-- `D7_LAYOUT[s]` (00_scope.md R9); `s` is taken modulo 8. -/
def layoutSlot (d : D7Layout) (s : Nat) : D7Slot :=
  match s % 8 with
  | 0 => d.s0
  | 1 => d.s1
  | 2 => d.s2
  | 3 => d.s3
  | 4 => d.s4
  | 5 => d.s5
  | 6 => d.s6
  | _ => d.s7

/-- The position of value bit `j` of a slot: `p2`, `p1` or `p0` (00_scope.md R9). -/
def slotPos (s : D7Slot) (j : Nat) : Nat :=
  match j with
  | 0 => s.p0.val
  | 1 => s.p1.val
  | _ => s.p2.val

/-- Bit `g` of a group is bit `7 - g % 8` of its byte (20_memory.md R74). -/
def bitOfPos (g : Nat) : Nat := 7 - g % 8

/-- The value bits of a slot that fall in byte `o` of the group (42_pixel.md R198). -/
def slotBitsIn (s : D7Slot) (o : Nat) : List Nat := [2, 1, 0].filter fun j => slotPos s j / 8 == o

/-- The offsets in the group of the bytes a slot touches, in increasing order: the sorted set of
42_pixel.md R198. -/
def slotOffsets (s : D7Slot) : List Nat := [0, 1, 2].filter fun o => !(slotBitsIn s o).isEmpty

/-- The mask `m` of one byte: the OR over the value bits in it (42_pixel.md R198). -/
def slotMaskIn (s : D7Slot) (o : Nat) : Byte :=
  (slotBitsIn s o).foldl (fun m j => m ||| 1#8 <<< bitOfPos (slotPos s j)) 0

/-- The field `f` of one byte: the OR of the value bits in their places (42_pixel.md R198). -/
def slotFieldIn (s : D7Slot) (v : Byte) (o : Nat) : Byte :=
  (slotBitsIn s o).foldl (fun f j => if v.getLsbD j then f ||| 1#8 <<< bitOfPos (slotPos s j) else f) 0

/-! ### The window (43_windowing.md R230 to R234) -/

/-- The six integers of `window`. -/
structure Window where
  xStartByte : Int
  xEndByte : Int
  yStartLo : Int
  yStartHi : Int
  yEndLo : Int
  yEndHi : Int
  deriving DecidableEq, Repr

/-- The high part of a Y value: `v >= 256 ? v/256 : 0` (43_windowing.md R233, R234). -/
def splitHi (v : Int) : Int := if 256 ≤ v then v / 256 else 0

/-- The low part of a Y value: `v >= 256 ? v%256 : v` (43_windowing.md R233, R234). -/
def splitLo (v : Int) : Int := if 256 ≤ v then v % 256 else v

/-- `window(x_start, y_start, width, height)` (43_windowing.md R230 to R234). -/
def window (panelH x y w h : Nat) : Window :=
  let xs : Int := (x / 8 : Nat)
  let yCount : Int := (panelH : Int) - y
  let ysl := splitLo yCount
  let yEndRaw := ysl + h - 1
  { xStartByte := xs
    xEndByte := xs + (w / 8 : Nat) - 1
    yStartLo := ysl
    yStartHi := splitHi yCount
    yEndLo := splitLo yEndRaw
    yEndHi := splitHi yEndRaw }

/-- The bytes of a partial refresh's sub-buffer, `(C / 8) * D` (45_protocol_ops.md R310). -/
def subBufferBytes (w h : Coord) : Nat := w.toNat / 8 * h.toNat

end Sys2Proof.Machine
end

