-- ==== Sys2Proof/Machine/Ops.lean ====
section
/-! DEFINITION. The shared operations: memory, the log and the trace, finish, raise Fault (the one exception entry)
and block reset (the one way out of it), the draws, the sends, the micro-actions, and the pixel reader and
writer. -/

namespace Sys2Proof.Machine

/-! ### Host memory (20_memory.md R70, R72) -/

/-- What an address that no cell lists reads as. The initial contents of memory are the host's (20_memory.md R70):
0x00 is a DESIGN CHOICE (log 4). -/
def unlistedByte : Byte := 0x00

/-- `MemRead(a, 1)` (20_memory.md R72). -/
def Memory.read : Memory → Nat → Byte
  | [], _ => unlistedByte
  | (b, v) :: rest, a => if b = a then v else Memory.read rest a

/-- The cells with one address dropped. -/
def Memory.erase (m : Memory) (a : Nat) : Memory := m.filter fun c => c.1 != a

/-- The cells with one address set to a byte, in its place by rising address. -/
def Memory.insert : Memory → Nat → Byte → Memory
  | [], a, v => [(a, v)]
  | (b, x) :: rest, a, v =>
    if a < b then (a, v) :: (b, x) :: rest
    else if a = b then (a, v) :: rest
    else (b, x) :: Memory.insert rest a v

/-- `MemWrite(a, 1, v)` (20_memory.md R72), keeping the canonical form. -/
def Memory.write (m : Memory) (a : Nat) (v : Byte) : Memory :=
  if v = unlistedByte then Memory.erase m a else Memory.insert m a v

/-- The canonical form: addresses strictly rising, no cell equal to what an unlisted address reads as. -/
def Memory.wf (m : Memory) : Bool :=
  decide (m.Pairwise fun c d => c.1 < d.1) && m.all fun c => c.2 != unlistedByte

/-- Writing one byte of the machine's memory. -/
def State.writeMem (s : State) (a : Nat) (v : Byte) : State := { s with mem := Memory.write s.mem a v }

/-- Writing `n` bytes of value `v` from address `a`, in increasing address order (42_pixel.md R215). -/
def State.fill : Nat → Nat → Byte → State → State
  | 0, _, _, s => s
  | n + 1, a, v, s => State.fill n (a + 1) v (s.writeMem a v)

/-! ### Trace, log, finish, fault, block reset -/

/-- `emit(ev)` (10_state.md R45). -/
def State.emit (s : State) (e : Event) : State := { s with wt := s.wt ++ [e] }

/-- The opcode of the executing request, from the latched word (60_exceptions.md R343; log 18). -/
def State.reqOpcode (s : State) : Byte := reqOp s.sq.req

/-- `log(kind)` (60_exceptions.md R343). -/
def State.log (s : State) (k : ErrorKind) : State := { s with el := s.el ++ [(k, s.reqOpcode)] }

/-- The sequencer when no request executes: `SEQ` empty, `MPC = 0`, `REQ_ACTIVE = 0`
(60_exceptions.md R341, R345). -/
def Sequencer.ended (q : Sequencer) : Sequencer :=
  { q with reqActive := false, seq := [], mpc := 0, waiting := false }

/-- `finish(code)` (60_exceptions.md R341). -/
def State.finish (s : State) (c : ResultCode) : State :=
  { s with st := { s.st with result := c }, sq := s.sq.ended }

/-- `raise Fault(code)` (60_exceptions.md R345): taking the one kind of exception the block has. `FAULT` holds the
code, the request ends, `RESULT` and everything the request has done stay. -/
def State.raiseFault (s : State) (c : FaultCode) : State :=
  { s with st := { s.st with fault := c }, sq := s.sq.ended }

/-- Block reset (70_reset_and_hazards.md R380, R381), the only way out of a fault or a halt
(60_exceptions.md R352): every register and the sequencer as after reset, `WT` and `EL` cleared; host memory, the
parameters and the inputs untouched. -/
def State.blockReset (s : State) : State :=
  { State.reset with par := s.par, mem := s.mem, env := s.env }

/-! ### Draws (10_state.md R33 to R35; log 1, log 2) -/

/-- `draw xfer()`: the next fixed draw, or a free value; `true` is `ok` (10_state.md R35). -/
def Env.drawXfer (e : Env) : Bool × Env :=
  match e.xferIn with
  | b :: rest => (b, { e with xferIn := rest })
  | [] => (Config.xferDraw e.nXfer, { e with nXfer := e.nXfer + 1 })

/-- `draw busy()`: the next fixed draw, or a free value; `true` is busy (10_state.md R33). -/
def Env.drawBusy (e : Env) : Bool × Env :=
  match e.busyIn with
  | b :: rest => (b, { e with busyIn := rest })
  | [] => (Config.busyDraw e.nBusy, { e with nBusy := e.nBusy + 1 })

/-- By how much the next clock draw exceeds its least value: the next fixed draw, or free values. The free draws stand
still a free number of times and then advance, so the clock of no infinite run is bounded (10_state.md R34 (c)). -/
def Env.drawClockStep (e : Env) : Nat × Env :=
  match e.clockIn with
  | d :: rest => (d, { e with clockIn := rest })
  | [] =>
    if e.nStall < Config.clockStall e.nClock then (0, { e with nStall := e.nStall + 1 })
    else (Config.clockJump e.nClock + 1, { e with nClock := e.nClock + 1, nStall := 0 })

/-- `draw clock()` (10_state.md R34): at least every earlier value and every delay since. -/
def Env.drawClock (e : Env) : Nat × Env :=
  let d := e.drawClockStep
  (e.clockFloor + d.1, { d.2 with clockFloor := e.clockFloor + d.1, clockRead := true })

/-- A delay raises the least value of the next clock draw by `ms`, once a value has been read
(10_state.md R34 (b), 44_wire_commands.md R264; log 2). A delay that raises it is an advance of the clock. -/
def Env.delay (e : Env) (ms : Nat) : Env :=
  if e.clockRead && ms != 0 then { e with clockFloor := e.clockFloor + ms, nClock := e.nClock + 1, nStall := 0 } else e

/-! ### The host (10_state.md R31, 20_memory.md R87, 93_implementation_defined.md I13; log 6, log 7) -/

/-- The inputs without the host's next action. -/
def State.popHost (s : State) : State := { s with env := { s.env with host := s.env.host.tail } }

/-- The host writes a byte of its memory (20_memory.md R87); outside host memory nothing happens (log 12). -/
def State.hostWrite (s : State) (a : Nat) (v : Byte) : State :=
  if a < s.par.memSize then s.writeMem a v else s

/-- What the host does at a moment of an executing request: a word it issues is discarded, a byte it writes is written,
and where it awaits the end of the request it goes on waiting (93_implementation_defined.md I13; log 7). -/
def State.hostMeanwhile (s : State) : State :=
  match s.env.host with
  | [] => s
  | .pass :: _ => s.popHost
  | .await :: _ => s
  | .issue _ :: _ => s.popHost
  | .writeMem a v :: _ => s.popHost.hostWrite a v

/-! ### Sends (44_wire_commands.md R262, R265) -/

/-- The event of a completed send (10_state.md R45). -/
def SendKind.event : SendKind → Byte → Event
  | .cmd, b => .cmd b
  | .data, b => .data b

/-- `transport_fail(k, b)` (44_wire_commands.md R262, 60_exceptions.md R346). -/
def State.transportFail (s : State) (k : SendKind) (b : Byte) : State :=
  let s := (s.emit (.xferFail k b)).log .transportFailure
  { s with st := { s.st with halted := true } }.finish .transportFailure

/-- One send: `.ok` the state after the byte was sent, `.error` the state a failed send ends the request in
(44_wire_commands.md R262). -/
def State.send (s : State) (k : SendKind) (b : Byte) : Except State State :=
  let d := s.env.drawXfer
  let s := { s with env := d.2 }
  if d.1 then .ok (s.emit (k.event b)) else .error (s.transportFail k b)

/-- One byte of a stream: the host may act, and the byte is read just before it is sent
(44_wire_commands.md R265, 93_implementation_defined.md I13). -/
def State.sendByteAt (s : State) (a : Nat) : Except State State :=
  s.hostMeanwhile.send .data (Memory.read s.hostMeanwhile.mem a)

/-- The sends of a stream: `n` bytes from address `a`, in increasing address order, up to the first failed send
(44_wire_commands.md R265). -/
def State.sendBytes : Nat → Nat → State → Except State State
  | 0, _, s => .ok s
  | n + 1, a, s =>
    match s.sendByteAt a with
    | .ok s' => State.sendBytes n (a + 1) s'
    | .error s' => .error s'

/-- A stream of `n` bytes from `p` stays inside host memory; an empty stream always does
(45_protocol_ops.md R292, 44_wire_commands.md R265). -/
def streamFits (par : Params) (p : Addr) (n : Nat) : Bool :=
  n == 0 || decide (p.toNat + n ≤ par.memSize)

/-! ### The micro-actions (44_wire_commands.md R260 to R271) -/

/-- The micro-action at `MPC` is complete: `MPC` advances by one, and the request ends with the result of its
timed wait when `MPC = length(SEQ)` (10_state.md R37, 45_protocol_ops.md R293). -/
def State.advance (s : State) : State :=
  if s.sq.mpc + 1 < s.sq.seq.length then
    { s with sq := { s.sq with mpc := s.sq.mpc + 1, waiting := false } }
  else s.finish s.sq.wr

/-- A micro-action made of sends completes, unless a send ended the request. -/
def completeSends (r : Except State State) : State :=
  match r with
  | .ok s => s.advance
  | .error s => s

/-- `SendCmd(b)` (44_wire_commands.md R262). -/
def State.runSendCmd (s : State) (b : Byte) : State := completeSends (s.send .cmd b)

/-- `SendData(v)` (44_wire_commands.md R262). -/
def State.runSendData (s : State) (v : Byte) : State := completeSends (s.send .data v)

/-- `Stream(p, n)` (44_wire_commands.md R265). -/
def State.runStream (s : State) (p : Addr) (n : Nat) : State :=
  if streamFits s.par p n then completeSends (State.sendBytes n p.toNat s)
  else s.raiseFault .bufferOverrun

/-- `Rst(l)` (44_wire_commands.md R263). -/
def State.runRst (s : State) (level : Bool) : State :=
  ({ s with st := { s.st with rstLine := level } }.emit (.rst level)).advance

/-- `Delay(ms)` (44_wire_commands.md R264). -/
def State.runDelay (s : State) (ms : Nat) : State :=
  ({ s with env := s.env.delay ms }.emit (.delay ms)).advance

/-- `SetState(s)` (44_wire_commands.md R266). -/
def State.runSetState (s : State) (d : DState) : State :=
  { s with st := { s.st with dstate := d } }.advance

/-- A busy-line read, recorded as a `Poll` event (44_wire_commands.md R270, R271). -/
def State.poll (s : State) : Bool × State :=
  let d := s.env.drawBusy
  (d.1, { s with env := d.2 }.emit (.poll d.1))

/-- A wait-idle exits: `MAYBE_BUSY` and the wait's result are set and the micro-action is complete
(44_wire_commands.md R270, R271). -/
def State.exitWait (s : State) (maybeBusy : Bool) (wr : ResultCode) : State :=
  { s with st := { s.st with maybeBusy := maybeBusy }, sq := { s.sq with wr := wr } }.advance

/-- `WaitIdle` (44_wire_commands.md R270): the step that begins the wait, then one step for each poll
(70_reset_and_hazards.md R410). It reads no clock and leaves the request's result alone. -/
def State.runWaitIdle (s : State) : State :=
  if s.sq.waiting then
    let b := s.poll
    if b.1 then b.2 else b.2.exitWait false s.sq.wr
  else { s with sq := { s.sq with waiting := true } }

/-- `WaitIdleTimed(t)` (44_wire_commands.md R271): the step that begins the wait reads `t0`; then one step for each
poll, the busy line read before the clock. -/
def State.runWaitIdleTimed (s : State) (t : Nat) : State :=
  if s.sq.waiting then
    let b := s.poll
    if b.1 then
      let c := b.2.env.drawClock
      let s' := { b.2 with env := c.2 }
      if (t : Int) ≤ (c.1 : Int) - s.sq.waitT0 then (s'.log .timeout).exitWait true .timeout else s'
    else b.2.exitWait false .ok
  else
    let c := s.env.drawClock
    { s with env := c.2, sq := { s.sq with waitT0 := (c.1 : Int), waiting := true } }

/-- One step of a micro-action (44_wire_commands.md R260). -/
def State.runMicro (s : State) : Micro → State
  | .sendCmd b => s.runSendCmd b
  | .sendData v => s.runSendData v
  | .stream p n => s.runStream p n
  | .rst level => s.runRst level
  | .delay ms => s.runDelay ms
  | .waitIdle => s.runWaitIdle
  | .waitIdleTimed t => s.runWaitIdleTimed t
  | .setState d => s.runSetState d

/-! ### Starting a sequence -/

/-- A protocol request starts: `SEQ` is built and `MPC <- 0` (45_protocol_ops.md R290). -/
def State.startSeq (s : State) (ms : List Micro) : State :=
  { s with sq := { s.sq with reqActive := true, seq := ms, mpc := 0, waiting := false, wr := .ok } }

/-- `SEQ` holds the micro-actions `ms` at `MPC`. Where they stand there already, nothing changes
(30_encoding.md R110; log 9). -/
def State.placeWire (s : State) (ms : List Micro) : State :=
  { s with sq := { s.sq with
      reqActive := true
      seq := s.sq.seq.take s.sq.mpc ++ ms ++ s.sq.seq.drop (s.sq.mpc + ms.length) } }

/-- Emitting a wire command whose micro-actions are `ms`: they stand in `SEQ` at `MPC`, and the first, `SendCmd`
of the command byte, is performed; the data follow at the next values of `MPC` (44_wire_commands.md R251, R262,
30_encoding.md R110). -/
def State.sendWire (s : State) (ms : List Micro) : State :=
  match ms with
  | [] => s
  | m :: _ => (s.placeWire ms).runMicro m

/-! ### Loops (42_pixel.md R215, R220) -/

/-- `for i in a .. a + n - 1`, in increasing order, up to the first round that ends the request. -/
def forRange {σ : Type} : Nat → Nat → (Nat → σ → Except State σ) → σ → Except State σ
  | 0, _, _, x => .ok x
  | n + 1, a, f, x =>
    match f a x with
    | .ok x' => forRange n (a + 1) f x'
    | .error s => .error s

/-! ### The pixel writer and reader (42_pixel.md R192, R195, R198, R200, R201) -/

/-- Density 2: black clears the bit, any other colour sets it (42_pixel.md R192, R193). -/
def newByte2 (p : Params) (xm : Nat) (c v : Byte) : Byte :=
  if c = p.colorBlack then v &&& ~~~(mask2 xm) else v ||| mask2 xm

/-- Density 4: the field is cleared and the low two bits of the colour put in (42_pixel.md R195, R196). -/
def newByte4 (xm : Nat) (c v : Byte) : Byte :=
  (v &&& ~~~(3#8 <<< shift4 xm)) ||| ((c &&& 3#8) <<< shift4 xm)

/-- Density 7: the bits of the pixel in byte `o` of its group are masked out and the new ones put in
(42_pixel.md R198). -/
def newByte7 (sl : D7Slot) (o : Nat) (c v : Byte) : Byte :=
  (v &&& ~~~(slotMaskIn sl o)) ||| slotFieldIn sl (c &&& 7#8) o

/-- `pack2` (42_pixel.md R192). -/
def State.pack2 (s : State) (xm ym : Nat) (c : Byte) : Except State State :=
  let a := addr2 s.cv xm ym
  if addrOk s.par s.cv a then .ok (s.writeMem a (newByte2 s.par xm c (Memory.read s.mem a)))
  else .error (s.raiseFault .bufferOverrun)

/-- `pack4` (42_pixel.md R195). -/
def State.pack4 (s : State) (xm ym : Nat) (c : Byte) : Except State State :=
  let a := addr4 s.cv xm ym
  if addrOk s.par s.cv a then .ok (s.writeMem a (newByte4 xm c (Memory.read s.mem a)))
  else .error (s.raiseFault .bufferOverrun)

/-- The slot of a density-7 pixel (42_pixel.md R197, R198). -/
def State.slotAt (s : State) (xm ym : Nat) : D7Slot := layoutSlot s.par.d7 (slot7 s.cv xm ym)

/-- The addresses a density-7 pixel touches, in increasing order (42_pixel.md R198). -/
def State.addrs7 (s : State) (xm ym : Nat) : List Nat :=
  (slotOffsets (s.slotAt xm ym)).map fun o => group7 s.cv xm ym + o

/-- Writing the bytes of a density-7 pixel at group address `g`, each read and written once, in increasing order
(42_pixel.md R198). -/
def State.writeGroup (g : Nat) (sl : D7Slot) (c : Byte) : List Nat → State → State
  | [], s => s
  | o :: rest, s =>
    State.writeGroup g sl c rest (s.writeMem (g + o) (newByte7 sl o c (Memory.read s.mem (g + o))))

/-- `pack7` (42_pixel.md R198): every address is checked before any access. -/
def State.pack7 (s : State) (xm ym : Nat) (c : Byte) : Except State State :=
  if (s.addrs7 xm ym).all (addrOk s.par s.cv) then
    .ok (State.writeGroup (group7 s.cv xm ym) (s.slotAt xm ym) c (slotOffsets (s.slotAt xm ym)) s)
  else .error (s.raiseFault .bufferOverrun)

/-- `pack(xm, ym, c)` (42_pixel.md R200); `.error` is the state its fault leaves (R202). -/
def State.pack (s : State) (xm ym : Nat) (c : Byte) : Except State State :=
  match s.cv.dens with
  | .d2 => s.pack2 xm ym c
  | .d4 => s.pack4 xm ym c
  | .d7 => s.pack7 xm ym c

/-- Every byte address of the pixel at a memory point (42_pixel.md R191, R194, R198). -/
def State.pixelAddrs (s : State) (xm ym : Nat) : List Nat :=
  match s.cv.dens with
  | .d2 => [addr2 s.cv xm ym]
  | .d4 => [addr4 s.cv xm ym]
  | .d7 => s.addrs7 xm ym

/-- Value bit `j` of a density-7 pixel whose group is at `g` (42_pixel.md R201). -/
def groupBit (m : Memory) (g : Nat) (sl : D7Slot) (j : Nat) : Bool :=
  (Memory.read m (g + slotPos sl j / 8)).getLsbD (bitOfPos (slotPos sl j))

/-- A three-bit value from its bits. -/
def value3 (b2 b1 b0 : Bool) : Byte :=
  (if b2 then 4#8 else 0) ||| (if b1 then 2#8 else 0) ||| (if b0 then 1#8 else 0)

/-- The value of the pixel at a memory point (42_pixel.md R201). -/
def State.pixelValue (s : State) (xm ym : Nat) : Byte :=
  match s.cv.dens with
  | .d2 => (Memory.read s.mem (addr2 s.cv xm ym) >>> (7 - xm % 8)) &&& 1#8
  | .d4 => (Memory.read s.mem (addr4 s.cv xm ym) >>> shift4 xm) &&& 3#8
  | .d7 =>
    let g := group7 s.cv xm ym
    let sl := s.slotAt xm ym
    value3 (groupBit s.mem g sl 2) (groupBit s.mem g sl 1) (groupBit s.mem g sl 0)

/-- `unpack(xm, ym)` (42_pixel.md R201), under the same region check (R202). -/
def State.unpack (s : State) (xm ym : Nat) : Except State Byte :=
  if (s.pixelAddrs xm ym).all (addrOk s.par s.cv) then .ok (s.pixelValue xm ym)
  else .error (s.raiseFault .bufferOverrun)

end Sys2Proof.Machine
end

