-- ==== Sys2Proof/Machine/CanvasConfig.lean ====
section
/-! DEFINITION. The canvas configuration requests (40_canvas_config.md): CONSTRUCT, SET_BUFFER, SET_ROTATION,
SET_MIRROR, SET_DENSITY. Each completes in one step, reads and writes no memory and emits nothing (R165). -/

namespace Sys2Proof.Machine

/-- The canvas with its logical dimensions taken from its memory dimensions, swapped at 90 and 270 degrees
(40_canvas_config.md R141). -/
def Canvas.logicalFromMemory (cv : Canvas) (r : Rotation) : Canvas :=
  if r.swapsDims then { cv with wl := cv.hm, hl := cv.wm } else { cv with wl := cv.wm, hl := cv.hm }

/-- The canvas `CONSTRUCT` leaves, at the rotation it ends with (40_canvas_config.md R140). -/
def constructed (color : Byte) (width height : Coord) (hasBuffer : Bool) (base : Addr) (r : Rotation) : Canvas :=
  Canvas.logicalFromMemory
    { base := if hasBuffer then base else 0
      valid := hasBuffer
      wm := width
      hm := height
      wl := width
      hl := height
      dens := .d2
      rot := r
      mir := .none
      color := color }
    r

/-- An unsupported operand value: logged, and the request's result, with nothing else changed
(40_canvas_config.md R166). -/
def State.rejectParameter (s : State) : State := (s.log .invalidParameter).finish .invalidParameter

/-- `CONSTRUCT` (40_canvas_config.md R140): an unsupported rotation is logged and keeps `CV_ROT`; everything else
happens all the same. -/
def execConstruct (color : Byte) (width height rot : Coord) (hasBuffer : Bool) (base : Addr) (s : State) :
    Host.Outcome State Fault Refusal :=
  match Rotation.ofDegrees rot with
  | some r => .next ({ s with cv := constructed color width height hasBuffer base r }.finish .ok)
  | none =>
    .next (State.rejectParameter { s with cv := constructed color width height hasBuffer base s.cv.rot })

/-- `SET_BUFFER` (40_canvas_config.md R145). -/
def execSetBuffer (base : Addr) (s : State) : Host.Outcome State Fault Refusal :=
  .next ({ s with cv := { s.cv with base := base, valid := true } }.finish .ok)

/-- `SET_ROTATION` (40_canvas_config.md R150): the logical dimensions follow only if `SETROT_SWAPS_DIMS`. -/
def execSetRotation (rot : Coord) (s : State) : Host.Outcome State Fault Refusal :=
  match Rotation.ofDegrees rot with
  | some r =>
    let cv := { s.cv with rot := r }
    .next ({ s with cv := if s.par.setrotSwapsDims then cv.logicalFromMemory r else cv }.finish .ok)
  | none => .next s.rejectParameter

/-- `SET_MIRROR` (40_canvas_config.md R155). -/
def execSetMirror (mode : Byte) (s : State) : Host.Outcome State Fault Refusal :=
  match Mirror.ofCode mode with
  | some m => .next ({ s with cv := { s.cv with mir := m } }.finish .ok)
  | none => .next s.rejectParameter

/-- `SET_DENSITY` (40_canvas_config.md R160): the bytes of the buffer are not converted. -/
def execSetDensity (scale : Byte) (s : State) : Host.Outcome State Fault Refusal :=
  match Density.ofScale scale with
  | some d => .next ({ s with cv := { s.cv with dens := d } }.finish .ok)
  | none => .next s.rejectParameter

end Sys2Proof.Machine
end

