-- ==== Sys2Proof/Machine/Pixel.lean ====
section
/-! DEFINITION. The pixel requests (42_pixel.md): DRAW_PIXEL, READ_PIXEL, CLEAR, CLEAR_AREA. Each completes in one
step and emits nothing. -/

namespace Sys2Proof.Machine

/-- The transform of a logical point under the canvas registers (41_transform.md R170, R178). -/
def State.transformed (s : State) (x y : Nat) : Option (Nat × Nat) := transform s.par.edge s.cv x y

/-- The end of a request whose body went through, or was ended by a fault of the body (60_exceptions.md R345). -/
def endBody (r : Except State State) (c : ResultCode) : State :=
  match r with
  | .ok s => s.finish c
  | .error s => s

/-- `DRAW_PIXEL` (42_pixel.md R205). -/
def execDrawPixel (color : Byte) (x y : Coord) (s : State) : Host.Outcome State Fault Refusal :=
  if s.cv.valid then
    match s.transformed x.toNat y.toNat with
    | some (xm, ym) => .next (endBody (s.pack xm ym color) .ok)
    | none => .next ((s.log .boundsError).finish .boundsError)
  else .next (s.raiseFault .noBuffer)

/-- `RVAL <- v` (10_state.md R39). -/
def State.setRval (s : State) (v : Byte) : State := { s with st := { s.st with rval := v } }

/-- `READ_PIXEL` (42_pixel.md R210). -/
def execReadPixel (x y : Coord) (s : State) : Host.Outcome State Fault Refusal :=
  if s.cv.valid then
    match s.transformed x.toNat y.toNat with
    | some (xm, ym) =>
      match s.unpack xm ym with
      | .ok v => .next ((s.setRval v).finish .ok)
      | .error s' => .next s'
    | none => .next (((s.setRval 0).log .boundsError).finish .boundsError)
  else .next (s.raiseFault .noBuffer)

/-- The fill byte of `CLEAR` at density 2 (42_pixel.md R215). -/
def fillByte2 (p : Params) (c : Byte) : Byte := if c = p.colorBlack then 0x00 else 0xFF

/-- The fill byte of `CLEAR` at density 4, `(K & 3) * 0x55` (42_pixel.md R215). -/
def fillByte4 (c : Byte) : Byte := (c &&& 3#8) * 0x55#8

/-- `CLEAR` at densities 2 and 4: the whole region is checked against memory, then filled (42_pixel.md R215). -/
def State.clearBytes (s : State) (f : Byte) : State :=
  if s.cv.base.toNat + s.cv.regionBytes ≤ s.par.memSize then
    (State.fill s.cv.regionBytes s.cv.base.toNat f s).finish .ok
  else s.raiseFault .bufferOverrun

/-- `CLEAR` at density 7: every memory pixel, row by row (42_pixel.md R215). -/
def State.clearPixels (s : State) (c : Byte) : State :=
  endBody
    (forRange s.cv.hm.toNat 0
      (fun ym s1 => forRange s.cv.wm.toNat 0 (fun xm s2 => s2.pack7 xm ym c) s1) s)
    .ok

/-- `CLEAR` (42_pixel.md R215): memory coordinates, no transform. -/
def execClear (color : Byte) (s : State) : Host.Outcome State Fault Refusal :=
  if s.cv.valid then
    match s.cv.dens with
    | .d2 => .next (s.clearBytes (fillByte2 s.par color))
    | .d4 => .next (s.clearBytes (fillByte4 color))
    | .d7 => .next (s.clearPixels color)
  else .next (s.raiseFault .noBuffer)

/-- One point of `CLEAR_AREA`, with the result so far (42_pixel.md R220). -/
def areaPoint (color : Byte) (x y : Nat) (a : State × ResultCode) : Except State (State × ResultCode) :=
  match a.1.transformed x y with
  | some (xm, ym) =>
    match a.1.pack xm ym color with
    | .ok s => .ok (s, a.2)
    | .error s => .error s
  | none => .ok (a.1.log .boundsError, .boundsError)

/-- `CLEAR_AREA` (42_pixel.md R220): rows, and columns in a row, in increasing order. -/
def execClearArea (color : Byte) (x y w h : Coord) (s : State) : Host.Outcome State Fault Refusal :=
  if s.cv.valid then
    match forRange h.toNat y.toNat
        (fun py a => forRange w.toNat x.toNat (fun px b => areaPoint color px py b) a) (s, ResultCode.ok) with
    | .ok a => .next (a.1.finish a.2)
    | .error s' => .next s'
  else .next (s.raiseFault .noBuffer)

end Sys2Proof.Machine
end

