-- ==== Sys2Proof/Machine/Protocol.lean ====
section
/-! DEFINITION. The protocol requests (45_protocol_ops.md): INIT, REFRESH_FULL, REFRESH_PARTIAL, REFRESH_FAST,
DEEP_SLEEP. Executing one makes its checks and starts its micro-action sequence (R290 steps 3 to 5); the sequence
then runs one micro-action a step (R290 step 6, 70_reset_and_hazards.md R410). -/

namespace Sys2Proof.Machine

/-- `ResetPulse(tl, tw)` (44_wire_commands.md R267). -/
def resetPulse (tl tw : Nat) : List Micro := [.rst false, .delay tl, .rst true, .delay tw]

/-- The configuration commands of INIT, between its second and third wait (45_protocol_ops.md R300). -/
def initConfig (p : Params) : List Micro :=
  let d := p.initData
  encodeWire p (.cmdDriverOutput d.doc0 d.doc1 d.doc2) ++
  encodeWire p (.cmdDataEntry d.dem) ++
  encodeWire p (.cmdRamXRange d.xStart d.xEnd) ++
  encodeWire p (.cmdRamYRange d.yStart d.yStartHi d.yEnd0 d.yEnd1) ++
  encodeWire p (.cmdBorder d.border) ++
  encodeWire p (.cmdTempSensor d.temp) ++
  encodeWire p (.cmdRamXCounter d.xCounter) ++
  encodeWire p (.cmdRamYCounter d.yCounter0 d.yCounter1)

/-- The sequence of INIT (45_protocol_ops.md R300). -/
def initSeq (p : Params) : List Micro :=
  [.setState .resetting] ++ resetPulse p.tRstLow p.tRstWait ++ [.setState .initializing] ++
  [.waitIdle] ++ encodeWire p .cmdSwReset ++ [.waitIdle] ++ initConfig p ++ [.waitIdle, .setState .idle]

/-- The end common to the refreshes: update control, master activation, the timed wait
(45_protocol_ops.md R305, R310, R315). -/
def refreshTail (p : Params) (upd : Byte) (budget : Nat) : List Micro :=
  encodeWire p (.cmdUpdCtrl2 upd) ++ encodeWire p .cmdMasterAct ++
  [.setState .busy, .waitIdleTimed budget, .setState .idle]

/-- The counter commands REFRESH_FULL sends if `FULL_RESETS_COUNTERS` (45_protocol_ops.md R305). -/
def counterReset (p : Params) : List Micro :=
  encodeWire p (.cmdRamXCounter p.initData.xCounter) ++
  encodeWire p (.cmdRamYCounter p.initData.yCounter0 p.initData.yCounter1)

/-- The sequence of REFRESH_FULL (45_protocol_ops.md R305). -/
def refreshFullSeq (p : Params) (image : Addr) : List Micro :=
  (if p.fullResetsCounters then counterReset p else []) ++
  encodeWire p (.cmdWriteRam image p.panelBytes) ++ refreshTail p p.upd2Full p.toFull

/-- The commands that program the address window, in the order of 43_windowing.md R237. -/
def windowCommands (p : Params) (w : Window) : List Micro :=
  encodeWire p (.cmdRamXRange (byte w.xStartByte) (byte w.xEndByte)) ++
  encodeWire p (.cmdRamYRange (byte w.yStartLo) (byte w.yStartHi) (byte w.yEndLo) (byte w.yEndHi)) ++
  encodeWire p (.cmdRamXCounter (byte w.xStartByte)) ++
  encodeWire p (.cmdRamYCounter (byte w.yStartLo) (byte w.yStartHi))

/-- The sequence of REFRESH_PARTIAL (45_protocol_ops.md R310). -/
def refreshPartialSeq (p : Params) (x y w h : Coord) (sub : Addr) : List Micro :=
  [.setState .partialLocked] ++ resetPulse p.tRstLowP p.tRstWaitP ++
  encodeWire p (.cmdBorder p.borderLock) ++
  windowCommands p (window p.panelH x.toNat y.toNat w.toNat h.toNat) ++
  encodeWire p (.cmdWriteRam sub (subBufferBytes w h)) ++ refreshTail p p.upd2Part p.toPart

/-- The sequence of REFRESH_FAST (45_protocol_ops.md R315). -/
def refreshFastSeq (p : Params) (image : Addr) : List Micro :=
  (if p.fastWritesRam then encodeWire p (.cmdWriteRam image p.panelBytes) else []) ++
  refreshTail p p.upd2Fast p.toFast

/-- The sequence of DEEP_SLEEP (45_protocol_ops.md R320). -/
def deepSleepSeq (p : Params) : List Micro :=
  encodeWire p (.cmdDeepSleep p.dslpMode) ++ [.setState .sleeping, .delay p.tSleep]

/-- Admission by display state, then the stream range check, then the sequence starts (45_protocol_ops.md R290,
R291, R292). The display states for which R291 has no column stop the model (log 10). -/
def State.admitIdle (s : State) (fits : Bool) (ms : List Micro) : Host.Outcome State Fault Refusal :=
  match s.st.dstate with
  | .idle => .next (if fits then s.startSeq ms else s.raiseFault .bufferOverrun)
  | .poweredOff => .next (s.raiseFault .notInitialised)
  | .sleeping => .next (s.raiseFault .sleepAccess)
  | .resetting => .fault .displayStateOutsideTable
  | .initializing => .fault .displayStateOutsideTable
  | .busy => .fault .displayStateOutsideTable
  | .partialLocked => .fault .displayStateOutsideTable

/-- `INIT` (45_protocol_ops.md R300): admitted in every display state (R291). -/
def execInit (s : State) : Host.Outcome State Fault Refusal := .next (s.startSeq (initSeq s.par))

/-- `REFRESH_FULL` (45_protocol_ops.md R305). -/
def execRefreshFull (image : Addr) (s : State) : Host.Outcome State Fault Refusal :=
  s.admitIdle (streamFits s.par image s.par.panelBytes) (refreshFullSeq s.par image)

/-- `REFRESH_PARTIAL` (45_protocol_ops.md R310). -/
def execRefreshPartial (x y w h : Coord) (sub : Addr) (s : State) : Host.Outcome State Fault Refusal :=
  s.admitIdle (streamFits s.par sub (subBufferBytes w h)) (refreshPartialSeq s.par x y w h sub)

/-- `REFRESH_FAST` (45_protocol_ops.md R315): the range is checked only if `FAST_WRITES_RAM` (R292). -/
def execRefreshFast (image : Addr) (s : State) : Host.Outcome State Fault Refusal :=
  s.admitIdle (!s.par.fastWritesRam || streamFits s.par image s.par.panelBytes) (refreshFastSeq s.par image)

/-- `DEEP_SLEEP` (45_protocol_ops.md R320). -/
def execDeepSleep (s : State) : Host.Outcome State Fault Refusal := s.admitIdle true (deepSleepSeq s.par)

end Sys2Proof.Machine
end

