-- ==== Sys2Proof/Machine/Windowing.lean ====
section
/-! DEFINITION. `WINDOW_CALC` (43_windowing.md R236). -/

namespace Sys2Proof.Machine

/-- `WIN0..WIN5` as the bytes of a window (43_windowing.md R235, R236). -/
def Status.withWindow (st : Status) (w : Window) : Status :=
  { st with
    win0 := byte w.xStartByte
    win1 := byte w.xEndByte
    win2 := byte w.yStartLo
    win3 := byte w.yStartHi
    win4 := byte w.yEndLo
    win5 := byte w.yEndHi }

/-- `WINDOW_CALC` (43_windowing.md R236): always `OK`, in every display state (R239). -/
def execWindowCalc (x y w h : Coord) (s : State) : Host.Outcome State Fault Refusal :=
  .next ({ s with st := s.st.withWindow (window s.par.panelH x.toNat y.toNat w.toNat h.toNat) }.finish .ok)

end Sys2Proof.Machine
end

