-- ==== Sys2Proof/Machine/Wire.lean ====
section
/-! DEFINITION. The thirteen wire commands (44_wire_commands.md R275 to R287). A wire command stands in SEQ as
`SendCmd` of its byte followed by its data; executing it sends the command byte, and its data bytes are the next
micro-actions (R251, R262, 30_encoding.md R110; log 9). -/

namespace Sys2Proof.Machine

/-- `CMD_SW_RESET` (44_wire_commands.md R275). -/
def execCmdSwReset (s : State) : Host.Outcome State Fault Refusal :=
  .next (s.sendWire (encodeWire s.par .cmdSwReset))

/-- `CMD_DRIVER_OUTPUT` (44_wire_commands.md R276). -/
def execCmdDriverOutput (d0 d1 d2 : Byte) (s : State) : Host.Outcome State Fault Refusal :=
  .next (s.sendWire (encodeWire s.par (.cmdDriverOutput d0 d1 d2)))

/-- `CMD_DATA_ENTRY` (44_wire_commands.md R277). -/
def execCmdDataEntry (d : Byte) (s : State) : Host.Outcome State Fault Refusal :=
  .next (s.sendWire (encodeWire s.par (.cmdDataEntry d)))

/-- `CMD_RAM_X_RANGE` (44_wire_commands.md R278). -/
def execCmdRamXRange (xs xe : Byte) (s : State) : Host.Outcome State Fault Refusal :=
  .next (s.sendWire (encodeWire s.par (.cmdRamXRange xs xe)))

/-- `CMD_RAM_Y_RANGE` (44_wire_commands.md R279). -/
def execCmdRamYRange (ysl ysh yel yeh : Byte) (s : State) : Host.Outcome State Fault Refusal :=
  .next (s.sendWire (encodeWire s.par (.cmdRamYRange ysl ysh yel yeh)))

/-- `CMD_BORDER` (44_wire_commands.md R280). -/
def execCmdBorder (d : Byte) (s : State) : Host.Outcome State Fault Refusal :=
  .next (s.sendWire (encodeWire s.par (.cmdBorder d)))

/-- `CMD_TEMP_SENSOR` (44_wire_commands.md R281). -/
def execCmdTempSensor (d : Byte) (s : State) : Host.Outcome State Fault Refusal :=
  .next (s.sendWire (encodeWire s.par (.cmdTempSensor d)))

/-- `CMD_RAM_X_COUNTER` (44_wire_commands.md R282). -/
def execCmdRamXCounter (d : Byte) (s : State) : Host.Outcome State Fault Refusal :=
  .next (s.sendWire (encodeWire s.par (.cmdRamXCounter d)))

/-- `CMD_RAM_Y_COUNTER` (44_wire_commands.md R283). -/
def execCmdRamYCounter (lo hi : Byte) (s : State) : Host.Outcome State Fault Refusal :=
  .next (s.sendWire (encodeWire s.par (.cmdRamYCounter lo hi)))

/-- `CMD_WRITE_RAM` (44_wire_commands.md R284). -/
def execCmdWriteRam (p : Addr) (n : Nat) (s : State) : Host.Outcome State Fault Refusal :=
  .next (s.sendWire (encodeWire s.par (.cmdWriteRam p n)))

/-- `CMD_UPD_CTRL2` (44_wire_commands.md R285). -/
def execCmdUpdCtrl2 (d : Byte) (s : State) : Host.Outcome State Fault Refusal :=
  .next (s.sendWire (encodeWire s.par (.cmdUpdCtrl2 d)))

/-- `CMD_MASTER_ACT` (44_wire_commands.md R286). -/
def execCmdMasterAct (s : State) : Host.Outcome State Fault Refusal :=
  .next (s.sendWire (encodeWire s.par .cmdMasterAct))

/-- `CMD_DEEP_SLEEP` (44_wire_commands.md R287). -/
def execCmdDeepSleep (d : Byte) (s : State) : Host.Outcome State Fault Refusal :=
  .next (s.sendWire (encodeWire s.par (.cmdDeepSleep d)))

end Sys2Proof.Machine
end

