-- ==== Sys2Proof/Machine/Dispatch.lean ====
section
/-! DEFINITION. The dispatch of an instruction to its meaning. -/

namespace Sys2Proof.Machine

def exec (i : Instr) (s : State) : Host.Outcome State Fault Refusal :=
  match i with
  | .construct color width height rot hasBuffer base => Sys2Proof.Machine.execConstruct color width height rot hasBuffer base s
  | .setBuffer base => Sys2Proof.Machine.execSetBuffer base s
  | .setRotation rot => Sys2Proof.Machine.execSetRotation rot s
  | .setMirror mode => Sys2Proof.Machine.execSetMirror mode s
  | .setDensity scale => Sys2Proof.Machine.execSetDensity scale s
  | .clear color => Sys2Proof.Machine.execClear color s
  | .clearArea color x y w h => Sys2Proof.Machine.execClearArea color x y w h s
  | .drawPixel color x y => Sys2Proof.Machine.execDrawPixel color x y s
  | .readPixel x y => Sys2Proof.Machine.execReadPixel x y s
  | .windowCalc x y w h => Sys2Proof.Machine.execWindowCalc x y w h s
  | .init => Sys2Proof.Machine.execInit s
  | .refreshFull image => Sys2Proof.Machine.execRefreshFull image s
  | .refreshPartial x y w h sub => Sys2Proof.Machine.execRefreshPartial x y w h sub s
  | .refreshFast image => Sys2Proof.Machine.execRefreshFast image s
  | .deepSleep => Sys2Proof.Machine.execDeepSleep s
  | .cmdSwReset => Sys2Proof.Machine.execCmdSwReset s
  | .cmdDriverOutput d0 d1 d2 => Sys2Proof.Machine.execCmdDriverOutput d0 d1 d2 s
  | .cmdDataEntry d => Sys2Proof.Machine.execCmdDataEntry d s
  | .cmdRamXRange xs xe => Sys2Proof.Machine.execCmdRamXRange xs xe s
  | .cmdRamYRange ysl ysh yel yeh => Sys2Proof.Machine.execCmdRamYRange ysl ysh yel yeh s
  | .cmdBorder d => Sys2Proof.Machine.execCmdBorder d s
  | .cmdTempSensor d => Sys2Proof.Machine.execCmdTempSensor d s
  | .cmdRamXCounter d => Sys2Proof.Machine.execCmdRamXCounter d s
  | .cmdRamYCounter lo hi => Sys2Proof.Machine.execCmdRamYCounter lo hi s
  | .cmdWriteRam p n => Sys2Proof.Machine.execCmdWriteRam p n s
  | .cmdUpdCtrl2 d => Sys2Proof.Machine.execCmdUpdCtrl2 d s
  | .cmdMasterAct => Sys2Proof.Machine.execCmdMasterAct s
  | .cmdDeepSleep d => Sys2Proof.Machine.execCmdDeepSleep d s

end Sys2Proof.Machine
end

