-- ==== Sys2Proof/Machine/Fetch.lean ====
section
/-! DEFINITION. Where the block takes its next instruction from: a request word from the request port when it is
ready (60_exceptions.md R347), a wire command from `SEQ` at `MPC` while a protocol request runs
(10_state.md R37). -/

namespace Sys2Proof.Machine

/-- The micro-actions still to run, the one at `MPC` first (10_state.md R37). -/
def State.pending (s : State) : List Micro := s.sq.seq.drop s.sq.mpc

/-- One step of the executing request (10_state.md R37, 45_protocol_ops.md R290 step 6): where a wire command stands
at `MPC` it is executed; any other micro-action is performed; with none left the request ends. -/
def State.stepActive (s : State) : Host.Outcome State Fault Refusal :=
  match s.pending with
  | [] => .next (s.finish s.sq.wr)
  | m :: rest =>
    match decodeWire s.par (m :: rest) with
    | some i => exec i s
    | none => .next (s.runMicro m)

/-- The block latches a word and sets `REQ_ACTIVE` (30_encoding.md R100, 60_exceptions.md R347). -/
def State.latch (s : State) (w : ReqWord) : State := { s with sq := { s.sq with req := w, reqActive := true } }

/-- Whether a word the host issues is accepted (60_exceptions.md R347). -/
def State.accepts (s : State) : Bool := !s.sq.reqActive && s.st.fault == .none && !s.st.halted

/-- A word on the request port: discarded while the block is faulted or halted, otherwise latched, checked for
legality and executed (60_exceptions.md R347, R348, 30_encoding.md R104). -/
def State.takeRequest (s : State) (w : ReqWord) : Host.Outcome State Fault Refusal :=
  if s.accepts then
    match decodeRequest w with
    | .ok i => exec i (s.latch w)
    | .error _ => .next ((s.latch w).raiseFault .illegalRequest)
  else .next s

/-- One step while no request executes: the host's next action, or waiting for one (70_reset_and_hazards.md R380,
20_memory.md R87). -/
def State.stepIdle (s : State) : Host.Outcome State Fault Refusal :=
  match s.env.host with
  | [] => .next s
  | .pass :: _ => .next s.popHost
  | .await :: _ => .next s.popHost
  | .issue w :: _ => s.popHost.takeRequest w
  | .writeMem a v :: _ => .next (s.popHost.hostWrite a v)

/-- One step of the block itself: while a request executes the host may break its duty and act meanwhile
(93_implementation_defined.md I13; log 7), then the request goes on. -/
def State.stepBlock (s : State) : Host.Outcome State Fault Refusal :=
  if s.sq.reqActive then s.hostMeanwhile.stepActive else s.stepIdle

/-- The block-reset level of this step is used up (70_reset_and_hazards.md R380; log 11). -/
def State.tick (s : State) : State := { s with env := { s.env with resetIn := s.env.resetIn.tail } }

/-- Whether block reset is asserted at this step; with no level given it is not (log 11). -/
def State.resetAsserted (s : State) : Bool := s.env.resetIn.head?.getD false

/-- One step: block reset if it is asserted, otherwise a step of the block. -/
def State.stepOnce (s : State) : Host.Outcome State Fault Refusal :=
  if s.resetAsserted then .next s.tick.blockReset else s.tick.stepBlock

/-- `s` ready to take the request word `w` at its next step: the word is the host's next action, the block is
ready for it and block reset is not asserted. -/
def State.withRequest (s : State) (w : ReqWord) : State :=
  { s with
    st := { s.st with fault := .none, halted := false }
    sq := { s.sq with reqActive := false }
    env := { s.env with host := .issue w :: s.env.host, resetIn := [] } }

/-- `s` executing a protocol request whose micro-actions are `ms`, about to perform the first. -/
def State.withWire (s : State) (ms : List Micro) : State :=
  { s with
    sq := { s.sq with reqActive := true, seq := ms, mpc := 0 }
    env := { s.env with resetIn := [] } }

/-- `s` with the table instruction of `nbits` bits `w` where its next step fetches (log 6, log 25). -/
def State.placeFetch (s : State) (nbits w : Nat) : State :=
  if nbits = 8 then s.withWire (wireWords s.par (BitVec.ofNat 8 w)) else s.withRequest (BitVec.ofNat 128 w)

end Sys2Proof.Machine
end

