-- ==== Sys2Proof/Machine/Assembler.lean ====
section
/-! DEFINITION. The assembler of 30_encoding.md: the operand order of the request lines (R120), the symbols and
pseudo-requests (R121), and the words they encode to (R122). A line is taken as its mnemonic and its operands'
numbers; the characters it is written in carry no meaning of the block (log 21). -/

namespace Sys2Proof.Machine

/-- A mirror operand by name (30_encoding.md R120). -/
inductive MirrorName where
  | none | h | v | both
  deriving DecidableEq, Repr

/-- The code a mirror name stands for (30_encoding.md R120). -/
def MirrorName.value : MirrorName → Nat
  | .none => 0
  | .h => 1
  | .v => 2
  | .both => 3

/-- A request or pseudo-request line, operands in the order of 30_encoding.md R120 and R121. A `CONSTRUCT` buffer
of `none` is written `-`. -/
inductive AsmLine where
  | construct (buf : Option Nat) (width height rot color : Nat)
  | setBuffer (buf : Nat)
  | setRotation (rot : Nat)
  | setMirror (mode : Nat)
  | setDensity (scale : Nat)
  | clear (color : Nat)
  | clearArea (x y w h color : Nat)
  | drawPixel (x y color : Nat)
  | readPixel (x y : Nat)
  | windowCalc (x y w h : Nat)
  | init
  | refreshFull (img : Nat)
  | refreshPartial (x y w h sub : Nat)
  | refreshFast (img : Option Nat)
  | deepSleep
  /-- `PSET x, y` -/
  | pset (x y : Nat)
  /-- `PCLR x, y` -/
  | pclr (x y : Nat)
  /-- `WINDOW_FULL` -/
  | windowFull
  /-- `SHOW img` -/
  | showImage (img : Nat)
  /-- `REWAKE` -/
  | rewake
  deriving DecidableEq, Repr

/-- A number as an operand of a field of `n` bits; a number that does not fit has no encoding. -/
def operand (n v : Nat) : Option (BitVec n) := if v < 2 ^ n then some (BitVec.ofNat n v) else none

/-- The requests a line stands for, in order (30_encoding.md R120, R121); `none` if an operand does not fit its
field. -/
def AsmLine.requests (p : Params) : AsmLine → Option (List Instr)
  | .construct buf width height rot color => do
    let base ← operand 32 (buf.getD 0)
    return [.construct (← operand 8 color) (← operand 16 width) (← operand 16 height) (← operand 16 rot) buf.isSome base]
  | .setBuffer buf => do return [.setBuffer (← operand 32 buf)]
  | .setRotation rot => do return [.setRotation (← operand 16 rot)]
  | .setMirror mode => do return [.setMirror (← operand 8 mode)]
  | .setDensity scale => do return [.setDensity (← operand 8 scale)]
  | .clear color => do return [.clear (← operand 8 color)]
  | .clearArea x y w h color => do
    return [.clearArea (← operand 8 color) (← operand 16 x) (← operand 16 y) (← operand 16 w) (← operand 16 h)]
  | .drawPixel x y color => do return [.drawPixel (← operand 8 color) (← operand 16 x) (← operand 16 y)]
  | .readPixel x y => do return [.readPixel (← operand 16 x) (← operand 16 y)]
  | .windowCalc x y w h => do
    return [.windowCalc (← operand 16 x) (← operand 16 y) (← operand 16 w) (← operand 16 h)]
  | .init => some [.init]
  | .refreshFull img => do return [.refreshFull (← operand 32 img)]
  | .refreshPartial x y w h sub => do
    return [.refreshPartial (← operand 16 x) (← operand 16 y) (← operand 16 w) (← operand 16 h) (← operand 32 sub)]
  | .refreshFast img => do return [.refreshFast (← operand 32 (img.getD 0))]
  | .deepSleep => some [.deepSleep]
  | .pset x y => do return [.drawPixel p.colorWhite (← operand 16 x) (← operand 16 y)]
  | .pclr x y => do return [.drawPixel p.colorBlack (← operand 16 x) (← operand 16 y)]
  | .windowFull => do return [.windowCalc 0 0 (← operand 16 p.panelW) (← operand 16 p.panelH)]
  | .showImage img => do return [.refreshFull (← operand 32 img), .deepSleep]
  | .rewake => some [.init]

/-- The request words a line assembles to (30_encoding.md R122). -/
def AsmLine.assemble (p : Params) (l : AsmLine) : Option (List ReqWord) :=
  (l.requests p).map fun is => is.filterMap encodeRequest

end Sys2Proof.Machine
end

