-- ==== Sys2Proof/Machine/Flags.lean ====
section
/-! DEFINITION. The codes the status and configuration registers show (10_state.md R38 to R40, 60_exceptions.md
R340, R344) and the severities of results (R342, R343). This hardware has no arithmetic flags. -/

namespace Sys2Proof.Machine

/-- `CV_DENS` as an 8-bit register (10_state.md R38). -/
def Density.code : Density → BitVec 8
  | .d2 => 2
  | .d4 => 4
  | .d7 => 7

/-- `CV_ROT` as a 16-bit register, in degrees (10_state.md R38). -/
def Rotation.code : Rotation → BitVec 16
  | .r0 => 0
  | .r90 => 90
  | .r180 => 180
  | .r270 => 270

/-- `CV_MIR` as a 2-bit register (10_state.md R38). -/
def Mirror.code : Mirror → BitVec 2
  | .none => 0
  | .horizontal => 1
  | .vertical => 2
  | .both => 3

/-- `DSTATE` as a 3-bit register (10_state.md R40). -/
def dstateCode : DState → BitVec 3
  | .poweredOff => 0
  | .resetting => 1
  | .initializing => 2
  | .idle => 3
  | .busy => 4
  | .partialLocked => 5
  | .sleeping => 6

/-- `RESULT` as an 8-bit register (60_exceptions.md R340). -/
def ResultCode.code : ResultCode → BitVec 8
  | .ok => 0
  | .boundsError => 1
  | .invalidParameter => 2
  | .timeout => 3
  | .transportFailure => 4

/-- `FAULT` as an 8-bit register (60_exceptions.md R344). -/
def FaultCode.code : FaultCode → BitVec 8
  | .none => 0
  | .illegalRequest => 1
  | .noBuffer => 2
  | .bufferOverrun => 3
  | .notInitialised => 4
  | .sleepAccess => 5

/-- The order of severity of results (60_exceptions.md R342). -/
def ResultCode.severity : ResultCode → Nat
  | .ok => 0
  | .boundsError => 1
  | .invalidParameter => 2
  | .timeout => 3
  | .transportFailure => 4

/-- Whether a log entry is a warning; every other kind is an error (60_exceptions.md R343). -/
def ErrorKind.isWarning : ErrorKind → Bool
  | .invalidParameter => true
  | .boundsError => false
  | .timeout => false
  | .transportFailure => false

/-- The result kind of a log kind (60_exceptions.md R340). -/
def ErrorKind.result : ErrorKind → ResultCode
  | .boundsError => .boundsError
  | .invalidParameter => .invalidParameter
  | .timeout => .timeout
  | .transportFailure => .transportFailure

/-- A one-bit register. -/
def bitCode (b : Bool) : BitVec 1 := if b then 1 else 0

end Sys2Proof.Machine
end

