-- ==== Sys2Proof/Machine/HostView.lean ====
section
/-! DEFINITION. What the host can read: the registers by their numbers (10_state.md R38, R39), host memory, and the
observation of a run (R45). Reading changes nothing. -/

namespace Sys2Proof.Machine

/-- The register of a number, zero-extended to 32 bits; `none` where no register has the number (10_state.md R38,
R39; log 22). -/
def State.register (s : State) (n : Nat) : Option (BitVec 32) :=
  match n with
  | 0x00 => some s.cv.base
  | 0x01 => some ((bitCode s.cv.valid).setWidth 32)
  | 0x02 => some (s.cv.wm.setWidth 32)
  | 0x03 => some (s.cv.hm.setWidth 32)
  | 0x04 => some (s.cv.wl.setWidth 32)
  | 0x05 => some (s.cv.hl.setWidth 32)
  | 0x06 => some (s.cv.dens.code.setWidth 32)
  | 0x07 => some (s.cv.rot.code.setWidth 32)
  | 0x08 => some (s.cv.mir.code.setWidth 32)
  | 0x09 => some (s.cv.color.setWidth 32)
  | 0x10 => some ((dstateCode s.st.dstate).setWidth 32)
  | 0x11 => some ((bitCode s.st.rstLine).setWidth 32)
  | 0x12 => some ((bitCode s.st.maybeBusy).setWidth 32)
  | 0x20 => some (s.st.result.code.setWidth 32)
  | 0x21 => some (s.st.rval.setWidth 32)
  | 0x22 => some (s.st.win0.setWidth 32)
  | 0x23 => some (s.st.win1.setWidth 32)
  | 0x24 => some (s.st.win2.setWidth 32)
  | 0x25 => some (s.st.win3.setWidth 32)
  | 0x26 => some (s.st.win4.setWidth 32)
  | 0x27 => some (s.st.win5.setWidth 32)
  | 0x28 => some (s.st.fault.code.setWidth 32)
  | 0x29 => some ((bitCode s.st.halted).setWidth 32)
  | _ => none

/-- The host reads a register, which it may do when `REQ_ACTIVE = 0` (10_state.md R39). `REQ` and the rest of the
sequencer are not registers the host can read (60_exceptions.md R344). -/
def State.hostRead (s : State) (n : Nat) : Option (BitVec 32) :=
  if s.sq.reqActive then none else s.register n

/-- The host reads a byte of its memory between requests (20_memory.md R87). -/
def State.hostReadMem (s : State) (a : Nat) : Option Byte :=
  if s.sq.reqActive then none
  else if a < s.par.memSize then some (Memory.read s.mem a) else none

/-- The observation of a run: the final registers, the final memory, `WT` and `EL` (10_state.md R45). -/
structure Observation where
  canvas : Canvas
  status : Status
  memory : Memory
  trace : List Event
  errors : List (ErrorKind × Byte)
  deriving DecidableEq, Repr

/-- The observation of a state (10_state.md R45). -/
def State.observe (s : State) : Observation where
  canvas := s.cv
  status := s.st
  memory := s.mem
  trace := s.wt
  errors := s.el

/-- The commands of a wire trace with their data bytes: a command ends at the next event that is no `Data`
(30_encoding.md R110, R111). -/
def traceCommands : List Event → List (Byte × List Byte)
  | [] => []
  | .cmd b :: rest => (b, leadingData rest) :: traceCommands rest
  | .data _ :: rest => traceCommands rest
  | .xferFail _ _ :: rest => traceCommands rest
  | .rst _ :: rest => traceCommands rest
  | .delay _ :: rest => traceCommands rest
  | .poll _ :: rest => traceCommands rest
where
  /-- The data bytes at the head of a trace. -/
  leadingData : List Event → List Byte
    | .data d :: rest => d :: leadingData rest
    | _ => []

/-- A command of a trace is one of 30_encoding.md R111 with the number of data bytes the table gives it. -/
def commandComplete (p : Params) (c : Byte × List Byte) : Bool :=
  match p.cmds.find c.1 with
  | none => false
  | some op =>
    match op.dataCount with
    | some n => c.2.length == n
    | none => true

end Sys2Proof.Machine
end

