-- ==== Sys2Proof/Safety.lean ====
section
/-! DEFINITION. What a good state is, in the terms the statements use: the memory, canvas, status and protocol
invariants, and the display-state transitions of 45_protocol_ops.md R325. -/

namespace Sys2Proof.Machine

/-- The transitions of `DSTATE` the block makes (45_protocol_ops.md R325). -/
def legalTransition : DState → DState → Bool
  | .poweredOff, .resetting => true
  | .idle, .resetting => true
  | .sleeping, .resetting => true
  | .resetting, .initializing => true
  | .initializing, .idle => true
  | .idle, .busy => true
  | .idle, .partialLocked => true
  | .partialLocked, .busy => true
  | .busy, .idle => true
  | .idle, .sleeping => true
  | _, _ => false

/-- The display states the block rests in between requests (10_state.md R40). -/
def settled : DState → Bool
  | .poweredOff => true
  | .idle => true
  | .sleeping => true
  | _ => false

/-- The display state after a micro-action completes (44_wire_commands.md R266). -/
def stateAfter (d : DState) : Micro → DState
  | .setState d' => d'
  | _ => d

/-- The reset-line level after a micro-action completes (44_wire_commands.md R263). -/
def lineAfter (l : Bool) : Micro → Bool
  | .rst l' => l'
  | _ => l

/-- A micro-action may run in a display state: nothing is sent and no busy line is read in `Sleeping`
(70_reset_and_hazards.md R396), a command byte is one of the table (30_encoding.md R112), a stream stays in host
memory (45_protocol_ops.md R292), a timed wait runs in `Busy` (44_wire_commands.md R286), and a display-state
change is one of 45_protocol_ops.md R325. -/
def microOk (p : Params) (d : DState) : Micro → Bool
  | .sendCmd b => d != .sleeping && (p.cmds.find b).isSome
  | .sendData _ => d != .sleeping
  | .stream q n => d != .sleeping && streamFits p q n
  | .rst _ => true
  | .delay _ => true
  | .waitIdle => d != .sleeping
  | .waitIdleTimed _ => d == .busy
  | .setState d' => legalTransition d d'

/-- A micro-action list may run from a display state and a reset-line level: each micro-action may run where it
stands, and the list ends settled with the reset line released. -/
def seqOk (p : Params) : DState → Bool → List Micro → Bool
  | d, l, [] => settled d && l
  | d, l, m :: ms => microOk p d m && seqOk p (stateAfter d m) (lineAfter l m) ms

/-- A wait-idle micro-action. -/
def isWait : Micro → Bool
  | .waitIdle => true
  | .waitIdleTimed _ => true
  | _ => false

/-- Every command byte of a trace is one of 30_encoding.md R111 (R112). -/
def traceInTable (p : Params) (wt : List Event) : Prop :=
  ∀ b, Event.cmd b ∈ wt → (p.cmds.find b).isSome

/-- Memory is canonical and holds no address outside host memory (20_memory.md R70). -/
structure State.MemInv (s : State) : Prop where
  canonical : Memory.wf s.mem = true
  inside : ∀ c ∈ s.mem, c.1 < s.par.memSize

/-- The logical dimensions follow the rotation, when `SETROT_SWAPS_DIMS` (40_canvas_config.md R141, R150), and a
canvas without a buffer has base 0 (R140). -/
structure State.CanvasInv (s : State) : Prop where
  dims : s.par.setrotSwapsDims = true →
    (s.cv.wl, s.cv.hl) = if s.cv.rot.swapsDims then (s.cv.hm, s.cv.wm) else (s.cv.wm, s.cv.hm)
  noBuffer : s.cv.valid = false → s.cv.base = 0

/-- The sequencer and the protocol registers agree (10_state.md R37, R40, 60_exceptions.md R341, R345, R346,
30_encoding.md R112). -/
structure State.ProtocolInv (s : State) : Prop where
  /-- no request executes: `SEQ` is empty, `MPC = 0` and no wait is in progress -/
  ready : s.sq.reqActive = false → s.sq.seq = [] ∧ s.sq.mpc = 0 ∧ s.sq.waiting = false
  /-- no request executes and the block is not halted: the display state is settled and reset released -/
  rests : s.sq.reqActive = false → s.st.halted = false → settled s.st.dstate = true ∧ s.st.rstLine = true
  /-- a request executes: the block is neither faulted nor halted and what is left of `SEQ` may run -/
  runs : s.sq.reqActive = true → s.st.fault = .none ∧ s.st.halted = false ∧ s.pending ≠ [] ∧
    seqOk s.par s.st.dstate s.st.rstLine s.pending = true
  /-- a wait in progress is the micro-action at `MPC` -/
  waits : s.sq.waiting = true → ∃ m ms, s.pending = m :: ms ∧ isWait m = true
  /-- a halted block's last result is `TransportFailure` -/
  haltResult : s.st.halted = true → s.st.result = .transportFailure
  /-- a halted block is not faulted -/
  haltNoFault : s.st.halted = true → s.st.fault = .none
  /-- only commands of the table are on the wire -/
  trace : traceInTable s.par s.wt

/-- `RVAL` holds 0..7 (10_state.md R39). -/
def State.RvalInv (s : State) : Prop := s.st.rval.toNat ≤ 7

/-! ### What the statements speak of -/

/-- `n` steps of the machine, up to the first stop. -/
def runSteps : Nat → State → Host.Outcome State Fault Refusal
  | 0, s => .next s
  | n + 1, s =>
    match step s with
    | .next s' => runSteps n s'
    | .fault r => .fault r
    | .refused r => .refused r

/-- Block reset is asserted at no step the inputs speak of (70_reset_and_hazards.md R380). -/
def State.NoReset (s : State) : Prop := ∀ b ∈ s.env.resetIn, b = false

/-- The host keeps its duty while a request executes: it has nothing more to do, or awaits the end of the request
(10_state.md R31, 20_memory.md R87, R89 (b)). -/
def State.HostWaits (s : State) : Prop := s.env.host = [] ∨ ∃ rest, s.env.host = .await :: rest

/-- The host's actions at the next `k` moments of an executing request: it goes no further than a wait for its end
(93_implementation_defined.md I13). -/
def State.meanwhileActs (s : State) (k : Nat) : List HostAct := (s.env.host.takeWhile (· != .await)).take k

/-- What address `a` of host memory holds at the `k`-th of the next moments of an executing request: the last byte the
host has written there meanwhile, or what it held before (93_implementation_defined.md I13). -/
def State.heldAt (s : State) (k a : Nat) : Byte :=
  (s.meanwhileActs k).foldl (fun v x => if a < s.par.memSize then
    match x with
    | .writeMem b u => if b = a then u else v
    | _ => v
    else v) (Memory.read s.mem a)

/-- The bytes a stream from `q` sends first, each as memory holds it when it is read: the host acts at the beginning of
the step and before each byte (44_wire_commands.md R265, 93_implementation_defined.md I13). -/
def State.streamedBytes (s : State) (q : Addr) (n : Nat) : List Byte :=
  (List.range n).map fun i => s.heldAt (i + 2) (q.toNat + i)

/-- `s'` is `s` as the micro-action at `MPC` meets it in a step: this step's block-reset level is used up and the host
has made its move, which leaves every register as it was (10_state.md R37, 93_implementation_defined.md I13; log 7). -/
structure State.Met (s s' : State) : Prop where
  rest : s' = { s with
    mem := s'.mem
    env := { s.env with host := s'.env.host, resetIn := s.env.resetIn.tail } }
  host : s'.env.host = match s.env.host with
    | [] => []
    | .await :: acts => .await :: acts
    | _ :: acts => acts
  held : ∀ a, Memory.read s'.mem a = s.heldAt 1 a
  noWrite : (∀ a v acts, s.env.host ≠ .writeMem a v :: acts) → s'.mem = s.mem

/-- Memory is as before wherever the host writes nothing (20_memory.md R87). -/
def State.MemoryHeld (s t : State) : Prop :=
  ∀ a, (∀ v, HostAct.writeMem a v ∉ s.env.host) → Memory.read t.mem a = Memory.read s.mem a

/-- The clock's inputs are the same (10_state.md R34). -/
def Env.SameClock (e e' : Env) : Prop :=
  e'.clockIn = e.clockIn ∧ e'.nClock = e.nClock ∧ e'.nStall = e.nStall ∧ e'.clockFloor = e.clockFloor ∧
    e'.clockRead = e.clockRead

/-- A request ended in a fault and did nothing else: `FAULT` holds the code and the sequencer is as `raise Fault`
leaves it (60_exceptions.md R345). -/
def FaultedOnly (s t : State) (c : FaultCode) : Prop :=
  t = { s with
    st := { s.st with fault := c }
    sq := { s.sq with reqActive := false, seq := [], mpc := 0, waiting := false } }

/-- The value a colour is stored as (42_pixel.md R193, R196, R198). -/
def storedColor (p : Params) (d : Density) (c : Byte) : Byte :=
  match d with
  | .d2 => if c = p.colorBlack then 0 else 1
  | .d4 => c &&& 3
  | .d7 => c &&& 7

/-- Bits per pixel (42_pixel.md R190). -/
def Density.bits : Density → Nat
  | .d2 => 1
  | .d4 => 2
  | .d7 => 3

/-- The bytes of a row of the canvas: the width over 8, over 4, or three eighths of it, rounded up (42_pixel.md R190).
Written out here, apart from the machine's own formulas, as are the places of a pixel's bits below. -/
def State.rowLength (s : State) : Nat :=
  match s.cv.dens with
  | .d2 => (s.cv.wm.toNat + 7) / 8
  | .d4 => (s.cv.wm.toNat + 3) / 4
  | .d7 => (s.cv.wm.toNat * 3 + 7) / 8

/-- The slot of a density-7 pixel: entry `(xm + ym * CV_WM) % 8` of `D7_LAYOUT` (42_pixel.md R197). -/
def State.layoutEntry (s : State) (xm ym : Nat) : D7Slot :=
  let d := s.par.d7
  [d.s0, d.s1, d.s2, d.s3, d.s4, d.s5, d.s6, d.s7].getD ((xm + ym * s.cv.wm.toNat) % 8) d.s0

/-- The group bit of value bit `j` of a density-7 pixel: `p0`, `p1`, `p2` of its slot (00_scope.md R9,
42_pixel.md R198). -/
def State.groupBitOf (s : State) (xm ym j : Nat) : Nat :=
  match j with
  | 0 => (s.layoutEntry xm ym).p0.val
  | 1 => (s.layoutEntry xm ym).p1.val
  | _ => (s.layoutEntry xm ym).p2.val

/-- Where value bit `j` of the pixel at a memory point lies: a byte address and a bit of that byte, by the formulas of
42_pixel.md R191, R194, R197, R198 and 20_memory.md R74. -/
def State.pixelBit (s : State) (xm ym j : Nat) : Nat × Nat :=
  match s.cv.dens with
  | .d2 => (s.cv.base.toNat + xm / 8 + ym * s.rowLength, 7 - xm % 8)
  | .d4 => (s.cv.base.toNat + xm / 4 + ym * s.rowLength, 6 - 2 * (xm % 4) + j)
  | .d7 => (s.cv.base.toNat + xm / 8 * 3 + ym * s.rowLength + s.groupBitOf xm ym j / 8, 7 - s.groupBitOf xm ym j % 8)

/-- The byte addresses of the pixel at a memory point (42_pixel.md R191, R194, R198). -/
def State.pixelBytes (s : State) (xm ym : Nat) : List Nat :=
  (List.range s.cv.dens.bits).map fun j => (s.pixelBit xm ym j).1

/-- The canvas region lies in host memory (20_memory.md R73). -/
def State.RegionInMemory (s : State) : Prop := s.cv.base.toNat + s.rowLength * s.cv.hm.toNat ≤ s.par.memSize

/-- An address of the canvas region (20_memory.md R73). -/
def State.inRegion (s : State) (a : Nat) : Prop :=
  s.cv.base.toNat ≤ a ∧ a < s.cv.base.toNat + s.rowLength * s.cv.hm.toNat

/-- The pixel's addresses pass the region check: each lies in the canvas region and in host memory
(42_pixel.md R202). -/
def State.pixelInRegion (s : State) (xm ym : Nat) : Bool :=
  (s.pixelBytes xm ym).all fun a =>
    decide (s.cv.base.toNat ≤ a ∧ a < s.cv.base.toNat + s.rowLength * s.cv.hm.toNat ∧ a < s.par.memSize)

/-- A logical point at which the loop of CLEAR_AREA goes on: it is out of bounds, or its pixel passes the region check
(42_pixel.md R220, R202). -/
def State.pointPasses (s : State) (x y : Nat) : Bool :=
  match s.transformed x y with
  | none => true
  | some q => s.pixelInRegion q.1 q.2

/-- The value bits of the pixel at a memory point that lie in bit `b` of byte `a`. -/
def State.valueBitsAt (s : State) (xm ym a b : Nat) : List Nat :=
  (List.range s.cv.dens.bits).filter fun j => s.pixelBit xm ym j == (a, b)

/-- Bit `b` of byte `a` of memory once pixels of colour `c` are drawn at memory points, in order: where a pixel has that
bit it takes the stored colour's, and otherwise stays (42_pixel.md R192, R195, R198). -/
def State.drawnBit (s : State) (c : Byte) (points : List (Nat × Nat)) (a b : Nat) : Bool :=
  points.foldl (fun v q =>
    let js := s.valueBitsAt q.1 q.2 a b
    if js.isEmpty then v else js.any (storedColor s.par s.cv.dens c).getLsbD) ((Memory.read s.mem a).getLsbD b)

/-- At density 7: the row is a whole number of groups and no two pixels of a group share a bit, so that pixels are
apart and in their row (42_pixel.md R203). -/
def State.PixelsApart (s : State) : Prop :=
  s.cv.dens = .d7 → s.cv.wm.toNat % 8 = 0 ∧ s.par.d7.disjoint = true

/-- The command byte of a wire command (30_encoding.md R111). -/
def commandByte (c : Cmds) : Instr → Option Byte
  | .cmdSwReset => some c.swReset
  | .cmdDriverOutput _ _ _ => some c.driverOutput
  | .cmdDataEntry _ => some c.dataEntry
  | .cmdRamXRange _ _ => some c.ramXRange
  | .cmdRamYRange _ _ _ _ => some c.ramYRange
  | .cmdBorder _ => some c.border
  | .cmdTempSensor _ => some c.tempSensor
  | .cmdRamXCounter _ => some c.ramXCounter
  | .cmdRamYCounter _ _ => some c.ramYCounter
  | .cmdWriteRam _ _ => some c.writeRam
  | .cmdUpdCtrl2 _ => some c.updCtrl2
  | .cmdMasterAct => some c.masterAct
  | .cmdDeepSleep _ => some c.deepSleep
  | _ => none

/-- The `n` bytes of host memory from an address, in increasing order (20_memory.md R76). -/
def imageBytes (m : Memory) (p : Addr) (n : Nat) : List Byte :=
  (List.range n).map fun i => Memory.read m (p.toNat + i)

/-- The data bytes of a wire command, in the order they are sent (44_wire_commands.md R275 to R287). -/
def commandData (m : Memory) : Instr → List Byte
  | .cmdDriverOutput d0 d1 d2 => [d0, d1, d2]
  | .cmdDataEntry d => [d]
  | .cmdRamXRange xs xe => [xs, xe]
  | .cmdRamYRange ysl ysh yel yeh => [ysl, ysh, yel, yeh]
  | .cmdBorder d => [d]
  | .cmdTempSensor d => [d]
  | .cmdRamXCounter d => [d]
  | .cmdRamYCounter lo hi => [lo, hi]
  | .cmdWriteRam p n => imageBytes m p n
  | .cmdUpdCtrl2 d => [d]
  | .cmdDeepSleep d => [d]
  | _ => []

/-- The micro-actions that follow a command byte: its data bytes, or the stream of `CMD_WRITE_RAM`
(30_encoding.md R111). -/
def commandRest : Instr → List Micro
  | .cmdWriteRam p n => [.stream p n]
  | i => (commandData [] i).map .sendData

/-- The rows of spec/opcode_table.json for the fifteen requests: opcode and mask. -/
def requestRows : List (Byte × ReqWord) :=
  [(0x01, 0xFFFF00000000FFFE00000000000000FF), (0x02, 0xFFFF00000000FFFFFFFFFFFFFFFFFFFF),
   (0x03, 0xFFFFFFFFFFFFFFFFFFFFFFFF0000FFFF), (0x04, 0xFFFFFFFFFFFFFFFFFFFFFFFFFFFF00FF),
   (0x05, 0xFFFFFFFFFFFFFFFFFFFFFFFFFFFF00FF), (0x06, 0xFFFFFFFFFFFFFFFFFFFFFFFFFFFF00FF),
   (0x07, 0xFFFFFFFFFFFF000000000000000000FF), (0x08, 0xFFFFFFFFFFFFFFFFFFFF0000000000FF),
   (0x09, 0xFFFFFFFFFFFFFFFFFFFF00000000FFFF), (0x10, 0xFFFFFFFFFFFF0000000000000000FFFF),
   (0x20, 0xFFFFFFFFFFFFFFFFFFFFFFFFFFFFFFFF), (0x21, 0xFFFF00000000FFFFFFFFFFFFFFFFFFFF),
   (0x22, 0xFFFF000000000000000000000000FFFF), (0x23, 0xFFFF00000000FFFFFFFFFFFFFFFFFFFF),
   (0x24, 0xFFFFFFFFFFFFFFFFFFFFFFFFFFFFFFFF)]

/-- A word is legal by the opcode table: it matches a row under the row's mask, and a `CONSTRUCT` without a buffer
has `P = 0` (30_encoding.md R103, R104). -/
def legalWord (w : ReqWord) : Prop :=
  ∃ r ∈ requestRows, w &&& r.2 = r.1.setWidth 128 ∧
    (r.1 = 0x01 → w.getLsbD 64 = false → w.extractLsb' 80 32 = 0)

/-- What each register number reads after block reset (10_state.md R38, R39). -/
def resetRegister (n : Nat) : Option (BitVec 32) :=
  if n = 0x06 then some 2
  else if n = 0x11 then some 1
  else if n < 0x0A ∨ n = 0x10 ∨ n = 0x12 ∨ (0x20 ≤ n ∧ n ≤ 0x29) then some 0
  else none

/-- The block is ready for a request: nothing executes, no fault, not halted (60_exceptions.md R347), and block
reset is not asserted at this step. -/
structure State.Ready (s : State) : Prop where
  idle : s.sq.reqActive = false
  noFault : s.st.fault = .none
  running : s.st.halted = false
  noReset : s.resetAsserted = false

/-- The opcode of a request (30_encoding.md R102). -/
def requestOpcode : Instr → Option Byte
  | .construct _ _ _ _ _ _ => some 0x01
  | .setBuffer _ => some 0x02
  | .setRotation _ => some 0x03
  | .setMirror _ => some 0x04
  | .setDensity _ => some 0x05
  | .clear _ => some 0x06
  | .clearArea _ _ _ _ _ => some 0x07
  | .drawPixel _ _ _ => some 0x08
  | .readPixel _ _ => some 0x09
  | .windowCalc _ _ _ _ => some 0x10
  | .init => some 0x20
  | .refreshFull _ => some 0x21
  | .refreshPartial _ _ _ _ _ => some 0x22
  | .refreshFast _ => some 0x23
  | .deepSleep => some 0x24
  | .cmdSwReset => none
  | .cmdDriverOutput _ _ _ => none
  | .cmdDataEntry _ => none
  | .cmdRamXRange _ _ => none
  | .cmdRamYRange _ _ _ _ => none
  | .cmdBorder _ => none
  | .cmdTempSensor _ => none
  | .cmdRamXCounter _ => none
  | .cmdRamYCounter _ _ => none
  | .cmdWriteRam _ _ => none
  | .cmdUpdCtrl2 _ => none
  | .cmdMasterAct => none
  | .cmdDeepSleep _ => none

/-- `s` with the executing request ended with a result: what `finish` leaves (60_exceptions.md R341). -/
def State.completed (s : State) (r : ResultCode) : State :=
  { s with
    st := { s.st with result := r }
    sq := { s.sq with reqActive := false, seq := [], mpc := 0, waiting := false } }

/-- An error-log entry with the opcode of the executing request (60_exceptions.md R343). -/
def State.entry (s : State) (k : ErrorKind) : ErrorKind × Byte := (k, reqOp s.sq.req)

/-- The logical points of a window, rows and columns in increasing order (42_pixel.md R220). -/
def windowPoints (x y w h : Nat) : List (Nat × Nat) :=
  (List.range' y h).flatMap fun py => (List.range' x w).map fun px => (px, py)

/-- A protocol request that started in `s` ended in `t`: it emitted the events `es`, logged `ls` and left the status
registers `st`; parameters, canvas registers, memory, `REQ` and the host's actions are as before, and no request executes
(45_protocol_ops.md R290, 60_exceptions.md R341). -/
structure RanTo (s t : State) (st : Status) (es : List Event) (ls : List (ErrorKind × Byte)) : Prop where
  params : t.par = s.par
  canvas : t.cv = s.cv
  memory : t.mem = s.mem
  trace : t.wt = s.wt ++ es
  errors : t.el = s.el ++ ls
  status : t.st = st
  ended : t.sq.reqActive = false ∧ t.sq.seq = [] ∧ t.sq.mpc = 0
  request : t.sq.req = s.sq.req
  host : t.env.host = s.env.host

/-- The wire events of a command and its data (30_encoding.md R110). -/
def wireEvents (b : Byte) (ds : List Byte) : List Event := .cmd b :: ds.map .data

/-- The budget of a refresh (45_protocol_ops.md R305, R310, R315). -/
def refreshBudget (p : Params) : Instr → Option Nat
  | .refreshFull _ => some p.toFull
  | .refreshPartial _ _ _ _ _ => some p.toPart
  | .refreshFast _ => some p.toFast
  | _ => none

/-- The events of a refresh up to its master activation (45_protocol_ops.md R305, R310, R315). -/
def refreshEvents (p : Params) (m : Memory) : Instr → List Event
  | .refreshFull image =>
    (if p.fullResetsCounters then
      wireEvents p.cmds.ramXCounter [p.initData.xCounter] ++
        wireEvents p.cmds.ramYCounter [p.initData.yCounter0, p.initData.yCounter1] else []) ++
    wireEvents p.cmds.writeRam (imageBytes m image p.panelBytes) ++
    wireEvents p.cmds.updCtrl2 [p.upd2Full] ++ wireEvents p.cmds.masterAct []
  | .refreshPartial x y w h sub =>
    let win := window p.panelH x.toNat y.toNat w.toNat h.toNat
    [.rst false, .delay p.tRstLowP, .rst true, .delay p.tRstWaitP] ++
    wireEvents p.cmds.border [p.borderLock] ++
    wireEvents p.cmds.ramXRange [byte win.xStartByte, byte win.xEndByte] ++
    wireEvents p.cmds.ramYRange [byte win.yStartLo, byte win.yStartHi, byte win.yEndLo, byte win.yEndHi] ++
    wireEvents p.cmds.ramXCounter [byte win.xStartByte] ++
    wireEvents p.cmds.ramYCounter [byte win.yStartLo, byte win.yStartHi] ++
    wireEvents p.cmds.writeRam (imageBytes m sub (w.toNat / 8 * h.toNat)) ++
    wireEvents p.cmds.updCtrl2 [p.upd2Part] ++ wireEvents p.cmds.masterAct []
  | .refreshFast image =>
    (if p.fastWritesRam then wireEvents p.cmds.writeRam (imageBytes m image p.panelBytes) else []) ++
    wireEvents p.cmds.updCtrl2 [p.upd2Fast] ++ wireEvents p.cmds.masterAct []
  | _ => []

/-- How many steps a refresh takes after its acceptance where its first poll ends its wait: one for each micro-action,
and one more for the wait (70_reset_and_hazards.md R410; log 8). -/
def refreshSteps (p : Params) : Instr → Nat
  | .refreshFull _ => if p.fullResetsCounters then 14 else 9
  | .refreshPartial _ _ _ _ _ => 29
  | .refreshFast _ => if p.fastWritesRam then 9 else 7
  | _ => 0

/-- The reset line after a refresh: REFRESH_PARTIAL's pulse leaves it released, the others leave it
(45_protocol_ops.md R310). -/
def lineAfterRefresh (l : Bool) : Instr → Bool
  | .refreshPartial _ _ _ _ _ => true
  | _ => l

/-- An event that is a byte sent (10_state.md R45). -/
def isSent : Event → Bool
  | .cmd _ => true
  | .data _ => true
  | .rst _ => false
  | .delay _ => false
  | .xferFail _ _ => false
  | .poll _ => false

/-- The requests that need the display state `Idle` (45_protocol_ops.md R291). -/
def needsIdle : Instr → Bool
  | .refreshFull _ => true
  | .refreshPartial _ _ _ _ _ => true
  | .refreshFast _ => true
  | .deepSleep => true
  | _ => false

/-- The image or sub-buffer a request streams: its address and how many bytes (45_protocol_ops.md R292). -/
def streamOf (p : Params) : Instr → Option (Addr × Nat)
  | .refreshFull image => some (image, p.panelBytes)
  | .refreshPartial _ _ w h sub => some (sub, w.toNat / 8 * h.toNat)
  | .refreshFast image => if p.fastWritesRam then some (image, p.panelBytes) else none
  | _ => none

/-- The pixel requests (42_pixel.md). -/
def isPixelRequest : Instr → Bool
  | .clear _ => true
  | .clearArea _ _ _ _ _ => true
  | .drawPixel _ _ _ => true
  | .readPixel _ _ => true
  | _ => false

/-- The requests that do not touch the controller: the canvas requests and `WINDOW_CALC` (40_canvas_config.md R165,
43_windowing.md R239, 45_protocol_ops.md R333). -/
def isCanvasRequest : Instr → Bool
  | .construct _ _ _ _ _ _ => true
  | .setBuffer _ => true
  | .setRotation _ => true
  | .setMirror _ => true
  | .setDensity _ => true
  | .windowCalc _ _ _ _ => true
  | i => isPixelRequest i

/-- The protocol requests (45_protocol_ops.md). -/
def isProtocolRequest : Instr → Bool
  | .init => true
  | i => needsIdle i

/-- The outcome with its next state changed by `f`. -/
def mapNext (f : State → State) : Host.Outcome State Fault Refusal → Host.Outcome State Fault Refusal
  | .next t => .next (f t)
  | .fault r => .fault r
  | .refused r => .refused r

/-- The controller side of the status registers replaced (10_state.md R39). -/
def State.withController (s : State) (d : DState) (line busy : Bool) : State :=
  { s with st := { s.st with dstate := d, rstLine := line, maybeBusy := busy } }

/-- An event that neither sends to the controller nor reads the busy line (10_state.md R45). -/
def isQuiet : Event → Bool
  | .rst _ => true
  | .delay _ => true
  | .cmd _ => false
  | .data _ => false
  | .xferFail _ _ => false
  | .poll _ => false

end Sys2Proof.Machine
end

