-- ==== Sys2Proof/Certificates/Slice0/Obligations.lean ====
section
/-! DEFINITION. The statements for the provers. -/

open Sys2Proof Sys2Proof.Machine

/-! ### Encoding -/

/-- 30_encoding.md R100 to R102, R110, R111, R122: the code of every well-formed instruction decodes to it, whatever
follows the micro-actions of a wire command; the command bytes differ from one another. -/
def Obligations.EncodedInstructionsDecode : Prop :=
  ∀ (p : Params) (i : Instr), p.cmds.distinct = true → i.wf = true →
    decode p (encode p i) = some i ∧
    (encodeRequest i = none → ∀ rest, decodeWire p (encodeWire p i ++ rest) = some i)

/-- 30_encoding.md R102 to R104: a word that decodes is the one word of its instruction, so no bit of it is dropped. -/
def Obligations.DecodedWordsAreTheirEncodings : Prop :=
  ∀ (w : ReqWord) (i : Instr), decodeRequest w = .ok i → encodeRequest i = some w ∧ i.wf = true

/-- 30_encoding.md R105: every word is legal by the opcode table and decodes to the request whose opcode it carries, or
is illegal and is rejected. -/
def Obligations.EveryWordIsLegalOrRejected : Prop :=
  ∀ w : ReqWord,
    (legalWord w ∧ ∃ i, decodeRequest w = .ok i ∧ requestOpcode i = some (reqOp w)) ∨
    (¬ legalWord w ∧ ∃ e, decodeRequest w = .error e)

/-- 30_encoding.md R102, R111: words and micro-actions written out from the encodings of the spec decode to their
instructions (the request words are those of 95_test_vectors.md L2.1). -/
def Obligations.SampleWordsDecode : Prop :=
  decodeTableWord 128 0x0000000010000001000000020010FF01 = some (.construct 0xFF 16 2 0 true 0x1000) ∧
  decodeTableWord 128 0x000000000000000000000000005A0003 = some (.setRotation 90) ∧
  decodeTableWord 128 0x00000000000000010008000000040007 = some (.clearArea 0x00 4 0 8 1) ∧
  decodeTableWord 128 0x00000000000000C800C8000000000010 = some (.windowCalc 0 0 200 200) ∧
  decodeTableWord 128 0x00000000300000020010003200080022 = some (.refreshPartial 8 50 16 2 0x3000) ∧
  decodeTableWord 128 0x00000000000000000000000000000024 = some .deepSleep ∧
  decodeTableWord 128 0x00000000000000000001000100010008 = none ∧
  decodeTableWord 8 0x20 = some .cmdMasterAct ∧
  decodeWire Params.default [.sendCmd 0x45, .sendData 0xC7, .sendData 0x00, .sendData 0x8F, .sendData 0x01] =
    some (.cmdRamYRange 0xC7 0x00 0x8F 0x01)

/-- 30_encoding.md R120 to R122: the words a line assembles to decode to the requests the line stands for. Lines are
taken as mnemonic and numbers (log 21). -/
def Obligations.AssembledWordsDecode : Prop :=
  ∀ (p : Params) (l : AsmLine) (is : List Instr), l.requests p = some is →
    ∃ ws, l.assemble p = some ws ∧ ws.map (fun w => (decodeRequest w).toOption) = is.map some

/-! ### Fetch and acceptance -/

/-- 60_exceptions.md R347: a step that takes the word the host issues runs the decoded request, with the word latched in
`REQ` and `REQ_ACTIVE = 1`; the word is gone from the host's actions and this step's block-reset level is used up. -/
def Obligations.StepRunsTheIssuedRequest : Prop :=
  ∀ (s : State) (w : ReqWord) (rest : List HostAct) (i : Instr),
    s.Ready → s.env.host = .issue w :: rest → decodeRequest w = .ok i →
    step s = exec i { s with
      sq := { s.sq with req := w, reqActive := true }
      env := { s.env with host := rest, resetIn := s.env.resetIn.tail } }

/-- 10_state.md R37: while a protocol request runs, a step performs the micro-action at `MPC`, after the host's move;
where the micro-actions from `MPC` on are those of a wire command, that step is `exec` of the wire command. That a wire
command is an instruction is the model's choice (log 9), and so is the moment of the host's move (log 7). -/
def Obligations.StepRunsTheWireCommand : Prop :=
  ∀ (s : State) (m : Micro) (rest : List Micro),
    s.sq.reqActive = true → s.resetAsserted = false → s.pending = m :: rest →
    ∃ s', s.Met s' ∧ step s = .next (s'.runMicro m) ∧
      ∀ i, decodeWire s.par (m :: rest) = some i → step s = exec i s'

/-- 30_encoding.md R104, 60_exceptions.md R345: an illegal word changes no register but `FAULT`; `REQ` holds the word
and the request is over. -/
def Obligations.IllegalWordFaults : Prop :=
  ∀ (s : State) (w : ReqWord) (rest : List HostAct),
    s.Ready → s.env.host = .issue w :: rest → ¬ legalWord w →
    step s = .next { s with
      st := { s.st with fault := .illegalRequest }
      sq := { s.sq with req := w, reqActive := false, seq := [], mpc := 0, waiting := false }
      env := { s.env with host := rest, resetIn := s.env.resetIn.tail } }

/-- 60_exceptions.md R347, 93_implementation_defined.md I13: a word issued while `FAULT` is set, while `HALTED = 1` or
while a request executes is discarded. While a request executes, the step is the one it would be if the host did
nothing (log 7). -/
def Obligations.WordIsDiscardedWhenStuck : Prop :=
  ∀ (s : State) (w : ReqWord) (rest : List HostAct), s.resetAsserted = false → s.env.host = .issue w :: rest →
    (s.sq.reqActive = false → (s.st.fault ≠ .none ∨ s.st.halted = true) →
      step s = .next { s with env := { s.env with host := rest, resetIn := s.env.resetIn.tail } }) ∧
    (s.sq.reqActive = true → step s = step { s with env := { s.env with host := .pass :: rest } } ∧
      ∀ t, step s = .next t → (∀ q n ms, s.pending ≠ .stream q n :: ms) → t.env.host = rest)

/-- 20_memory.md R87, 70_reset_and_hazards.md R380: between requests the host writes a byte of its memory, and with no
action of the host the block waits. That a write outside memory does nothing is the model's choice (log 12). That
waiting changes nothing else is log 23; that the host may let a step pass, and waits for the block to be ready, is
log 6. -/
def Obligations.IdleStepsFollowTheHost : Prop :=
  ∀ s : State, s.sq.reqActive = false → s.resetAsserted = false →
    (s.env.host = [] → step s = .next { s with env := { s.env with resetIn := s.env.resetIn.tail } }) ∧
    (∀ rest : List HostAct, (s.env.host = .pass :: rest ∨ s.env.host = .await :: rest) →
      step s = .next { s with env := { s.env with host := rest, resetIn := s.env.resetIn.tail } }) ∧
    ∀ (a : Nat) (v : Byte) (rest : List HostAct), s.env.host = .writeMem a v :: rest →
      ∃ m, step s = .next { s with
          mem := m
          env := { s.env with host := rest, resetIn := s.env.resetIn.tail } } ∧
        (∀ c, c ≠ a → Memory.read m c = Memory.read s.mem c) ∧
        (a < s.par.memSize → Memory.read m a = v) ∧
        (¬ a < s.par.memSize → m = s.mem)

/-! ### Faults, halts and block reset -/

/-- 60_exceptions.md R352: with no block reset, a faulted or halted block keeps every register, its sequencer, its trace
and its log for any number of steps, and memory changes only where the host writes it. -/
def Obligations.StuckUntilBlockReset : Prop :=
  ∀ (n : Nat) (s : State),
    s.NoReset → s.sq.reqActive = false → (s.st.fault ≠ .none ∨ s.st.halted = true) →
    ∃ t, runSteps n s = .next t ∧ t.cv = s.cv ∧ t.st = s.st ∧ t.sq = s.sq ∧ t.wt = s.wt ∧ t.el = s.el ∧
      t.par = s.par ∧
      ∀ a, (∀ v, HostAct.writeMem a v ∉ s.env.host) → Memory.read t.mem a = Memory.read s.mem a

/-- 70_reset_and_hazards.md R380: block reset, asserted at any step, gives every register its reset value, empties the
sequencer, the trace and the log, and touches neither host memory nor, in this model, the parameters. The parameters are
log 24's; that a reset may be asserted inside a request is log 11; that no other number reads is log 22. -/
def Obligations.BlockResetRestores : Prop :=
  ∀ s : State, s.resetAsserted = true →
    ∃ t, step s = .next t ∧ (∀ n, t.register n = resetRegister n) ∧
      t.sq.reqActive = false ∧ t.sq.seq = [] ∧ t.sq.mpc = 0 ∧ t.wt = [] ∧ t.el = [] ∧
      t.mem = s.mem ∧ t.par = s.par

/-- 10_state.md R46: the state right after reset has every register at its reset value, no request executing, no trace
and no log. That no other number reads is the model's (log 22). -/
def Obligations.ResetState : Prop :=
  (∀ n, State.reset.register n = resetRegister n) ∧
  State.reset.sq.reqActive = false ∧ State.reset.sq.seq = [] ∧ State.reset.sq.mpc = 0 ∧
  State.reset.wt = [] ∧ State.reset.el = []

/-- 10_state.md R38, R39, R40, 60_exceptions.md R340, R344: the host reads every register by its number when no request
executes, and none while one does. That a read is 32 bits wide and that no other read gives anything is log 22; that
registers of a few legal values are types of their own is log 17. -/
def Obligations.HostReadsRegisters : Prop :=
  ∀ s : State,
    (s.sq.reqActive = true → ∀ n, s.hostRead n = none) ∧
    (s.sq.reqActive = false →
      (∀ n, s.hostRead n = s.register n ∧
        (s.hostRead n ≠ none ↔ n ≤ 0x09 ∨ (0x10 ≤ n ∧ n ≤ 0x12) ∨ (0x20 ≤ n ∧ n ≤ 0x29))) ∧
      s.hostRead 0x00 = some s.cv.base ∧
      s.hostRead 0x01 = some (if s.cv.valid then 1 else 0) ∧
      s.hostRead 0x02 = some (s.cv.wm.setWidth 32) ∧
      s.hostRead 0x03 = some (s.cv.hm.setWidth 32) ∧
      s.hostRead 0x04 = some (s.cv.wl.setWidth 32) ∧
      s.hostRead 0x05 = some (s.cv.hl.setWidth 32) ∧
      s.hostRead 0x06 = some (match s.cv.dens with | .d2 => 2 | .d4 => 4 | .d7 => 7) ∧
      s.hostRead 0x07 = some (match s.cv.rot with | .r0 => 0 | .r90 => 90 | .r180 => 180 | .r270 => 270) ∧
      s.hostRead 0x08 = some (match s.cv.mir with | .none => 0 | .horizontal => 1 | .vertical => 2 | .both => 3) ∧
      s.hostRead 0x09 = some (s.cv.color.setWidth 32) ∧
      s.hostRead 0x10 = some (match s.st.dstate with
        | .poweredOff => 0
        | .resetting => 1
        | .initializing => 2
        | .idle => 3
        | .busy => 4
        | .partialLocked => 5
        | .sleeping => 6) ∧
      s.hostRead 0x11 = some (if s.st.rstLine then 1 else 0) ∧
      s.hostRead 0x12 = some (if s.st.maybeBusy then 1 else 0) ∧
      s.hostRead 0x20 = some (match s.st.result with
        | .ok => 0
        | .boundsError => 1
        | .invalidParameter => 2
        | .timeout => 3
        | .transportFailure => 4) ∧
      s.hostRead 0x21 = some (s.st.rval.setWidth 32) ∧
      s.hostRead 0x22 = some (s.st.win0.setWidth 32) ∧
      s.hostRead 0x23 = some (s.st.win1.setWidth 32) ∧
      s.hostRead 0x24 = some (s.st.win2.setWidth 32) ∧
      s.hostRead 0x25 = some (s.st.win3.setWidth 32) ∧
      s.hostRead 0x26 = some (s.st.win4.setWidth 32) ∧
      s.hostRead 0x27 = some (s.st.win5.setWidth 32) ∧
      s.hostRead 0x28 = some (match s.st.fault with
        | .none => 0
        | .illegalRequest => 1
        | .noBuffer => 2
        | .bufferOverrun => 3
        | .notInitialised => 4
        | .sleepAccess => 5) ∧
      s.hostRead 0x29 = some (if s.st.halted then 1 else 0))

/-- 10_state.md R39, R45, 60_exceptions.md R343: without block reset, a step only appends to the trace and to the log,
never clears `FAULT` or `HALTED`, and never changes a parameter. -/
def Obligations.StepsOnlyAppendAndStick : Prop :=
  ∀ s t : State, step s = .next t → s.resetAsserted = false →
    (∃ es, t.wt = s.wt ++ es) ∧ (∃ ls, t.el = s.el ++ ls) ∧
    (s.st.fault ≠ .none → t.st.fault ≠ .none) ∧ (s.st.halted = true → t.st.halted = true) ∧
    t.par = s.par

/-! ### Canvas configuration -/

/-- 40_canvas_config.md R140: CONSTRUCT. -/
def Obligations.Construct : Prop :=
  ∀ (s : State) (color : Byte) (width height rot : Coord) (hasBuffer : Bool) (base : Addr),
    let cv (r : Rotation) : Canvas :=
      { base := if hasBuffer then base else 0
        valid := hasBuffer
        wm := width
        hm := height
        wl := if r = .r0 ∨ r = .r180 then width else height
        hl := if r = .r0 ∨ r = .r180 then height else width
        dens := .d2
        rot := r
        mir := .none
        color := color }
    (∀ r : Rotation, r.code = rot →
      exec (.construct color width height rot hasBuffer base) s =
        .next ({ s with cv := cv r }.completed .ok)) ∧
    ((∀ r : Rotation, r.code ≠ rot) →
      exec (.construct color width height rot hasBuffer base) s =
        .next ({ s with cv := cv s.cv.rot, el := s.el ++ [s.entry .invalidParameter] }.completed
          .invalidParameter))

/-- 40_canvas_config.md R145: SET_BUFFER. -/
def Obligations.SetBuffer : Prop :=
  ∀ (s : State) (base : Addr),
    exec (.setBuffer base) s = .next ({ s with cv := { s.cv with base := base, valid := true } }.completed .ok)

/-- 40_canvas_config.md R150: SET_ROTATION. -/
def Obligations.SetRotation : Prop :=
  ∀ (s : State) (rot : Coord),
    (∀ r : Rotation, r.code = rot → s.par.setrotSwapsDims = true → (r = .r0 ∨ r = .r180) →
      exec (.setRotation rot) s =
        .next ({ s with cv := { s.cv with rot := r, wl := s.cv.wm, hl := s.cv.hm } }.completed .ok)) ∧
    (∀ r : Rotation, r.code = rot → s.par.setrotSwapsDims = true → (r = .r90 ∨ r = .r270) →
      exec (.setRotation rot) s =
        .next ({ s with cv := { s.cv with rot := r, wl := s.cv.hm, hl := s.cv.wm } }.completed .ok)) ∧
    (∀ r : Rotation, r.code = rot → s.par.setrotSwapsDims = false →
      exec (.setRotation rot) s = .next ({ s with cv := { s.cv with rot := r } }.completed .ok)) ∧
    ((∀ r : Rotation, r.code ≠ rot) →
      exec (.setRotation rot) s =
        .next ({ s with el := s.el ++ [s.entry .invalidParameter] }.completed .invalidParameter))

/-- 40_canvas_config.md R155: SET_MIRROR. -/
def Obligations.SetMirror : Prop :=
  ∀ (s : State) (mode : Byte),
    (∀ m : Mirror, m.code.setWidth 8 = mode →
      exec (.setMirror mode) s = .next ({ s with cv := { s.cv with mir := m } }.completed .ok)) ∧
    ((∀ m : Mirror, m.code.setWidth 8 ≠ mode) →
      exec (.setMirror mode) s =
        .next ({ s with el := s.el ++ [s.entry .invalidParameter] }.completed .invalidParameter))

/-- 40_canvas_config.md R160: SET_DENSITY. -/
def Obligations.SetDensity : Prop :=
  ∀ (s : State) (scale : Byte),
    (∀ d : Density, d.code = scale →
      exec (.setDensity scale) s = .next ({ s with cv := { s.cv with dens := d } }.completed .ok)) ∧
    ((∀ d : Density, d.code ≠ scale) →
      exec (.setDensity scale) s =
        .next ({ s with el := s.el ++ [s.entry .invalidParameter] }.completed .invalidParameter))

/-- 40_canvas_config.md R165, 43_windowing.md R239, 45_protocol_ops.md R333: a canvas request or WINDOW_CALC neither
reads nor writes the display state, the reset line or `MAYBE_BUSY`, and emits nothing. -/
def Obligations.CanvasRequestsIgnoreTheController : Prop :=
  ∀ (i : Instr) (s : State) (d : DState) (line busy : Bool), isCanvasRequest i = true →
    exec i (s.withController d line busy) = mapNext (fun t => t.withController d line busy) (exec i s) ∧
    ∃ t, exec i s = .next t ∧ t.wt = s.wt ∧ t.env = s.env

/-! ### The coordinate transform -/

/-- 41_transform.md R170, R171, R172, R174, R175: a logical point goes to the memory point that the rotation and mirror
tables give, if it passes the two bounds checks, and is `Oob` otherwise. -/
def Obligations.TransformFollowsItsSteps : Prop :=
  ∀ (e : Edge) (cv : Canvas) (x y xm ym : Nat),
    transform e cv x y = some (xm, ym) ↔
      x < cv.wl.toNat ∧ y < cv.hl.toNat ∧ xm < cv.wm.toNat ∧ ym < cv.hm.toNat ∧
      ∃ k xr yr : Int, (e = .raw → k = 0) ∧ (e = .index → k = 1) ∧
        (cv.rot = .r0 → xr = x ∧ yr = y) ∧
        (cv.rot = .r90 → xr = cv.hl.toNat - k - y ∧ yr = x) ∧
        (cv.rot = .r180 → xr = cv.wl.toNat - k - x ∧ yr = cv.hl.toNat - k - y) ∧
        (cv.rot = .r270 → xr = y ∧ yr = cv.wl.toNat - k - x) ∧
        (cv.mir = .none → (xm : Int) = xr ∧ (ym : Int) = yr) ∧
        (cv.mir = .horizontal → (xm : Int) = cv.wm.toNat - k - xr ∧ (ym : Int) = yr) ∧
        (cv.mir = .vertical → (xm : Int) = xr ∧ (ym : Int) = cv.hm.toNat - k - yr) ∧
        (cv.mir = .both → (xm : Int) = cv.wm.toNat - k - xr ∧ (ym : Int) = cv.hm.toNat - k - yr)

/-- 41_transform.md R176: what the printed formulas (`RAW`) do when the logical dimensions follow the rotation. -/
def Obligations.RawTransformConsequences : Prop :=
  ∀ (cv : Canvas) (x y : Nat),
    1 ≤ cv.wm.toNat → 1 ≤ cv.hm.toNat →
    (cv.wl, cv.hl) = (if cv.rot.swapsDims then (cv.hm, cv.wm) else (cv.wm, cv.hm)) →
    x < cv.wl.toNat → y < cv.hl.toNat →
    let point := transform .raw cv x y
    (cv.mir = .none → cv.rot = .r0 → point = some (x, y)) ∧
    (cv.mir = .none → cv.rot = .r90 →
      point = if y = 0 then none else some (cv.wm.toNat - y, x)) ∧
    (cv.mir = .none → cv.rot = .r180 →
      point = if x = 0 ∨ y = 0 then none else some (cv.wm.toNat - x, cv.hm.toNat - y)) ∧
    (cv.mir = .none → cv.rot = .r270 →
      point = if x = 0 then none else some (y, cv.hm.toNat - x)) ∧
    (cv.mir = .none → ∀ q, point = some q →
      (cv.rot = .r90 → q.1 ≠ 0) ∧ (cv.rot = .r180 → q.1 ≠ 0 ∧ q.2 ≠ 0) ∧ (cv.rot = .r270 → q.2 ≠ 0)) ∧
    (cv.mir = .horizontal → cv.rot = .r0 → x = 0 → point = none) ∧
    (cv.mir = .vertical → cv.rot = .r0 → y = 0 → point = none) ∧
    (cv.mir = .both → cv.rot = .r180 → point = some (x, y))

/-- 41_transform.md R177: under `INDEX`, when the logical dimensions follow the rotation, the transform is a bijection
from the logical rectangle onto the memory rectangle, for every rotation with every mirror mode. -/
def Obligations.IndexTransformIsABijection : Prop :=
  ∀ cv : Canvas,
    (cv.wl, cv.hl) = (if cv.rot.swapsDims then (cv.hm, cv.wm) else (cv.wm, cv.hm)) →
    (∀ x y, x < cv.wl.toNat → y < cv.hl.toNat →
      ∃ xm ym, transform .index cv x y = some (xm, ym) ∧ xm < cv.wm.toNat ∧ ym < cv.hm.toNat) ∧
    (∀ x y x' y' q, transform .index cv x y = some q → transform .index cv x' y' = some q → x = x' ∧ y = y') ∧
    (∀ xm ym, xm < cv.wm.toNat → ym < cv.hm.toNat →
      ∃ x y, x < cv.wl.toNat ∧ y < cv.hl.toNat ∧ transform .index cv x y = some (xm, ym))

/-! ### Pixels -/

/-- 42_pixel.md R205, with R190 to R198 and R202: DRAW_PIXEL in each of its four cases. Where it writes, the bits of
the pixel, at the places the formulas of R191, R194 and R197 give (`pixelBit`), take the bits of the stored colour and
every other bit of memory is as before. -/
def Obligations.DrawPixel : Prop :=
  ∀ (s : State) (c : Byte) (x y : Coord),
    (s.cv.valid = false → ∃ t, exec (.drawPixel c x y) s = .next t ∧ FaultedOnly s t .noBuffer) ∧
    (s.cv.valid = true → s.transformed x.toNat y.toNat = none →
      exec (.drawPixel c x y) s =
        .next ({ s with el := s.el ++ [s.entry .boundsError] }.completed .boundsError)) ∧
    (s.cv.valid = true → ∀ xm ym, s.transformed x.toNat y.toNat = some (xm, ym) →
      (s.pixelInRegion xm ym = false →
        ∃ t, exec (.drawPixel c x y) s = .next t ∧ FaultedOnly s t .bufferOverrun) ∧
      (s.pixelInRegion xm ym = true →
        ∃ m, exec (.drawPixel c x y) s = .next ({ s with mem := m }.completed .ok) ∧
          (∀ a b, b < 8 → ((Memory.read m a).getLsbD b = true ↔
            (∃ j, j < s.cv.dens.bits ∧ s.pixelBit xm ym j = (a, b) ∧
              (storedColor s.par s.cv.dens c).getLsbD j = true) ∨
            ((∀ j, j < s.cv.dens.bits → s.pixelBit xm ym j ≠ (a, b)) ∧
              (Memory.read s.mem a).getLsbD b = true))) ∧
          (∀ a, a ∉ s.pixelBytes xm ym → Memory.read m a = Memory.read s.mem a)))

/-- 42_pixel.md R210, with R190 to R202: READ_PIXEL in each of its four cases. `RVAL` takes the bits of the pixel, from
the places the formulas of R191, R194 and R197 give (`pixelBit`), and memory is never written. -/
def Obligations.ReadPixel : Prop :=
  ∀ (s : State) (x y : Coord),
    (s.cv.valid = false → ∃ t, exec (.readPixel x y) s = .next t ∧ FaultedOnly s t .noBuffer) ∧
    (s.cv.valid = true → s.transformed x.toNat y.toNat = none →
      exec (.readPixel x y) s =
        .next ({ s with
          st := { s.st with rval := 0 }
          el := s.el ++ [s.entry .boundsError] }.completed .boundsError)) ∧
    (s.cv.valid = true → ∀ xm ym, s.transformed x.toNat y.toNat = some (xm, ym) →
      (s.pixelInRegion xm ym = false →
        ∃ t, exec (.readPixel x y) s = .next t ∧ FaultedOnly s t .bufferOverrun) ∧
      (s.pixelInRegion xm ym = true →
        ∃ v, exec (.readPixel x y) s = .next ({ s with st := { s.st with rval := v } }.completed .ok) ∧
          v.toNat < 2 ^ s.cv.dens.bits ∧
          ∀ j, j < s.cv.dens.bits →
            v.getLsbD j = (Memory.read s.mem (s.pixelBit xm ym j).1).getLsbD (s.pixelBit xm ym j).2))

/-- 42_pixel.md R201: a pixel that is drawn and then read at the same point reads back its stored colour; at density 7
when the positions of its slot are distinct. -/
def Obligations.DrawThenReadGivesTheColour : Prop :=
  ∀ (s : State) (c : Byte) (x y : Coord) (xm ym : Nat),
    s.cv.valid = true → s.transformed x.toNat y.toNat = some (xm, ym) → s.pixelInRegion xm ym = true →
    (s.cv.dens = .d7 → (s.layoutEntry xm ym).distinct = true) →
    ∃ u t, exec (.drawPixel c x y) s = .next u ∧ exec (.readPixel x y) u = .next t ∧
      t.st.result = .ok ∧ t.mem = u.mem ∧
      t.st.rval = (match s.cv.dens with
        | .d2 => if c = s.par.colorBlack then 0 else 1
        | .d4 => c &&& 3
        | .d7 => c &&& 7)

/-- 42_pixel.md R192, R195, R198, R203: where pixels are apart, drawing one leaves the value of every other pixel of the
canvas as it was. -/
def Obligations.DrawLeavesOtherPixels : Prop :=
  ∀ (s t : State) (c : Byte) (x y : Coord) (xm ym xo yo : Nat),
    s.PixelsApart → s.transformed x.toNat y.toNat = some (xm, ym) →
    xo < s.cv.wm.toNat → yo < s.cv.hm.toNat → (xo, yo) ≠ (xm, ym) →
    exec (.drawPixel c x y) s = .next t → t.pixelValue xo yo = s.pixelValue xo yo

/-- 42_pixel.md R215: CLEAR at densities 2 and 4 fills every byte of the region, padding included, and no other; with no
buffer or with a region past the end of memory it faults and writes nothing. -/
def Obligations.ClearFillsBytes : Prop :=
  ∀ (s : State) (c : Byte),
    (s.cv.valid = false → ∃ t, exec (.clear c) s = .next t ∧ FaultedOnly s t .noBuffer) ∧
    (s.cv.valid = true → s.cv.dens ≠ .d7 → ¬ s.RegionInMemory →
      ∃ t, exec (.clear c) s = .next t ∧ FaultedOnly s t .bufferOverrun) ∧
    (s.cv.valid = true → s.cv.dens ≠ .d7 → s.RegionInMemory →
      ∃ m, exec (.clear c) s = .next ({ s with mem := m }.completed .ok) ∧
        (∀ a, s.inRegion a → s.cv.dens = .d2 →
          Memory.read m a = if c = s.par.colorBlack then 0x00 else 0xFF) ∧
        (∀ a, s.inRegion a → s.cv.dens = .d4 →
          Memory.read m a = BitVec.ofNat 8 (c.toNat % 4 * 0x55)) ∧
        (∀ a, ¬ s.inRegion a → Memory.read m a = Memory.read s.mem a))

/-- 42_pixel.md R215: CLEAR gives every memory pixel the stored colour, at every density, and writes no byte outside the
region; at density 7 for canvases whose pixels are apart. -/
def Obligations.ClearSetsEveryPixel : Prop :=
  ∀ (s : State) (c : Byte),
    s.cv.valid = true → s.RegionInMemory → s.PixelsApart →
    ∃ m, exec (.clear c) s = .next ({ s with mem := m }.completed .ok) ∧
      (∀ xm ym, xm < s.cv.wm.toNat → ym < s.cv.hm.toNat →
        ({ s with mem := m } : State).pixelValue xm ym = storedColor s.par s.cv.dens c) ∧
      (∀ a, ¬ s.inRegion a → Memory.read m a = Memory.read s.mem a)

/-- 42_pixel.md R215, R202, R203: CLEAR at density 7 draws the memory points row by row, each row from its first column,
up to the first that fails the region check; it ends with `OK` if none does, having drawn them all, and otherwise in
`BufferOverrun` with `RESULT` kept and the points before that one drawn. Memory is given bit by bit; no byte outside the
region is written. -/
def Obligations.ClearAtDensitySevenIsChecked : Prop :=
  ∀ (s : State) (c : Byte), s.cv.valid = true → s.cv.dens = .d7 →
    let points := windowPoints 0 0 s.cv.wm.toNat s.cv.hm.toNat
    let done := points.takeWhile fun q => s.pixelInRegion q.1 q.2
    ∃ m, (∀ a b, b < 8 → (Memory.read m a).getLsbD b = s.drawnBit c done a b) ∧
      (∀ a, ¬ s.inRegion a → Memory.read m a = Memory.read s.mem a) ∧
      ((∀ xm ym, xm < s.cv.wm.toNat → ym < s.cv.hm.toNat → s.pixelInRegion xm ym = true) →
        done = points ∧ exec (.clear c) s = .next ({ s with mem := m }.completed .ok)) ∧
      ((∃ xm ym, xm < s.cv.wm.toNat ∧ ym < s.cv.hm.toNat ∧ s.pixelInRegion xm ym = false) →
        ∃ t, exec (.clear c) s = .next t ∧ FaultedOnly { s with mem := m } t .bufferOverrun)

/-- 42_pixel.md R220: CLEAR_AREA draws every in-bounds point of its window, in order, logs one `BoundsError` for each
other point, and ends with `BoundsError` exactly if there is one; it writes no byte but those of the pixels it draws, and
where pixels are apart no other pixel changes. -/
def Obligations.ClearAreaDrawsItsWindow : Prop :=
  ∀ (s : State) (c : Byte) (x y w h : Coord),
    let points := windowPoints x.toNat y.toNat w.toNat h.toNat
    let hits (xm ym : Nat) : Prop := ∃ q ∈ points, s.transformed q.1 q.2 = some (xm, ym)
    let missed := points.countP fun q => (s.transformed q.1 q.2).isNone
    s.cv.valid = true → (∀ xm ym, hits xm ym → s.pixelInRegion xm ym = true) →
    ∃ m, exec (.clearArea c x y w h) s =
        .next ({ s with
          mem := m
          el := s.el ++ List.replicate missed (s.entry .boundsError) }.completed
            (if missed = 0 then .ok else .boundsError)) ∧
      (∀ a b, b < 8 → (Memory.read m a).getLsbD b =
        s.drawnBit c (points.filterMap fun q => s.transformed q.1 q.2) a b) ∧
      (∀ a, (∀ xm ym, hits xm ym → a ∉ s.pixelBytes xm ym) → Memory.read m a = Memory.read s.mem a) ∧
      (s.PixelsApart → ∀ xm ym, xm < s.cv.wm.toNat → ym < s.cv.hm.toNat →
        (hits xm ym → ({ s with mem := m } : State).pixelValue xm ym = storedColor s.par s.cv.dens c) ∧
        (¬ hits xm ym → ({ s with mem := m } : State).pixelValue xm ym = s.pixelValue xm ym))

/-- 42_pixel.md R220, R202, 60_exceptions.md R345, R349: where CLEAR_AREA faults, and what it leaves. The points before
the first one whose pixel fails the region check, rows and columns in increasing order, are drawn where they are in bounds
and logged as `BoundsError` where they are not. Memory is given bit by bit. -/
def Obligations.ClearAreaFaults : Prop :=
  ∀ (s : State) (c : Byte) (x y w h : Coord),
    (s.cv.valid = false → ∃ t, exec (.clearArea c x y w h) s = .next t ∧ FaultedOnly s t .noBuffer) ∧
    (s.cv.valid = true →
      (∃ q ∈ windowPoints x.toNat y.toNat w.toNat h.toNat, ∃ xm ym,
        s.transformed q.1 q.2 = some (xm, ym) ∧ s.pixelInRegion xm ym = false) →
      let done := (windowPoints x.toNat y.toNat w.toNat h.toNat).takeWhile fun q => s.pointPasses q.1 q.2
      let missed := done.countP fun q => (s.transformed q.1 q.2).isNone
      ∃ m t, exec (.clearArea c x y w h) s = .next t ∧
        FaultedOnly { s with mem := m, el := s.el ++ List.replicate missed (s.entry .boundsError) } t .bufferOverrun ∧
        (∀ a b, b < 8 → (Memory.read m a).getLsbD b =
          s.drawnBit c (done.filterMap fun q => s.transformed q.1 q.2) a b) ∧
        ∀ a, ¬ s.inRegion a → Memory.read m a = Memory.read s.mem a)

/-- 20_memory.md R72, 42_pixel.md R202, 10_state.md R38, R39: a pixel request always ends, keeps the canvas registers and
every status register but `RESULT`, `RVAL` and `FAULT`, and writes no byte outside the canvas region or outside memory;
READ_PIXEL writes none at all, and only READ_PIXEL writes `RVAL`. -/
def Obligations.PixelRequestsFrame : Prop :=
  ∀ (i : Instr) (s : State), isPixelRequest i = true →
    ∃ t, exec i s = .next t ∧ t.par = s.par ∧ t.cv = s.cv ∧ t.wt = s.wt ∧ t.env = s.env ∧
      t.sq = { s.sq with reqActive := false, seq := [], mpc := 0, waiting := false } ∧
      t.st = { s.st with result := t.st.result, rval := t.st.rval, fault := t.st.fault } ∧
      (∀ a, ¬ (s.inRegion a ∧ a < s.par.memSize) → Memory.read t.mem a = Memory.read s.mem a) ∧
      ((∃ x y, i = .readPixel x y) → t.mem = s.mem) ∧
      ((∀ x y, i ≠ .readPixel x y) → t.st.rval = s.st.rval)

/-! ### Windowing -/

/-- 43_windowing.md R236, with R231 to R235: WINDOW_CALC leaves the low bytes of the six integers of `window`. -/
def Obligations.WindowCalc : Prop :=
  ∀ (s : State) (x y w h : Coord) (xs xe count ysl ysh raw yel yeh : Int),
    xs = ((x.toNat / 8 : Nat) : Int) → xe = xs + ((w.toNat / 8 : Nat) : Int) - 1 →
    count = (s.par.panelH : Int) - y.toNat →
    (256 ≤ count → ysh = count / 256 ∧ ysl = count % 256) → (count < 256 → ysh = 0 ∧ ysl = count) →
    raw = ysl + h.toNat - 1 →
    (256 ≤ raw → yeh = raw / 256 ∧ yel = raw % 256) → (raw < 256 → yeh = 0 ∧ yel = raw) →
    exec (.windowCalc x y w h) s =
      .next ({ s with st := { s.st with
        win0 := BitVec.ofInt 8 xs
        win1 := BitVec.ofInt 8 xe
        win2 := BitVec.ofInt 8 ysl
        win3 := BitVec.ofInt 8 ysh
        win4 := BitVec.ofInt 8 yel
        win5 := BitVec.ofInt 8 yeh } }.completed .ok)

/-! ### Admission of the protocol requests -/

/-- 45_protocol_ops.md R291: INIT runs in every display state; the other four run in `Idle` (given their stream range),
raise `NotInitialised` in `PoweredOff` and `SleepAccess` in `Sleeping`. -/
def Obligations.AdmissionByDisplayState : Prop :=
  (∀ s : State, ∃ t, exec .init s = .next t ∧ t.st = s.st ∧ t.wt = s.wt ∧ t.sq.reqActive = true ∧ t.sq.mpc = 0 ∧
    t.pending ≠ []) ∧
  ∀ (i : Instr) (s : State), needsIdle i = true →
    (s.st.dstate = .poweredOff → ∃ t, exec i s = .next t ∧ FaultedOnly s t .notInitialised) ∧
    (s.st.dstate = .sleeping → ∃ t, exec i s = .next t ∧ FaultedOnly s t .sleepAccess) ∧
    (s.st.dstate = .idle → (∀ q n, streamOf s.par i = some (q, n) → n = 0 ∨ q.toNat + n ≤ s.par.memSize) →
      ∃ t, exec i s = .next t ∧ t.st = s.st ∧ t.wt = s.wt ∧ t.sq.reqActive = true ∧ t.sq.mpc = 0 ∧ t.pending ≠ [])

/-- 45_protocol_ops.md R292: a request whose stream of `n > 0` bytes would pass the end of memory raises `BufferOverrun`
at admission, with no wire event. -/
def Obligations.StreamRangeIsChecked : Prop :=
  ∀ (i : Instr) (s : State) (q : Addr) (n : Nat),
    s.st.dstate = .idle → streamOf s.par i = some (q, n) → 0 < n → s.par.memSize < q.toNat + n →
    ∃ t, exec i s = .next t ∧ FaultedOnly s t .bufferOverrun

/-- The model's choice (log 10): in the four display states for which 45_protocol_ops.md R291 has no column, the requests
that need `Idle` stop the model. -/
def Obligations.StopsOutsideTheAdmissionTable : Prop :=
  ∀ (i : Instr) (s : State), needsIdle i = true →
    (s.st.dstate = .resetting ∨ s.st.dstate = .initializing ∨ s.st.dstate = .busy ∨
      s.st.dstate = .partialLocked) →
    exec i s = .fault .displayStateOutsideTable

/-! ### Protocol requests run to their end -/

/-- 45_protocol_ops.md R300: INIT, from any display state, with sends that succeed and a busy line that reads busy `k1`,
`k2` and `k3` times in its three waits. The number of steps is the model's (log 8). -/
def Obligations.InitRuns : Prop :=
  ∀ (s : State) (k1 k2 k3 : Nat) (xs bs : List Bool),
    s.NoReset → s.HostWaits → s.env.xferIn = List.replicate 24 true ++ xs →
    s.env.busyIn = List.replicate k1 true ++ false :: (List.replicate k2 true ++ false ::
      (List.replicate k3 true ++ false :: bs)) →
    ∃ u t, exec .init s = .next u ∧ runSteps (37 + k1 + k2 + k3) u = .next t ∧
      t.env.xferIn = xs ∧ t.env.busyIn = bs ∧
      RanTo s t { s.st with dstate := .idle, rstLine := true, maybeBusy := false, result := .ok }
        ([.rst false, .delay s.par.tRstLow, .rst true, .delay s.par.tRstWait] ++
          List.replicate k1 (.poll true) ++ [.poll false] ++
          wireEvents s.par.cmds.swReset [] ++
          List.replicate k2 (.poll true) ++ [.poll false] ++
          wireEvents s.par.cmds.driverOutput [s.par.initData.doc0, s.par.initData.doc1, s.par.initData.doc2] ++
          wireEvents s.par.cmds.dataEntry [s.par.initData.dem] ++
          wireEvents s.par.cmds.ramXRange [s.par.initData.xStart, s.par.initData.xEnd] ++
          wireEvents s.par.cmds.ramYRange
            [s.par.initData.yStart, s.par.initData.yStartHi, s.par.initData.yEnd0, s.par.initData.yEnd1] ++
          wireEvents s.par.cmds.border [s.par.initData.border] ++
          wireEvents s.par.cmds.tempSensor [s.par.initData.temp] ++
          wireEvents s.par.cmds.ramXCounter [s.par.initData.xCounter] ++
          wireEvents s.par.cmds.ramYCounter [s.par.initData.yCounter0, s.par.initData.yCounter1] ++
          List.replicate k3 (.poll true) ++ [.poll false]) []

/-- 45_protocol_ops.md R305: REFRESH_FULL from `Idle`, with sends that succeed and a busy line that reads not busy. The
number of steps is the model's (log 8). -/
def Obligations.RefreshFullRuns : Prop :=
  ∀ (s : State) (image : Addr) (xs bs : List Bool),
    let p := s.par
    let counters := if p.fullResetsCounters then
      wireEvents p.cmds.ramXCounter [p.initData.xCounter] ++
        wireEvents p.cmds.ramYCounter [p.initData.yCounter0, p.initData.yCounter1] else []
    s.NoReset → s.HostWaits → s.st.dstate = .idle → (p.panelBytes = 0 ∨ image.toNat + p.panelBytes ≤ p.memSize) →
    s.env.xferIn = List.replicate (counters.length + p.panelBytes + 4) true ++ xs →
    s.env.busyIn = false :: bs →
    ∃ u t, exec (.refreshFull image) s = .next u ∧ runSteps (counters.length + 9) u = .next t ∧
      t.env.xferIn = xs ∧ t.env.busyIn = bs ∧
      RanTo s t { s.st with dstate := .idle, maybeBusy := false, result := .ok }
        (counters ++ wireEvents p.cmds.writeRam (imageBytes s.mem image p.panelBytes) ++
          wireEvents p.cmds.updCtrl2 [p.upd2Full] ++ wireEvents p.cmds.masterAct [] ++ [.poll false]) []

/-- 45_protocol_ops.md R310: REFRESH_PARTIAL from `Idle`, with sends that succeed and a busy line that reads not busy.
The number of steps is the model's (log 8). -/
def Obligations.RefreshPartialRuns : Prop :=
  ∀ (s : State) (x y w h : Coord) (sub : Addr) (xs bs : List Bool),
    let p := s.par
    let n := w.toNat / 8 * h.toNat
    let win := window p.panelH x.toNat y.toNat w.toNat h.toNat
    s.NoReset → s.HostWaits → s.st.dstate = .idle → (n = 0 ∨ sub.toNat + n ≤ p.memSize) →
    s.env.xferIn = List.replicate (19 + n) true ++ xs → s.env.busyIn = false :: bs →
    ∃ u t, exec (.refreshPartial x y w h sub) s = .next u ∧ runSteps 29 u = .next t ∧
      t.env.xferIn = xs ∧ t.env.busyIn = bs ∧
      RanTo s t { s.st with dstate := .idle, rstLine := true, maybeBusy := false, result := .ok }
        ([.rst false, .delay p.tRstLowP, .rst true, .delay p.tRstWaitP] ++
          wireEvents p.cmds.border [p.borderLock] ++
          wireEvents p.cmds.ramXRange [byte win.xStartByte, byte win.xEndByte] ++
          wireEvents p.cmds.ramYRange
            [byte win.yStartLo, byte win.yStartHi, byte win.yEndLo, byte win.yEndHi] ++
          wireEvents p.cmds.ramXCounter [byte win.xStartByte] ++
          wireEvents p.cmds.ramYCounter [byte win.yStartLo, byte win.yStartHi] ++
          wireEvents p.cmds.writeRam (imageBytes s.mem sub n) ++
          wireEvents p.cmds.updCtrl2 [p.upd2Part] ++ wireEvents p.cmds.masterAct [] ++ [.poll false]) []

/-- 45_protocol_ops.md R315: REFRESH_FAST from `Idle`, with sends that succeed and a busy line that reads not busy. The
number of steps is the model's (log 8). -/
def Obligations.RefreshFastRuns : Prop :=
  ∀ (s : State) (image : Addr) (xs bs : List Bool),
    let p := s.par
    let ram := if p.fastWritesRam then wireEvents p.cmds.writeRam (imageBytes s.mem image p.panelBytes) else []
    s.NoReset → s.HostWaits → s.st.dstate = .idle →
    (p.fastWritesRam = true → p.panelBytes = 0 ∨ image.toNat + p.panelBytes ≤ p.memSize) →
    s.env.xferIn = List.replicate (ram.length + 3) true ++ xs → s.env.busyIn = false :: bs →
    ∃ u t, exec (.refreshFast image) s = .next u ∧
      runSteps (if p.fastWritesRam then 9 else 7) u = .next t ∧
      t.env.xferIn = xs ∧ t.env.busyIn = bs ∧
      RanTo s t { s.st with dstate := .idle, maybeBusy := false, result := .ok }
        (ram ++ wireEvents p.cmds.updCtrl2 [p.upd2Fast] ++ wireEvents p.cmds.masterAct [] ++ [.poll false]) []

/-- 45_protocol_ops.md R320: DEEP_SLEEP from `Idle`, with sends that succeed; it reads no busy line. The number of steps
is the model's (log 8). -/
def Obligations.DeepSleepRuns : Prop :=
  ∀ (s : State) (xs : List Bool),
    s.NoReset → s.HostWaits → s.st.dstate = .idle → s.env.xferIn = true :: true :: xs →
    ∃ u t, exec .deepSleep s = .next u ∧ runSteps 4 u = .next t ∧
      t.env.xferIn = xs ∧ t.env.busyIn = s.env.busyIn ∧ t.env.nBusy = s.env.nBusy ∧
      RanTo s t { s.st with dstate := .sleeping, result := .ok }
        (wireEvents s.par.cmds.deepSleep [s.par.dslpMode] ++ [.delay s.par.tSleep]) []

/-- 44_wire_commands.md R271, 45_protocol_ops.md R293, R305, R310, R315, R331: a refresh, of any of the three kinds, whose
polls all read busy, the clock reaching the budget at the last of them: it goes on as if the update were done, and reports
`Timeout`. Clock draws as increments and the number of steps are the model's (log 2, log 8). -/
def Obligations.RefreshTimesOut : Prop :=
  ∀ (s : State) (i : Instr) (budget k : Nat) (xs bs : List Bool) (d0 : Nat) (ds : List Nat) (d : Nat) (cs : List Nat),
    refreshBudget s.par i = some budget → k = (refreshEvents s.par s.mem i).countP isSent →
    (∀ q n, streamOf s.par i = some (q, n) → n = 0 ∨ q.toNat + n ≤ s.par.memSize) →
    s.NoReset → s.HostWaits → s.st.dstate = .idle →
    s.env.xferIn = List.replicate k true ++ xs →
    s.env.busyIn = List.replicate (ds.length + 1) true ++ bs →
    s.env.clockIn = d0 :: (ds ++ d :: cs) →
    (ds = [] ∨ ds.sum < budget) → budget ≤ ds.sum + d →
    ∃ u t, exec i s = .next u ∧ runSteps (refreshSteps s.par i + ds.length) u = .next t ∧
      t.env.xferIn = xs ∧ t.env.busyIn = bs ∧ t.env.clockIn = cs ∧
      RanTo s t { s.st with
          dstate := .idle
          rstLine := lineAfterRefresh s.st.rstLine i
          maybeBusy := true
          result := .timeout }
        (refreshEvents s.par s.mem i ++ List.replicate (ds.length + 1) (.poll true)) [s.entry .timeout]

/-! ### Micro-actions -/

/-- 44_wire_commands.md R270: the untimed wait stays at its micro-action as long as the busy line reads busy, reads no
clock and changes nothing but the trace; it ends at the first read that is not busy, and a request that has nothing more
to do then ends with the result the model keeps for it (log 20). The number of steps is the model's (log 8). -/
def Obligations.UntimedWait : Prop :=
  ∀ (s : State) (rest : List Micro) (k : Nat) (bs : List Bool),
    s.NoReset → s.HostWaits → s.sq.reqActive = true → s.sq.waiting = false → s.pending = .waitIdle :: rest →
    s.env.busyIn = List.replicate k true ++ bs →
    (∃ t, runSteps (k + 1) s = .next t ∧ t.pending = s.pending ∧ t.sq.reqActive = true ∧
      t.wt = s.wt ++ List.replicate k (.poll true) ∧ t.el = s.el ∧ t.st = s.st ∧ t.cv = s.cv ∧ t.mem = s.mem ∧
      t.env.clockIn = s.env.clockIn ∧ t.env.nClock = s.env.nClock) ∧
    (∀ bs', bs = false :: bs' → ∃ t, runSteps (k + 2) s = .next t ∧
      t.wt = s.wt ++ List.replicate k (.poll true) ++ [.poll false] ∧ t.el = s.el ∧ t.st.maybeBusy = false ∧
      (rest ≠ [] → t.pending = rest ∧ t.sq.reqActive = true ∧ t.st = { s.st with maybeBusy := false }) ∧
      (rest = [] → t.sq.reqActive = false ∧ t.st = { s.st with maybeBusy := false, result := s.sq.wr }))

/-- 44_wire_commands.md R271: the timed wait ends with `OK` at the first read that is not busy, and with `Timeout` at
the first busy read after which the clock has reached the budget; the request goes on either way. With any draws at all it
ends, because no clock stays below a bound for ever (10_state.md R34 (c)). Clock draws as increments and the number of steps
are the model's (log 2, log 8), and so is the field that keeps the wait's result (log 20). -/
def Obligations.TimedWait : Prop :=
  ∀ (s : State) (rest : List Micro) (budget d0 : Nat) (ds : List Nat),
    s.NoReset → s.HostWaits → s.sq.reqActive = true → s.sq.waiting = false →
    s.pending = .waitIdleTimed budget :: rest →
    (∀ (bs : List Bool) (cs : List Nat), s.env.busyIn = List.replicate ds.length true ++ false :: bs →
      s.env.clockIn = d0 :: (ds ++ cs) → (ds = [] ∨ ds.sum < budget) →
      ∃ t, runSteps (ds.length + 2) s = .next t ∧
        t.wt = s.wt ++ List.replicate ds.length (.poll true) ++ [.poll false] ∧ t.el = s.el ∧
        t.sq.waitT0 = s.env.clockFloor + d0 ∧
        (rest ≠ [] → t.pending = rest ∧ t.sq.reqActive = true ∧ t.sq.wr = .ok ∧
          t.st = { s.st with maybeBusy := false }) ∧
        (rest = [] → t.sq.reqActive = false ∧ t.st = { s.st with maybeBusy := false, result := .ok })) ∧
    (∀ (d : Nat) (bs : List Bool) (cs : List Nat), s.env.busyIn = List.replicate (ds.length + 1) true ++ bs →
      s.env.clockIn = d0 :: (ds ++ d :: cs) → (ds = [] ∨ ds.sum < budget) → budget ≤ ds.sum + d →
      ∃ t, runSteps (ds.length + 2) s = .next t ∧
        t.wt = s.wt ++ List.replicate (ds.length + 1) (.poll true) ∧ t.el = s.el ++ [s.entry .timeout] ∧
        t.sq.waitT0 = s.env.clockFloor + d0 ∧
        (rest ≠ [] → t.pending = rest ∧ t.sq.reqActive = true ∧ t.sq.wr = .timeout ∧
          t.st = { s.st with maybeBusy := true }) ∧
        (rest = [] → t.sq.reqActive = false ∧ t.st = { s.st with maybeBusy := true, result := .timeout })) ∧
    (∃ n t, runSteps n s = .next t ∧
      (rest ≠ [] → t.pending = rest ∧ t.sq.reqActive = true ∧ (t.sq.wr = .ok ∨ t.sq.wr = .timeout)) ∧
      (rest = [] → t.sq.reqActive = false ∧ (t.st.result = .ok ∨ t.st.result = .timeout)))

/-- 44_wire_commands.md R262, 60_exceptions.md R346: a send that the transport reports failed is recorded and logged,
halts the block and ends the request; the display state and the reset line keep their values. The moment of the host's
move in the step is the model's (log 7). -/
def Obligations.SendFailureHalts : Prop :=
  ∀ (s : State) (m : Micro) (k : SendKind) (b : Byte) (rest : List Micro) (xs : List Bool),
    (m = .sendCmd b ∧ k = .cmd ∨ m = .sendData b ∧ k = .data) →
    s.sq.reqActive = true → s.resetAsserted = false → s.pending = m :: rest → s.env.xferIn = false :: xs →
    ∃ s', s.Met s' ∧ step s = .next ({ s' with
      st := { s.st with halted := true }
      wt := s.wt ++ [Event.xferFail k b]
      el := s.el ++ [s.entry .transportFailure]
      env := { s'.env with xferIn := xs } }.completed .transportFailure)

/-- 44_wire_commands.md R265, 20_memory.md R76, 93_implementation_defined.md I13: a stream sends the bytes of memory from
its first to its last, each as memory holds it when it is read, so that a byte the host writes during the stream is sent
if it is written before its turn; a host that keeps its duty changes none. A send that fails at byte `j` ends the request
with the bytes before it sent; a stream past the end of memory sends nothing. That a stream is one step and that the host
acts before each byte is the model's reading (log 7, log 8). -/
def Obligations.StreamSendsMemory : Prop :=
  ∀ (s : State) (q : Addr) (n : Nat) (rest : List Micro),
    s.sq.reqActive = true → s.resetAsserted = false → s.pending = .stream q n :: rest →
    ((n = 0 ∨ q.toNat + n ≤ s.par.memSize) → ∀ xs, s.env.xferIn = List.replicate n true ++ xs →
      ∃ t, step s = .next t ∧ t.wt = s.wt ++ (s.streamedBytes q n).map Event.data ∧ t.el = s.el ∧
        (∀ a, Memory.read t.mem a = s.heldAt (n + 1) a) ∧
        t.env.xferIn = xs ∧ (rest ≠ [] → t.pending = rest ∧ t.st = s.st)) ∧
    (q.toNat + n ≤ s.par.memSize → ∀ j xs, j < n → s.env.xferIn = List.replicate j true ++ false :: xs →
      ∃ t, step s = .next t ∧
        t.wt = s.wt ++ (s.streamedBytes q j).map Event.data ++ [Event.xferFail .data (s.heldAt (j + 2) (q.toNat + j))] ∧
        t.el = s.el ++ [s.entry .transportFailure] ∧ t.st.halted = true ∧ t.st.result = .transportFailure ∧
        t.sq.reqActive = false ∧ ∀ a, Memory.read t.mem a = s.heldAt (j + 2) a) ∧
    (0 < n → s.par.memSize < q.toNat + n → ∃ t, step s = .next t ∧ t.wt = s.wt ∧
      (∀ a, Memory.read t.mem a = s.heldAt 1 a) ∧
      t.st = { s.st with fault := .bufferOverrun } ∧ t.sq.reqActive = false) ∧
    (s.HostWaits → s.streamedBytes q n = imageBytes s.mem q n ∧ ∀ k a, s.heldAt k a = Memory.read s.mem a)

/-- 44_wire_commands.md R263, R264, R266: `Rst`, `Delay` and `SetState`, with more of the request to run. The bound a
delay raises is the model's field, as are the counters of the clock's free draws (log 2); the moment of the host's move in
the step is the model's too (log 7). -/
def Obligations.LineDelayAndStateActions : Prop :=
  ∀ (s : State) (m m' : Micro) (rest : List Micro),
    s.sq.reqActive = true → s.resetAsserted = false → s.pending = m :: m' :: rest →
    let sq' := { s.sq with mpc := s.sq.mpc + 1, waiting := false }
    ∃ s', s.Met s' ∧
    (∀ l, m = .rst l → step s = .next { s' with
      st := { s.st with rstLine := l }, wt := s.wt ++ [.rst l], sq := sq' }) ∧
    (∀ ms, m = .delay ms → ∃ f k j, step s = .next { s' with
        wt := s.wt ++ [.delay ms], sq := sq', env := { s'.env with clockFloor := f, nClock := k, nStall := j } } ∧
      (s.env.clockRead = true → f = s.env.clockFloor + ms)) ∧
    (∀ d, m = .setState d → step s = .next { s' with st := { s.st with dstate := d }, sq := sq' })

/-- 44_wire_commands.md R275 to R287, 30_encoding.md R110, R111: executing a wire command that stands at `MPC`, and the
steps that follow it, put its command byte and its data on the wire, in order; nothing else changes but `MPC`. That exec
of a wire command sends its command byte alone, its data being the steps that follow, is the model's choice (log 9), and
so is the number of those steps, a stream being one (log 8). -/
def Obligations.WireCommandsSendTheirBytes : Prop :=
  ∀ (s : State) (i : Instr) (b : Byte) (rest : List Micro) (xs : List Bool),
    commandByte s.par.cmds i = some b → s.NoReset → s.HostWaits → s.sq.reqActive = true →
    s.pending = .sendCmd b :: (commandRest i ++ rest) →
    (∀ q n, i = .cmdWriteRam q n → n = 0 ∨ q.toNat + n ≤ s.par.memSize) →
    s.env.xferIn = List.replicate (1 + (commandData s.mem i).length) true ++ xs →
    ∃ u t, exec i s = .next u ∧ runSteps (commandRest i).length u = .next t ∧
      t.wt = s.wt ++ wireEvents b (commandData s.mem i) ∧ t.el = s.el ∧ t.cv = s.cv ∧ t.mem = s.mem ∧ t.par = s.par ∧
      t.env.xferIn = xs ∧
      (rest ≠ [] → t.pending = rest ∧ t.sq.reqActive = true ∧ t.st = s.st) ∧
      (rest = [] → t.sq.reqActive = false ∧ t.st = { s.st with result := s.sq.wr })

/-- The model's choice (log 9): a wire command executed where its micro-actions do not stand at `MPC` is first put
there; where they stand there already, that changes nothing. -/
def Obligations.WireCommandsArePlaced : Prop :=
  ∀ (s : State) (i : Instr) (b : Byte), commandByte s.par.cmds i = some b → s.sq.mpc ≤ s.sq.seq.length →
    let placed := s.placeWire (.sendCmd b :: commandRest i)
    exec i s = exec i placed ∧ (∃ rest, placed.pending = .sendCmd b :: (commandRest i ++ rest)) ∧
    (s.sq.reqActive = true → (∃ rest, s.pending = .sendCmd b :: (commandRest i ++ rest)) → placed = s)

/-! ### Invariants -/

/-- 20_memory.md R70, R72: every step keeps memory in its canonical form, with no byte outside memory listed. The form
is the model's (log 4). -/
def Obligations.StepKeepsMemoryCanonical : Prop :=
  ∀ s t : State, s.MemInv → step s = .next t → t.MemInv

/-- 40_canvas_config.md R140, R141, R150, 10_state.md R39: every step keeps the logical dimensions in step with the
rotation, the base of an absent buffer at 0, and `RVAL` within 0 to 7. -/
def Obligations.StepKeepsCanvasAndRval : Prop :=
  ∀ s t : State, s.CanvasInv → s.RvalInv → step s = .next t → t.CanvasInv ∧ t.RvalInv

/-- 10_state.md R37, R40, 60_exceptions.md R341, R345, R346, 30_encoding.md R112: every step keeps the sequencer, the
display state, the fault and halt registers and the trace in agreement. -/
def Obligations.StepKeepsProtocolInvariant : Prop :=
  ∀ s t : State, s.ProtocolInv → step s = .next t → t.ProtocolInv

/-- 10_state.md R46, 70_reset_and_hazards.md R380: the state after reset meets the invariants. -/
def Obligations.ResetMeetsTheInvariants : Prop :=
  State.reset.MemInv ∧ State.reset.CanvasInv ∧ State.reset.RvalInv ∧ State.reset.ProtocolInv

/-- 30_encoding.md R105, 45_protocol_ops.md R291, 44_wire_commands.md R265: from a state that meets the protocol
invariant, a step never stops the model, and no step of an executing request raises a fault. -/
def Obligations.StepNeverStops : Prop :=
  ∀ s : State, s.ProtocolInv →
    ∃ t, step s = .next t ∧ (s.sq.reqActive = true → t.st.fault = .none)

/-- 45_protocol_ops.md R325: every change of `DSTATE` a step makes is one of the table's, or block reset. -/
def Obligations.DisplayStateTransitions : Prop :=
  ∀ s t : State, s.ProtocolInv → step s = .next t →
    t.st.dstate = s.st.dstate ∨ legalTransition s.st.dstate t.st.dstate = true ∨
      (s.resetAsserted = true ∧ t.st.dstate = .poweredOff)

/-- 70_reset_and_hazards.md R396: while `DSTATE = Sleeping`, no step sends a byte or reads the busy line. -/
def Obligations.NoTrafficInSleep : Prop :=
  ∀ s t : State, s.ProtocolInv → s.st.dstate = .sleeping → s.resetAsserted = false → step s = .next t →
    ∃ es, t.wt = s.wt ++ es ∧ ∀ e ∈ es, isQuiet e = true

/-- 45_protocol_ops.md R290, R333: a protocol request neither reads nor writes a canvas register; nor do its steps write
memory (which changes only where the host writes it meanwhile), `RVAL` or the window registers. -/
def Obligations.ProtocolRequestsIgnoreTheCanvas : Prop :=
  (∀ (i : Instr) (s : State) (c : Canvas), isProtocolRequest i = true →
    exec i { s with cv := c } = mapNext (fun t => { t with cv := c }) (exec i s)) ∧
  (∀ (s : State) (c : Canvas), s.sq.reqActive = true → s.resetAsserted = false →
    ∃ t, step s = .next t ∧ step { s with cv := c } = .next { t with cv := c } ∧
      t.cv = s.cv ∧ s.MemoryHeld t ∧ (s.HostWaits → t.mem = s.mem) ∧ t.st.rval = s.st.rval ∧
      t.st.win0 = s.st.win0 ∧ t.st.win1 = s.st.win1 ∧ t.st.win2 = s.st.win2 ∧
      t.st.win3 = s.st.win3 ∧ t.st.win4 = s.st.win4 ∧ t.st.win5 = s.st.win5)

/-- 10_state.md R34: the three constraints on clock draws. (a) A draw answers at least the least value the clock may show,
which then is that answer, and no step lowers it. (b) A delay raises it by its milliseconds once a value has been read.
(c) Where the clock is drawn again and again, with delays and anything that leaves the clock alone in between, it exceeds
every bound. The least value is the model's field (log 2). -/
def Obligations.ClockNeverFalls : Prop :=
  (∀ s t : State, step s = .next t → s.env.clockFloor ≤ t.env.clockFloor) ∧
  (∀ e : Env, e.clockFloor ≤ e.drawClock.1 ∧ e.drawClock.2.clockFloor = e.drawClock.1 ∧
    e.drawClock.2.clockRead = true) ∧
  (∀ (e : Env) (ms : Nat), e.clockRead = true →
    (e.delay ms).clockFloor = e.clockFloor + ms ∧ (e.delay ms).clockRead = true) ∧
  (∀ E : Nat → Env,
    (∀ n, E (n + 1) = (E n).drawClock.2 ∨ (∃ ms, E (n + 1) = (E n).delay ms) ∨ (E n).SameClock (E (n + 1))) →
    (∀ n, ∃ m, n ≤ m ∧ E (m + 1) = (E m).drawClock.2) → ∀ bound, ∃ n, bound < (E n).drawClock.1)
end

