-- ==== Sys2Proof/Laws/Decode.lean ====
section
/-! SUPPORT. The fields of an assembled request word, and what the wire decoder answers. -/

namespace Sys2Proof

/-! ### The fields of `reqWord` (30_encoding.md R100, R122) -/

/-- One shifted field of a word, bit by bit. -/
theorem getLsbD_placed {n : Nat} (v : BitVec n) (o i : Nat) (hn : n + o ≤ 128) :
    (v.setWidth 128 <<< o : BitVec 128).getLsbD i = (decide (o ≤ i) && v.getLsbD (i - o)) := by
  rw [BitVec.getLsbD_shiftLeft, BitVec.getLsbD_setWidth]
  by_cases h : i < 128
  · have : i - o < 128 := by omega
    by_cases ho : o ≤ i
    · simp [h, this, ho, Nat.not_lt.2 ho]
    · simp [h, ho, Nat.not_le.1 ho]
  · have : v.getLsbD (i - o) = false := BitVec.getLsbD_of_ge _ _ (by omega)
    simp [h, this]

/-- The bits of an assembled word (30_encoding.md R122). -/
theorem reqWord_bit (op k : Byte) (a b c d : Coord) (p : Addr) (i : Nat) :
    (reqWord op k a b c d p).getLsbD i =
      (op.getLsbD i || (decide (8 ≤ i) && k.getLsbD (i - 8)) || (decide (16 ≤ i) && a.getLsbD (i - 16)) ||
       (decide (32 ≤ i) && b.getLsbD (i - 32)) || (decide (48 ≤ i) && c.getLsbD (i - 48)) ||
       (decide (64 ≤ i) && d.getLsbD (i - 64)) || (decide (80 ≤ i) && p.getLsbD (i - 80))) := by
  unfold reqWord
  have h0 : (op.setWidth 128).getLsbD i = op.getLsbD i := by
    have := getLsbD_placed op 0 i (by omega)
    simpa using this
  simp only [BitVec.getLsbD_or, getLsbD_placed _ _ _ (by omega : 8 + 8 ≤ 128),
    getLsbD_placed _ _ _ (by omega : 16 + 16 ≤ 128),
    getLsbD_placed _ _ _ (by omega : 16 + 32 ≤ 128), getLsbD_placed _ _ _ (by omega : 16 + 48 ≤ 128),
    getLsbD_placed _ _ _ (by omega : 16 + 64 ≤ 128), getLsbD_placed _ _ _ (by omega : 32 + 80 ≤ 128), h0]

/-- The bits of a field of an assembled word. -/
theorem reqField_reqWord_bit (op k : Byte) (a b c d : Coord) (p : Addr) (o w i : Nat) (hi : i < w) :
    ((reqWord op k a b c d p).extractLsb' o w).getLsbD i = (reqWord op k a b c d p).getLsbD (o + i) := by
  simp [hi]

@[simp] theorem reqOp_reqWord (op k : Byte) (a b c d : Coord) (p : Addr) : reqOp (reqWord op k a b c d p) = op := by
  refine BitVec.eq_of_getLsbD_eq fun i hi => ?_
  unfold reqOp
  rw [reqField_reqWord_bit _ _ _ _ _ _ _ _ _ _ hi, reqWord_bit]
  rw [Nat.zero_add]
  simp [show ¬ 8 ≤ i by omega, show ¬ 16 ≤ i by omega, show ¬ 32 ≤ i by omega, show ¬ 48 ≤ i by omega,
    show ¬ 64 ≤ i by omega, show ¬ 80 ≤ i by omega]

@[simp] theorem reqK_reqWord (op k : Byte) (a b c d : Coord) (p : Addr) : reqK (reqWord op k a b c d p) = k := by
  refine BitVec.eq_of_getLsbD_eq fun i hi => ?_
  unfold reqK
  rw [reqField_reqWord_bit _ _ _ _ _ _ _ _ _ _ hi, reqWord_bit]
  simp [show ¬ 16 ≤ 8 + i by omega, show ¬ 32 ≤ 8 + i by omega, show ¬ 48 ≤ 8 + i by omega,
    show ¬ 64 ≤ 8 + i by omega, show ¬ 80 ≤ 8 + i by omega]

@[simp] theorem reqA_reqWord (op k : Byte) (a b c d : Coord) (p : Addr) : reqA (reqWord op k a b c d p) = a := by
  refine BitVec.eq_of_getLsbD_eq fun i hi => ?_
  unfold reqA
  rw [reqField_reqWord_bit _ _ _ _ _ _ _ _ _ _ hi, reqWord_bit]
  simp [BitVec.getLsbD_of_ge op (16 + i) (by omega), BitVec.getLsbD_of_ge k (16 + i - 8) (by omega),
    show ¬ 32 ≤ 16 + i by omega, show ¬ 48 ≤ 16 + i by omega, show ¬ 64 ≤ 16 + i by omega,
    show ¬ 80 ≤ 16 + i by omega]

@[simp] theorem reqB_reqWord (op k : Byte) (a b c d : Coord) (p : Addr) : reqB (reqWord op k a b c d p) = b := by
  refine BitVec.eq_of_getLsbD_eq fun i hi => ?_
  unfold reqB
  rw [reqField_reqWord_bit _ _ _ _ _ _ _ _ _ _ hi, reqWord_bit]
  simp [BitVec.getLsbD_of_ge op (32 + i) (by omega), BitVec.getLsbD_of_ge k (32 + i - 8) (by omega),
    BitVec.getLsbD_of_ge a (32 + i - 16) (by omega), show ¬ 48 ≤ 32 + i by omega, show ¬ 64 ≤ 32 + i by omega,
    show ¬ 80 ≤ 32 + i by omega]

@[simp] theorem reqC_reqWord (op k : Byte) (a b c d : Coord) (p : Addr) : reqC (reqWord op k a b c d p) = c := by
  refine BitVec.eq_of_getLsbD_eq fun i hi => ?_
  unfold reqC
  rw [reqField_reqWord_bit _ _ _ _ _ _ _ _ _ _ hi, reqWord_bit]
  simp [BitVec.getLsbD_of_ge op (48 + i) (by omega), BitVec.getLsbD_of_ge k (48 + i - 8) (by omega),
    BitVec.getLsbD_of_ge a (48 + i - 16) (by omega), BitVec.getLsbD_of_ge b (48 + i - 32) (by omega),
    show ¬ 64 ≤ 48 + i by omega, show ¬ 80 ≤ 48 + i by omega]

@[simp] theorem reqD_reqWord (op k : Byte) (a b c d : Coord) (p : Addr) : reqD (reqWord op k a b c d p) = d := by
  refine BitVec.eq_of_getLsbD_eq fun i hi => ?_
  unfold reqD
  rw [reqField_reqWord_bit _ _ _ _ _ _ _ _ _ _ hi, reqWord_bit]
  simp [BitVec.getLsbD_of_ge op (64 + i) (by omega), BitVec.getLsbD_of_ge k (64 + i - 8) (by omega),
    BitVec.getLsbD_of_ge a (64 + i - 16) (by omega), BitVec.getLsbD_of_ge b (64 + i - 32) (by omega),
    BitVec.getLsbD_of_ge c (64 + i - 48) (by omega), show ¬ 80 ≤ 64 + i by omega]

@[simp] theorem reqP_reqWord (op k : Byte) (a b c d : Coord) (p : Addr) : reqP (reqWord op k a b c d p) = p := by
  refine BitVec.eq_of_getLsbD_eq fun i hi => ?_
  unfold reqP
  rw [reqField_reqWord_bit _ _ _ _ _ _ _ _ _ _ hi, reqWord_bit]
  simp [BitVec.getLsbD_of_ge op (80 + i) (by omega), BitVec.getLsbD_of_ge k (80 + i - 8) (by omega),
    BitVec.getLsbD_of_ge a (80 + i - 16) (by omega), BitVec.getLsbD_of_ge b (80 + i - 32) (by omega),
    BitVec.getLsbD_of_ge c (80 + i - 48) (by omega), BitVec.getLsbD_of_ge d (80 + i - 64) (by omega)]

@[simp] theorem reqZ_reqWord (op k : Byte) (a b c d : Coord) (p : Addr) : reqZ (reqWord op k a b c d p) = 0 := by
  refine BitVec.eq_of_getLsbD_eq fun i hi => ?_
  unfold reqZ
  rw [reqField_reqWord_bit _ _ _ _ _ _ _ _ _ _ hi, reqWord_bit]
  simp [BitVec.getLsbD_of_ge op (112 + i) (by omega), BitVec.getLsbD_of_ge k (112 + i - 8) (by omega),
    BitVec.getLsbD_of_ge a (112 + i - 16) (by omega), BitVec.getLsbD_of_ge b (112 + i - 32) (by omega),
    BitVec.getLsbD_of_ge c (112 + i - 48) (by omega), BitVec.getLsbD_of_ge d (112 + i - 64) (by omega),
    BitVec.getLsbD_of_ge p (112 + i - 80) (by omega)]

/-! ### Wire commands -/

/-- Where a chain of tests answers something, its first test does or the rest of the chain does. -/
theorem some_of_ite {α : Type} {P : Prop} [Decidable P] {x y : α} {rest : Option α}
    (h : (if P then some x else rest) = some y) : (P ∧ x = y) ∨ rest = some y := by
  by_cases hp : P
  · exact .inl ⟨hp, by simpa [hp] using h⟩
  · exact .inr (by simpa [hp] using h)

/-- The byte of a found command is the byte looked for. -/
theorem byteOf_of_find {c : Cmds} {b : Byte} {op : WireOp} (h : c.find b = some op) : c.byteOf op = b := by
  unfold Cmds.find at h
  iterate 13 (rcases some_of_ite h with ⟨hb, rfl⟩ | h; exact hb.symm)
  cases h

/-- With distinct bytes, a command is found by its byte (30_encoding.md R110). -/
theorem find_byteOf {c : Cmds} (hd : c.distinct = true) (op : WireOp) : c.find (c.byteOf op) = some op := by
  have hd := of_decide_eq_true hd
  simp only [Cmds.bytes, List.nodup_cons, List.mem_cons, List.not_mem_nil, or_false, not_or] at hd
  obtain ⟨h1, h2, h3, h4, h5, h6, h7, h8, h9, h10, h11, h12, -⟩ := hd
  cases op <;> simp only [Cmds.byteOf] <;> unfold Cmds.find <;> grind

/-- What the data decoder answers is the command's own micro-actions, at the head of what it was given. -/
theorem decodeData_eq {p : Params} {op : WireOp} {rest : List Micro} {i : Instr} (h : decodeData op rest = some i) :
    ∃ tail, .sendCmd (p.cmds.byteOf op) :: rest = encodeWire p i ++ tail := by
  unfold decodeData at h
  split at h
  all_goals first
    | (obtain rfl := Option.some.inj h; exact ⟨_, rfl⟩)
    | exact absurd h (by simp)

/-- A decoded wire command stands at the head of the micro-actions it was decoded from. -/
theorem encodeWire_of_decodeWire {p : Params} {ms : List Micro} {i : Instr} (h : decodeWire p ms = some i) :
    ∃ tail, ms = encodeWire p i ++ tail := by
  unfold decodeWire at h
  split at h
  · rename_i b rest
    obtain ⟨op, hop, hi⟩ := Option.bind_eq_some_iff.1 h
    have hb := byteOf_of_find hop
    subst hb
    exact decodeData_eq hi
  · exact absurd h (by simp)

/-- The instruction the wire decoder answers is one of the thirteen wire commands. -/
theorem encodeWire_ne_nil_of_decodeWire {p : Params} {ms : List Micro} {i : Instr} (h : decodeWire p ms = some i) :
    encodeWire p i ≠ [] := by
  unfold decodeWire at h
  split at h
  · obtain ⟨op, _, hi⟩ := Option.bind_eq_some_iff.1 h
    unfold decodeData at hi
    split at hi
    all_goals first
      | (obtain rfl := Option.some.inj hi; simp [encodeWire])
      | exact absurd hi (by simp)
  · exact absurd h (by simp)

/-! ### What a word that decodes is (30_encoding.md R102, R104) -/

/-- Each word with the instruction it decodes to, its `Z` field apart: the opcode and the fields that must be zero. -/
inductive DecodedWord (w : ReqWord) : Instr → Prop where
  | construct (hop : (reqOp w).toNat = 0x01) (hd : reqD w = 1) :
      DecodedWord w (.construct (reqK w) (reqA w) (reqB w) (reqC w) true (reqP w))
  | constructDeferred (hop : (reqOp w).toNat = 0x01) (hd : reqD w = 0) (hp : reqP w = 0) :
      DecodedWord w (.construct (reqK w) (reqA w) (reqB w) (reqC w) false 0)
  | setBuffer (hop : (reqOp w).toNat = 0x02) (hk : reqK w = 0) (ha : reqA w = 0) (hb : reqB w = 0) (hc : reqC w = 0) (hd : reqD w = 0) :
      DecodedWord w (.setBuffer (reqP w))
  | setRotation (hop : (reqOp w).toNat = 0x03) (hk : reqK w = 0) (hb : reqB w = 0) (hc : reqC w = 0) (hd : reqD w = 0) (hp : reqP w = 0) :
      DecodedWord w (.setRotation (reqA w))
  | setMirror (hop : (reqOp w).toNat = 0x04) (ha : reqA w = 0) (hb : reqB w = 0) (hc : reqC w = 0) (hd : reqD w = 0) (hp : reqP w = 0) :
      DecodedWord w (.setMirror (reqK w))
  | setDensity (hop : (reqOp w).toNat = 0x05) (ha : reqA w = 0) (hb : reqB w = 0) (hc : reqC w = 0) (hd : reqD w = 0) (hp : reqP w = 0) :
      DecodedWord w (.setDensity (reqK w))
  | clear (hop : (reqOp w).toNat = 0x06) (ha : reqA w = 0) (hb : reqB w = 0) (hc : reqC w = 0) (hd : reqD w = 0) (hp : reqP w = 0) :
      DecodedWord w (.clear (reqK w))
  | clearArea (hop : (reqOp w).toNat = 0x07) (hp : reqP w = 0) :
      DecodedWord w (.clearArea (reqK w) (reqA w) (reqB w) (reqC w) (reqD w))
  | drawPixel (hop : (reqOp w).toNat = 0x08) (hc : reqC w = 0) (hd : reqD w = 0) (hp : reqP w = 0) :
      DecodedWord w (.drawPixel (reqK w) (reqA w) (reqB w))
  | readPixel (hop : (reqOp w).toNat = 0x09) (hk : reqK w = 0) (hc : reqC w = 0) (hd : reqD w = 0) (hp : reqP w = 0) :
      DecodedWord w (.readPixel (reqA w) (reqB w))
  | windowCalc (hop : (reqOp w).toNat = 0x10) (hk : reqK w = 0) (hp : reqP w = 0) :
      DecodedWord w (.windowCalc (reqA w) (reqB w) (reqC w) (reqD w))
  | init (hop : (reqOp w).toNat = 0x20) (hk : reqK w = 0) (ha : reqA w = 0) (hb : reqB w = 0) (hc : reqC w = 0) (hd : reqD w = 0) (hp : reqP w = 0) :
      DecodedWord w .init
  | refreshFull (hop : (reqOp w).toNat = 0x21) (hk : reqK w = 0) (ha : reqA w = 0) (hb : reqB w = 0) (hc : reqC w = 0) (hd : reqD w = 0) :
      DecodedWord w (.refreshFull (reqP w))
  | refreshPartial (hop : (reqOp w).toNat = 0x22) (hk : reqK w = 0) :
      DecodedWord w (.refreshPartial (reqA w) (reqB w) (reqC w) (reqD w) (reqP w))
  | refreshFast (hop : (reqOp w).toNat = 0x23) (hk : reqK w = 0) (ha : reqA w = 0) (hb : reqB w = 0) (hc : reqC w = 0) (hd : reqD w = 0) :
      DecodedWord w (.refreshFast (reqP w))
  | deepSleep (hop : (reqOp w).toNat = 0x24) (hk : reqK w = 0) (ha : reqA w = 0) (hb : reqB w = 0) (hc : reqC w = 0) (hd : reqD w = 0) (hp : reqP w = 0) :
      DecodedWord w .deepSleep

theorem unlessUsed_ok {z : Bool} {i j : Instr} (h : unlessUsed z j = .ok i) : z = true ∧ j = i := by
  cases z <;> simp [unlessUsed] at h
  exact ⟨rfl, h⟩

theorem decodeConstruct_cases {w : ReqWord} {i : Instr} (hop : (reqOp w).toNat = 0x01)
    (h : decodeConstruct w = .ok i) : DecodedWord w i := by
  unfold decodeConstruct at h
  split at h
  · rename_i hd
    split at h
    · rename_i hp
      cases h
      exact .constructDeferred hop hd hp
    · cases h
  · split at h
    · rename_i hd
      cases h
      exact .construct hop hd
    · cases h

/-- Everything the decoder can accept. -/
theorem decodeRequest_cases {w : ReqWord} {i : Instr} (h : decodeRequest w = .ok i) :
    reqZ w = 0 ∧ DecodedWord w i := by
  unfold decodeRequest at h
  split at h
  · rename_i hz
    refine ⟨hz, ?_⟩
    unfold decodeOpcode at h
    extract_lets k a b c d p at h
    generalize hop : (reqOp w).toNat = n at h
    split at h
    · exact decodeConstruct_cases hop h
    · obtain ⟨hu, rfl⟩ := unlessUsed_ok h
      simp only [Bool.and_eq_true, beq_iff_eq, k, a, b, c, d] at hu
      exact .setBuffer hop hu.1.1.1.1 hu.1.1.1.2 hu.1.1.2 hu.1.2 hu.2
    · obtain ⟨hu, rfl⟩ := unlessUsed_ok h
      simp only [Bool.and_eq_true, beq_iff_eq, k, b, c, d, p] at hu
      exact .setRotation hop hu.1.1.1.1 hu.1.1.1.2 hu.1.1.2 hu.1.2 hu.2
    · obtain ⟨hu, rfl⟩ := unlessUsed_ok h
      simp only [Bool.and_eq_true, beq_iff_eq, a, b, c, d, p] at hu
      exact .setMirror hop hu.1.1.1.1 hu.1.1.1.2 hu.1.1.2 hu.1.2 hu.2
    · obtain ⟨hu, rfl⟩ := unlessUsed_ok h
      simp only [Bool.and_eq_true, beq_iff_eq, a, b, c, d, p] at hu
      exact .setDensity hop hu.1.1.1.1 hu.1.1.1.2 hu.1.1.2 hu.1.2 hu.2
    · obtain ⟨hu, rfl⟩ := unlessUsed_ok h
      simp only [Bool.and_eq_true, beq_iff_eq, a, b, c, d, p] at hu
      exact .clear hop hu.1.1.1.1 hu.1.1.1.2 hu.1.1.2 hu.1.2 hu.2
    · obtain ⟨hu, rfl⟩ := unlessUsed_ok h
      simp only [beq_iff_eq, p] at hu
      exact .clearArea hop hu
    · obtain ⟨hu, rfl⟩ := unlessUsed_ok h
      simp only [Bool.and_eq_true, beq_iff_eq, c, d, p] at hu
      exact .drawPixel hop hu.1.1 hu.1.2 hu.2
    · obtain ⟨hu, rfl⟩ := unlessUsed_ok h
      simp only [Bool.and_eq_true, beq_iff_eq, k, c, d, p] at hu
      exact .readPixel hop hu.1.1.1 hu.1.1.2 hu.1.2 hu.2
    · obtain ⟨hu, rfl⟩ := unlessUsed_ok h
      simp only [Bool.and_eq_true, beq_iff_eq, k, p] at hu
      exact .windowCalc hop hu.1 hu.2
    · obtain ⟨hu, rfl⟩ := unlessUsed_ok h
      simp only [Bool.and_eq_true, beq_iff_eq, k, a, b, c, d, p] at hu
      exact .init hop hu.1.1.1.1.1 hu.1.1.1.1.2 hu.1.1.1.2 hu.1.1.2 hu.1.2 hu.2
    · obtain ⟨hu, rfl⟩ := unlessUsed_ok h
      simp only [Bool.and_eq_true, beq_iff_eq, k, a, b, c, d] at hu
      exact .refreshFull hop hu.1.1.1.1 hu.1.1.1.2 hu.1.1.2 hu.1.2 hu.2
    · obtain ⟨hu, rfl⟩ := unlessUsed_ok h
      simp only [beq_iff_eq, k] at hu
      exact .refreshPartial hop hu
    · obtain ⟨hu, rfl⟩ := unlessUsed_ok h
      simp only [Bool.and_eq_true, beq_iff_eq, k, a, b, c, d] at hu
      exact .refreshFast hop hu.1.1.1.1 hu.1.1.1.2 hu.1.1.2 hu.1.2 hu.2
    · obtain ⟨hu, rfl⟩ := unlessUsed_ok h
      simp only [Bool.and_eq_true, beq_iff_eq, k, a, b, c, d, p] at hu
      exact .deepSleep hop hu.1.1.1.1.1 hu.1.1.1.1.2 hu.1.1.1.2 hu.1.1.2 hu.1.2 hu.2
    · cases h
  · cases h

/-! ### Command bytes are of the table (30_encoding.md R112) -/

theorem isSome_ite {α : Type} {P : Prop} [Decidable P] {x : α} {o : Option α} (h : P ∨ o.isSome = true) :
    (if P then some x else o).isSome = true := by
  split
  · rfl
  · exact h.resolve_left ‹_›

/-- Every command's byte is one of the table, also where two commands share one. -/
theorem find_byteOf_isSome (c : Cmds) (op : WireOp) : (c.find (c.byteOf op)).isSome = true := by
  unfold Cmds.find
  cases op <;> repeat first | exact isSome_ite (.inl rfl) | refine isSome_ite (.inr ?_)

end Sys2Proof
end

