-- ==== Sys2Proof/Laws/Memory.lean ====
section
/-! SUPPORT. The laws of host memory: a read after a write, the other bytes, the canonical form, and fills. -/

namespace Sys2Proof.Machine

@[simp] theorem read_nil (a : Nat) : Memory.read [] a = unlistedByte := rfl

theorem read_cons (b : Nat) (v : Byte) (m : Memory) (a : Nat) :
    Memory.read ((b, v) :: m) a = if b = a then v else Memory.read m a := rfl

theorem read_erase_same (m : Memory) (a : Nat) : Memory.read (Memory.erase m a) a = unlistedByte := by
  induction m with
  | nil => rfl
  | cons c m ih =>
    obtain ⟨b, v⟩ := c
    unfold Memory.erase at *
    by_cases h : b = a
    · simp [h, ih]
    · simp [h, read_cons, ih]

theorem read_erase_other (m : Memory) {a c : Nat} (h : c ≠ a) :
    Memory.read (Memory.erase m a) c = Memory.read m c := by
  induction m with
  | nil => rfl
  | cons d m ih =>
    obtain ⟨b, v⟩ := d
    unfold Memory.erase at *
    by_cases hb : b = a
    · subst hb
      simp [read_cons, ih, Ne.symm h]
    · simp [hb, read_cons, ih]

theorem read_insert_same (m : Memory) (a : Nat) (v : Byte) : Memory.read (Memory.insert m a v) a = v := by
  induction m with
  | nil => simp [Memory.insert, read_cons]
  | cons d m ih =>
    obtain ⟨b, x⟩ := d
    simp only [Memory.insert]
    split
    · simp [read_cons]
    · split
      · simp [read_cons]
      · rename_i h
        simp [read_cons, Ne.symm h, ih]

theorem read_insert_other (m : Memory) {a c : Nat} (v : Byte) (h : c ≠ a) :
    Memory.read (Memory.insert m a v) c = Memory.read m c := by
  induction m with
  | nil => simp [Memory.insert, read_cons, Ne.symm h]
  | cons d m ih =>
    obtain ⟨b, x⟩ := d
    simp only [Memory.insert]
    split
    · simp [read_cons, Ne.symm h]
    · split
      · rename_i hab
        subst hab
        simp [read_cons, Ne.symm h]
      · simp [read_cons, ih]

/-- A read after a write to the same address gives the byte written. -/
@[simp] theorem read_write_same (m : Memory) (a : Nat) (v : Byte) : Memory.read (Memory.write m a v) a = v := by
  unfold Memory.write
  split
  · rename_i h
    rw [read_erase_same, h]
  · exact read_insert_same m a v

/-- A write leaves every other address alone. -/
theorem read_write_other (m : Memory) {a c : Nat} (v : Byte) (h : c ≠ a) :
    Memory.read (Memory.write m a v) c = Memory.read m c := by
  unfold Memory.write
  split
  · exact read_erase_other m h
  · exact read_insert_other m v h

theorem mem_insert {m : Memory} {a : Nat} {v : Byte} {c : Host.Cell} (h : c ∈ Memory.insert m a v) :
    c = (a, v) ∨ c ∈ m := by
  induction m with
  | nil => simpa [Memory.insert] using h
  | cons d m ih =>
    obtain ⟨b, x⟩ := d
    simp only [Memory.insert] at h
    split at h
    · simpa using h
    · split at h
      · rcases List.mem_cons.1 h with h | h
        · exact .inl h
        · exact .inr (List.mem_cons_of_mem _ h)
      · rcases List.mem_cons.1 h with h | h
        · exact .inr (h ▸ List.mem_cons_self)
        · rcases ih h with h | h
          · exact .inl h
          · exact .inr (List.mem_cons_of_mem _ h)

/-- The cells of a written memory: the written one, or one that was there. -/
theorem mem_write {m : Memory} {a : Nat} {v : Byte} {c : Host.Cell} (h : c ∈ Memory.write m a v) :
    c = (a, v) ∨ c ∈ m := by
  unfold Memory.write at h
  split at h
  · exact .inr (List.mem_of_mem_filter h)
  · exact mem_insert h

theorem wf_iff (m : Memory) :
    Memory.wf m = true ↔ m.Pairwise (fun c d => c.1 < d.1) ∧ ∀ c ∈ m, c.2 ≠ unlistedByte := by
  simp [Memory.wf]

theorem insert_pairwise (m : Memory) (a : Nat) (v : Byte) (h : m.Pairwise fun c d => c.1 < d.1) :
    (Memory.insert m a v).Pairwise fun c d => c.1 < d.1 := by
  induction m with
  | nil => simp [Memory.insert]
  | cons d m ih =>
    obtain ⟨b, x⟩ := d
    have hb := (List.pairwise_cons.1 h).1
    have hm := (List.pairwise_cons.1 h).2
    simp only [Memory.insert]
    split
    · rename_i hab
      refine List.pairwise_cons.2 ⟨fun c hc => ?_, h⟩
      rcases List.mem_cons.1 hc with hc | hc
      · rw [hc]; exact hab
      · exact lt_trans hab (hb c hc)
    · split
      · rename_i hab
        subst hab
        exact List.pairwise_cons.2 ⟨hb, hm⟩
      · refine List.pairwise_cons.2 ⟨fun c hc => ?_, ih hm⟩
        rcases mem_insert hc with hc | hc
        · rw [hc]; dsimp only; omega
        · exact hb c hc

/-- A write keeps the canonical form. -/
theorem write_wf (m : Memory) (a : Nat) (v : Byte) (h : Memory.wf m = true) :
    Memory.wf (Memory.write m a v) = true := by
  rw [wf_iff] at *
  refine ⟨?_, fun c hc => ?_⟩
  · unfold Memory.write
    split
    · exact h.1.filter _
    · exact insert_pairwise m a v h.1
  · unfold Memory.write at hc
    split at hc
    · exact h.2 c (List.mem_of_mem_filter hc)
    · rcases mem_insert hc with hc | hc
      · rw [hc]; assumption
      · exact h.2 c hc

theorem nil_wf : Memory.wf [] = true := by decide

/-- The memory of the machine after reset has the canonical form. -/
theorem reset_mem_wf : Memory.wf State.reset.mem = true := by decide

/-- What a fill does to the state: memory only. -/
theorem fill_eq (n a : Nat) (v : Byte) (s : State) :
    State.fill n a v s = { s with mem := (State.fill n a v s).mem } := by
  induction n generalizing a s with
  | zero => rfl
  | succ n ih =>
    simp only [State.fill]
    rw [ih (a + 1) (s.writeMem a v)]
    rfl

/-- What a fill does to memory: the bytes of its range are the fill byte, the others are as before. -/
theorem fill_read (n a : Nat) (v : Byte) (s : State) (c : Nat) :
    Memory.read (State.fill n a v s).mem c = if a ≤ c ∧ c < a + n then v else Memory.read s.mem c := by
  induction n generalizing a s with
  | zero =>
    have : ¬(a ≤ c ∧ c < a + 0) := by omega
    rw [if_neg this]
    rfl
  | succ n ih =>
    simp only [State.fill]
    rw [ih]
    by_cases h : c = a
    · subst h
      simp [State.writeMem]
    · rw [show (s.writeMem a v).mem = Memory.write s.mem a v from rfl, read_write_other _ _ h]
      by_cases h1 : a ≤ c ∧ c < a + (n + 1)
      · rw [if_pos h1, if_pos (by omega)]
      · rw [if_neg h1, if_neg (by omega)]

/-- A fill keeps the canonical form. -/
theorem fill_wf (n a : Nat) (v : Byte) (s : State) (h : Memory.wf s.mem = true) :
    Memory.wf (State.fill n a v s).mem = true := by
  induction n generalizing a s with
  | zero => exact h
  | succ n ih => exact ih _ _ (write_wf _ _ _ h)

/-- The cells a fill adds lie in its range. -/
theorem fill_cells (n a : Nat) (v : Byte) (s : State) (c : Host.Cell) (h : c ∈ (State.fill n a v s).mem) :
    (a ≤ c.1 ∧ c.1 < a + n) ∨ c ∈ s.mem := by
  induction n generalizing a s with
  | zero => exact .inr h
  | succ n ih =>
    rcases ih (a + 1) _ h with h | h
    · exact .inl (by omega)
    · rcases mem_write h with h | h
      · exact .inl (by rw [h]; dsimp only; omega)
      · exact .inr h

end Sys2Proof.Machine
end

