-- ==== Sys2Proof/Laws/State.lean ====
section
/-! SUPPORT. One lemma for each field of the state under each update, so that no proof unfolds a record update. -/

namespace Sys2Proof.Machine

/-! ### The sequencer when a request has ended -/

@[simp] theorem ended_reqActive (q : Sequencer) : q.ended.reqActive = false := rfl
@[simp] theorem ended_req (q : Sequencer) : q.ended.req = q.req := rfl
@[simp] theorem ended_seq (q : Sequencer) : q.ended.seq = [] := rfl
@[simp] theorem ended_mpc (q : Sequencer) : q.ended.mpc = 0 := rfl
@[simp] theorem ended_waitT0 (q : Sequencer) : q.ended.waitT0 = q.waitT0 := rfl
@[simp] theorem ended_waiting (q : Sequencer) : q.ended.waiting = false := rfl
@[simp] theorem ended_wr (q : Sequencer) : q.ended.wr = q.wr := rfl

/-! ### writeMem -/

@[simp] theorem writeMem_par (s : State) (a : Nat) (v : Byte) : (s.writeMem a v).par = s.par := rfl
@[simp] theorem writeMem_cv (s : State) (a : Nat) (v : Byte) : (s.writeMem a v).cv = s.cv := rfl
@[simp] theorem writeMem_st (s : State) (a : Nat) (v : Byte) : (s.writeMem a v).st = s.st := rfl
@[simp] theorem writeMem_sq (s : State) (a : Nat) (v : Byte) : (s.writeMem a v).sq = s.sq := rfl
@[simp] theorem writeMem_mem (s : State) (a : Nat) (v : Byte) : (s.writeMem a v).mem = Memory.write s.mem a v := rfl
@[simp] theorem writeMem_wt (s : State) (a : Nat) (v : Byte) : (s.writeMem a v).wt = s.wt := rfl
@[simp] theorem writeMem_el (s : State) (a : Nat) (v : Byte) : (s.writeMem a v).el = s.el := rfl
@[simp] theorem writeMem_env (s : State) (a : Nat) (v : Byte) : (s.writeMem a v).env = s.env := rfl

/-! ### emit -/

@[simp] theorem emit_par (s : State) (e : Event) : (s.emit e).par = s.par := rfl
@[simp] theorem emit_cv (s : State) (e : Event) : (s.emit e).cv = s.cv := rfl
@[simp] theorem emit_st (s : State) (e : Event) : (s.emit e).st = s.st := rfl
@[simp] theorem emit_sq (s : State) (e : Event) : (s.emit e).sq = s.sq := rfl
@[simp] theorem emit_mem (s : State) (e : Event) : (s.emit e).mem = s.mem := rfl
@[simp] theorem emit_wt (s : State) (e : Event) : (s.emit e).wt = s.wt ++ [e] := rfl
@[simp] theorem emit_el (s : State) (e : Event) : (s.emit e).el = s.el := rfl
@[simp] theorem emit_env (s : State) (e : Event) : (s.emit e).env = s.env := rfl

/-! ### log -/

@[simp] theorem log_par (s : State) (k : ErrorKind) : (s.log k).par = s.par := rfl
@[simp] theorem log_cv (s : State) (k : ErrorKind) : (s.log k).cv = s.cv := rfl
@[simp] theorem log_st (s : State) (k : ErrorKind) : (s.log k).st = s.st := rfl
@[simp] theorem log_sq (s : State) (k : ErrorKind) : (s.log k).sq = s.sq := rfl
@[simp] theorem log_mem (s : State) (k : ErrorKind) : (s.log k).mem = s.mem := rfl
@[simp] theorem log_wt (s : State) (k : ErrorKind) : (s.log k).wt = s.wt := rfl
@[simp] theorem log_el (s : State) (k : ErrorKind) : (s.log k).el = s.el ++ [(k, s.reqOpcode)] := rfl
@[simp] theorem log_env (s : State) (k : ErrorKind) : (s.log k).env = s.env := rfl

/-! ### finish -/

@[simp] theorem finish_par (s : State) (c : ResultCode) : (s.finish c).par = s.par := rfl
@[simp] theorem finish_cv (s : State) (c : ResultCode) : (s.finish c).cv = s.cv := rfl
@[simp] theorem finish_st (s : State) (c : ResultCode) : (s.finish c).st = { s.st with result := c } := rfl
@[simp] theorem finish_sq (s : State) (c : ResultCode) : (s.finish c).sq = s.sq.ended := rfl
@[simp] theorem finish_mem (s : State) (c : ResultCode) : (s.finish c).mem = s.mem := rfl
@[simp] theorem finish_wt (s : State) (c : ResultCode) : (s.finish c).wt = s.wt := rfl
@[simp] theorem finish_el (s : State) (c : ResultCode) : (s.finish c).el = s.el := rfl
@[simp] theorem finish_env (s : State) (c : ResultCode) : (s.finish c).env = s.env := rfl

/-! ### raiseFault -/

@[simp] theorem raiseFault_par (s : State) (c : FaultCode) : (s.raiseFault c).par = s.par := rfl
@[simp] theorem raiseFault_cv (s : State) (c : FaultCode) : (s.raiseFault c).cv = s.cv := rfl
@[simp] theorem raiseFault_st (s : State) (c : FaultCode) : (s.raiseFault c).st = { s.st with fault := c } := rfl
@[simp] theorem raiseFault_sq (s : State) (c : FaultCode) : (s.raiseFault c).sq = s.sq.ended := rfl
@[simp] theorem raiseFault_mem (s : State) (c : FaultCode) : (s.raiseFault c).mem = s.mem := rfl
@[simp] theorem raiseFault_wt (s : State) (c : FaultCode) : (s.raiseFault c).wt = s.wt := rfl
@[simp] theorem raiseFault_el (s : State) (c : FaultCode) : (s.raiseFault c).el = s.el := rfl
@[simp] theorem raiseFault_env (s : State) (c : FaultCode) : (s.raiseFault c).env = s.env := rfl

/-! ### blockReset -/

@[simp] theorem blockReset_par (s : State) : s.blockReset.par = s.par := rfl
@[simp] theorem blockReset_cv (s : State) : s.blockReset.cv = Canvas.reset := rfl
@[simp] theorem blockReset_st (s : State) : s.blockReset.st = Status.reset := rfl
@[simp] theorem blockReset_sq (s : State) : s.blockReset.sq = Sequencer.reset := rfl
@[simp] theorem blockReset_mem (s : State) : s.blockReset.mem = s.mem := rfl
@[simp] theorem blockReset_wt (s : State) : s.blockReset.wt = [] := rfl
@[simp] theorem blockReset_el (s : State) : s.blockReset.el = [] := rfl
@[simp] theorem blockReset_env (s : State) : s.blockReset.env = s.env := rfl

/-! ### transportFail -/

@[simp] theorem transportFail_par (s : State) (k : SendKind) (b : Byte) : (s.transportFail k b).par = s.par := rfl
@[simp] theorem transportFail_cv (s : State) (k : SendKind) (b : Byte) : (s.transportFail k b).cv = s.cv := rfl
@[simp] theorem transportFail_st (s : State) (k : SendKind) (b : Byte) :
    (s.transportFail k b).st =
      { s.st with halted := true, result := .transportFailure } := rfl
@[simp] theorem transportFail_sq (s : State) (k : SendKind) (b : Byte) : (s.transportFail k b).sq = s.sq.ended := rfl
@[simp] theorem transportFail_mem (s : State) (k : SendKind) (b : Byte) : (s.transportFail k b).mem = s.mem := rfl
@[simp] theorem transportFail_wt (s : State) (k : SendKind) (b : Byte) :
    (s.transportFail k b).wt =
      s.wt ++ [.xferFail k b] := rfl
@[simp] theorem transportFail_el (s : State) (k : SendKind) (b : Byte) :
    (s.transportFail k b).el =
      s.el ++ [(.transportFailure, s.reqOpcode)] := rfl
@[simp] theorem transportFail_env (s : State) (k : SendKind) (b : Byte) : (s.transportFail k b).env = s.env := rfl

/-! ### startSeq -/

@[simp] theorem startSeq_par (s : State) (ms : List Micro) : (s.startSeq ms).par = s.par := rfl
@[simp] theorem startSeq_cv (s : State) (ms : List Micro) : (s.startSeq ms).cv = s.cv := rfl
@[simp] theorem startSeq_st (s : State) (ms : List Micro) : (s.startSeq ms).st = s.st := rfl
@[simp] theorem startSeq_sq (s : State) (ms : List Micro) :
    (s.startSeq ms).sq =
      { s.sq with reqActive := true, seq := ms, mpc := 0, waiting := false, wr := .ok } := rfl
@[simp] theorem startSeq_mem (s : State) (ms : List Micro) : (s.startSeq ms).mem = s.mem := rfl
@[simp] theorem startSeq_wt (s : State) (ms : List Micro) : (s.startSeq ms).wt = s.wt := rfl
@[simp] theorem startSeq_el (s : State) (ms : List Micro) : (s.startSeq ms).el = s.el := rfl
@[simp] theorem startSeq_env (s : State) (ms : List Micro) : (s.startSeq ms).env = s.env := rfl

/-! ### placeWire -/

@[simp] theorem placeWire_par (s : State) (ms : List Micro) : (s.placeWire ms).par = s.par := rfl
@[simp] theorem placeWire_cv (s : State) (ms : List Micro) : (s.placeWire ms).cv = s.cv := rfl
@[simp] theorem placeWire_st (s : State) (ms : List Micro) : (s.placeWire ms).st = s.st := rfl
@[simp] theorem placeWire_sq (s : State) (ms : List Micro) :
    (s.placeWire ms).sq =
      { s.sq with reqActive := true, seq := s.sq.seq.take s.sq.mpc ++ ms ++ s.sq.seq.drop (s.sq.mpc + ms.length) } := rfl
@[simp] theorem placeWire_mem (s : State) (ms : List Micro) : (s.placeWire ms).mem = s.mem := rfl
@[simp] theorem placeWire_wt (s : State) (ms : List Micro) : (s.placeWire ms).wt = s.wt := rfl
@[simp] theorem placeWire_el (s : State) (ms : List Micro) : (s.placeWire ms).el = s.el := rfl
@[simp] theorem placeWire_env (s : State) (ms : List Micro) : (s.placeWire ms).env = s.env := rfl

/-! ### latch -/

@[simp] theorem latch_par (s : State) (w : ReqWord) : (s.latch w).par = s.par := rfl
@[simp] theorem latch_cv (s : State) (w : ReqWord) : (s.latch w).cv = s.cv := rfl
@[simp] theorem latch_st (s : State) (w : ReqWord) : (s.latch w).st = s.st := rfl
@[simp] theorem latch_sq (s : State) (w : ReqWord) :
    (s.latch w).sq =
      { s.sq with req := w, reqActive := true } := rfl
@[simp] theorem latch_mem (s : State) (w : ReqWord) : (s.latch w).mem = s.mem := rfl
@[simp] theorem latch_wt (s : State) (w : ReqWord) : (s.latch w).wt = s.wt := rfl
@[simp] theorem latch_el (s : State) (w : ReqWord) : (s.latch w).el = s.el := rfl
@[simp] theorem latch_env (s : State) (w : ReqWord) : (s.latch w).env = s.env := rfl

/-! ### popHost -/

@[simp] theorem popHost_par (s : State) : s.popHost.par = s.par := rfl
@[simp] theorem popHost_cv (s : State) : s.popHost.cv = s.cv := rfl
@[simp] theorem popHost_st (s : State) : s.popHost.st = s.st := rfl
@[simp] theorem popHost_sq (s : State) : s.popHost.sq = s.sq := rfl
@[simp] theorem popHost_mem (s : State) : s.popHost.mem = s.mem := rfl
@[simp] theorem popHost_wt (s : State) : s.popHost.wt = s.wt := rfl
@[simp] theorem popHost_el (s : State) : s.popHost.el = s.el := rfl
@[simp] theorem popHost_env (s : State) : s.popHost.env = { s.env with host := s.env.host.tail } := rfl

/-! ### tick -/

@[simp] theorem tick_par (s : State) : s.tick.par = s.par := rfl
@[simp] theorem tick_cv (s : State) : s.tick.cv = s.cv := rfl
@[simp] theorem tick_st (s : State) : s.tick.st = s.st := rfl
@[simp] theorem tick_sq (s : State) : s.tick.sq = s.sq := rfl
@[simp] theorem tick_mem (s : State) : s.tick.mem = s.mem := rfl
@[simp] theorem tick_wt (s : State) : s.tick.wt = s.wt := rfl
@[simp] theorem tick_el (s : State) : s.tick.el = s.el := rfl
@[simp] theorem tick_env (s : State) : s.tick.env = { s.env with resetIn := s.env.resetIn.tail } := rfl

/-! ### setRval -/

@[simp] theorem setRval_par (s : State) (v : Byte) : (s.setRval v).par = s.par := rfl
@[simp] theorem setRval_cv (s : State) (v : Byte) : (s.setRval v).cv = s.cv := rfl
@[simp] theorem setRval_st (s : State) (v : Byte) : (s.setRval v).st = { s.st with rval := v } := rfl
@[simp] theorem setRval_sq (s : State) (v : Byte) : (s.setRval v).sq = s.sq := rfl
@[simp] theorem setRval_mem (s : State) (v : Byte) : (s.setRval v).mem = s.mem := rfl
@[simp] theorem setRval_wt (s : State) (v : Byte) : (s.setRval v).wt = s.wt := rfl
@[simp] theorem setRval_el (s : State) (v : Byte) : (s.setRval v).el = s.el := rfl
@[simp] theorem setRval_env (s : State) (v : Byte) : (s.setRval v).env = s.env := rfl

/-! ### rejectParameter -/

@[simp] theorem rejectParameter_par (s : State) : s.rejectParameter.par = s.par := rfl
@[simp] theorem rejectParameter_cv (s : State) : s.rejectParameter.cv = s.cv := rfl
@[simp] theorem rejectParameter_st (s : State) :
    s.rejectParameter.st =
      { s.st with result := .invalidParameter } := rfl
@[simp] theorem rejectParameter_sq (s : State) : s.rejectParameter.sq = s.sq.ended := rfl
@[simp] theorem rejectParameter_mem (s : State) : s.rejectParameter.mem = s.mem := rfl
@[simp] theorem rejectParameter_wt (s : State) : s.rejectParameter.wt = s.wt := rfl
@[simp] theorem rejectParameter_el (s : State) :
    s.rejectParameter.el =
      s.el ++ [(.invalidParameter, s.reqOpcode)] := rfl
@[simp] theorem rejectParameter_env (s : State) : s.rejectParameter.env = s.env := rfl

/-! ### withWire -/

@[simp] theorem withWire_par (s : State) (ms : List Micro) : (s.withWire ms).par = s.par := rfl
@[simp] theorem withWire_cv (s : State) (ms : List Micro) : (s.withWire ms).cv = s.cv := rfl
@[simp] theorem withWire_st (s : State) (ms : List Micro) : (s.withWire ms).st = s.st := rfl
@[simp] theorem withWire_sq (s : State) (ms : List Micro) :
    (s.withWire ms).sq =
      { s.sq with reqActive := true, seq := ms, mpc := 0 } := rfl
@[simp] theorem withWire_mem (s : State) (ms : List Micro) : (s.withWire ms).mem = s.mem := rfl
@[simp] theorem withWire_wt (s : State) (ms : List Micro) : (s.withWire ms).wt = s.wt := rfl
@[simp] theorem withWire_el (s : State) (ms : List Micro) : (s.withWire ms).el = s.el := rfl
@[simp] theorem withWire_env (s : State) (ms : List Micro) :
    (s.withWire ms).env =
      { s.env with resetIn := [] } := rfl

/-! ### The window and the canvas -/

@[simp] theorem withWindow_dstate (t : Status) (w : Window) : (t.withWindow w).dstate = t.dstate := rfl
@[simp] theorem withWindow_rstLine (t : Status) (w : Window) : (t.withWindow w).rstLine = t.rstLine := rfl
@[simp] theorem withWindow_maybeBusy (t : Status) (w : Window) : (t.withWindow w).maybeBusy = t.maybeBusy := rfl
@[simp] theorem withWindow_result (t : Status) (w : Window) : (t.withWindow w).result = t.result := rfl
@[simp] theorem withWindow_rval (t : Status) (w : Window) : (t.withWindow w).rval = t.rval := rfl
@[simp] theorem withWindow_fault (t : Status) (w : Window) : (t.withWindow w).fault = t.fault := rfl
@[simp] theorem withWindow_halted (t : Status) (w : Window) : (t.withWindow w).halted = t.halted := rfl

@[simp] theorem logicalFromMemory_base (c : Canvas) (r : Rotation) : (c.logicalFromMemory r).base = c.base := by
  unfold Canvas.logicalFromMemory; split <;> rfl
@[simp] theorem logicalFromMemory_valid (c : Canvas) (r : Rotation) : (c.logicalFromMemory r).valid = c.valid := by
  unfold Canvas.logicalFromMemory; split <;> rfl
@[simp] theorem logicalFromMemory_wm (c : Canvas) (r : Rotation) : (c.logicalFromMemory r).wm = c.wm := by
  unfold Canvas.logicalFromMemory; split <;> rfl
@[simp] theorem logicalFromMemory_hm (c : Canvas) (r : Rotation) : (c.logicalFromMemory r).hm = c.hm := by
  unfold Canvas.logicalFromMemory; split <;> rfl
@[simp] theorem logicalFromMemory_dens (c : Canvas) (r : Rotation) : (c.logicalFromMemory r).dens = c.dens := by
  unfold Canvas.logicalFromMemory; split <;> rfl
@[simp] theorem logicalFromMemory_rot (c : Canvas) (r : Rotation) : (c.logicalFromMemory r).rot = c.rot := by
  unfold Canvas.logicalFromMemory; split <;> rfl
@[simp] theorem logicalFromMemory_mir (c : Canvas) (r : Rotation) : (c.logicalFromMemory r).mir = c.mir := by
  unfold Canvas.logicalFromMemory; split <;> rfl
@[simp] theorem logicalFromMemory_color (c : Canvas) (r : Rotation) : (c.logicalFromMemory r).color = c.color := by
  unfold Canvas.logicalFromMemory; split <;> rfl

/-- The logical dimensions `logicalFromMemory` leaves (40_canvas_config.md R141). -/
theorem logicalFromMemory_dims (c : Canvas) (r : Rotation) :
    ((c.logicalFromMemory r).wl, (c.logicalFromMemory r).hl) = if r.swapsDims then (c.hm, c.wm) else (c.wm, c.hm) := by
  unfold Canvas.logicalFromMemory; split <;> rfl

end Sys2Proof.Machine
end

