-- ==== Sys2Proof/Laws/Host.lean ====
section
/-! SUPPORT. What the host can do while a request executes, said once: its moves, what they leave in memory, and what
passing time does to the inputs and memory. -/

namespace Sys2Proof.Machine

/-! ### One move of the host -/

@[simp] theorem hostWrite_par (s : State) (a : Nat) (v : Byte) : (s.hostWrite a v).par = s.par := by
  unfold State.hostWrite; split <;> rfl
@[simp] theorem hostWrite_cv (s : State) (a : Nat) (v : Byte) : (s.hostWrite a v).cv = s.cv := by
  unfold State.hostWrite; split <;> rfl
@[simp] theorem hostWrite_st (s : State) (a : Nat) (v : Byte) : (s.hostWrite a v).st = s.st := by
  unfold State.hostWrite; split <;> rfl
@[simp] theorem hostWrite_sq (s : State) (a : Nat) (v : Byte) : (s.hostWrite a v).sq = s.sq := by
  unfold State.hostWrite; split <;> rfl
@[simp] theorem hostWrite_wt (s : State) (a : Nat) (v : Byte) : (s.hostWrite a v).wt = s.wt := by
  unfold State.hostWrite; split <;> rfl
@[simp] theorem hostWrite_el (s : State) (a : Nat) (v : Byte) : (s.hostWrite a v).el = s.el := by
  unfold State.hostWrite; split <;> rfl
@[simp] theorem hostWrite_env (s : State) (a : Nat) (v : Byte) : (s.hostWrite a v).env = s.env := by
  unfold State.hostWrite; split <;> rfl
theorem hostWrite_mem (s : State) (a : Nat) (v : Byte) :
    (s.hostWrite a v).mem = if a < s.par.memSize then Memory.write s.mem a v else s.mem := by
  unfold State.hostWrite; split <;> rfl

/-- A host write sets its own byte, if that lies in memory, and no other (20_memory.md R87). -/
theorem hostWrite_read (s : State) (a : Nat) (v : Byte) (b : Nat) :
    Memory.read (s.hostWrite a v).mem b = if b < s.par.memSize ∧ a = b then v else Memory.read s.mem b := by
  rw [hostWrite_mem]
  by_cases h : a = b
  · subst h
    by_cases ha : a < s.par.memSize <;> simp [ha]
  · split
    · simp [h, read_write_other _ _ (Ne.symm h)]
    · simp [h]

@[simp] theorem hostMeanwhile_par (s : State) : s.hostMeanwhile.par = s.par := by
  unfold State.hostMeanwhile; split <;> simp
@[simp] theorem hostMeanwhile_cv (s : State) : s.hostMeanwhile.cv = s.cv := by
  unfold State.hostMeanwhile; split <;> simp
@[simp] theorem hostMeanwhile_st (s : State) : s.hostMeanwhile.st = s.st := by
  unfold State.hostMeanwhile; split <;> simp
@[simp] theorem hostMeanwhile_sq (s : State) : s.hostMeanwhile.sq = s.sq := by
  unfold State.hostMeanwhile; split <;> simp
@[simp] theorem hostMeanwhile_wt (s : State) : s.hostMeanwhile.wt = s.wt := by
  unfold State.hostMeanwhile; split <;> simp
@[simp] theorem hostMeanwhile_el (s : State) : s.hostMeanwhile.el = s.el := by
  unfold State.hostMeanwhile; split <;> simp
@[simp] theorem hostMeanwhile_pending (s : State) : s.hostMeanwhile.pending = s.pending := by
  simp [State.pending]

/-- The host's actions after its move: one fewer, unless it has none or awaits. -/
def hostAfter : List HostAct → List HostAct
  | [] => []
  | .pass :: rest => rest
  | .await :: rest => .await :: rest
  | .issue _ :: rest => rest
  | .writeMem _ _ :: rest => rest

theorem hostAfter_suffix (l : List HostAct) : hostAfter l <:+ l := by
  unfold hostAfter
  split
  · exact List.suffix_rfl
  · exact List.suffix_cons _ _
  · exact List.suffix_rfl
  · exact List.suffix_cons _ _
  · exact List.suffix_cons _ _

theorem hostMeanwhile_env (s : State) : s.hostMeanwhile.env = { s.env with host := hostAfter s.env.host } := by
  unfold State.hostMeanwhile
  cases h : s.env.host with
  | nil =>
    show s.env = { s.env with host := [] }
    rw [← h]
  | cons x l =>
    cases x with
    | pass => simp [hostAfter, h]
    | await =>
      show s.env = { s.env with host := .await :: l }
      rw [← h]
    | issue w => simp [hostAfter, h]
    | writeMem a v => simp [hostAfter, h]

/-- A move changes only memory and the host's list. -/
theorem hostMeanwhile_eq (s : State) :
    s.hostMeanwhile = { s with mem := s.hostMeanwhile.mem, env := { s.env with host := hostAfter s.env.host } } := by
  rw [← hostMeanwhile_env]
  unfold State.hostMeanwhile
  split
  · rfl
  · rfl
  · rfl
  · rfl
  · unfold State.hostWrite
    split <;> rfl

/-- A host that keeps its duty makes no move (20_memory.md R89 (b)). -/
theorem hostMeanwhile_waits {s : State} (h : s.HostWaits) : s.hostMeanwhile = s := by
  unfold State.hostMeanwhile
  rcases h with h | ⟨l, h⟩ <;> simp [h]

theorem hostWaits_of_host {s t : State} (h : s.HostWaits) (ht : t.env.host = s.env.host) : t.HostWaits := by
  unfold State.HostWaits at *
  rwa [ht]

/-! ### Several moves -/

/-- The state after `k` moves of the host while a request executes. -/
def State.afterMoves : Nat → State → State
  | 0, s => s
  | k + 1, s => State.afterMoves k s.hostMeanwhile

theorem afterMoves_waits {s : State} (h : s.HostWaits) (k : Nat) : State.afterMoves k s = s := by
  induction k with
  | zero => rfl
  | succ k ih => rw [State.afterMoves, hostMeanwhile_waits h, ih]

/-- Memory and the host's list after moves depend on them, and on the size of memory, alone. -/
theorem afterMoves_congr {s t : State} (k : Nat) (hp : t.par = s.par) (hm : t.mem = s.mem)
    (hh : t.env.host = s.env.host) :
    (State.afterMoves k t).mem = (State.afterMoves k s).mem ∧
    (State.afterMoves k t).env.host = (State.afterMoves k s).env.host := by
  induction k generalizing s t with
  | zero => exact ⟨hm, hh⟩
  | succ k ih =>
    refine ih (by simp [hp]) ?_ (by simp [hostMeanwhile_env, hh])
    unfold State.hostMeanwhile
    rw [hh]
    split
    · exact hm
    · exact hm
    · exact hm
    · exact hm
    · rw [hostWrite_mem, hostWrite_mem, popHost_mem, popHost_mem, popHost_par, popHost_par, hm, hp]

/-- What an address reads after `k` moves (93_implementation_defined.md I13). -/
theorem afterMoves_read (k : Nat) (s : State) (a : Nat) :
    Memory.read (State.afterMoves k s).mem a = s.heldAt k a := by
  induction k generalizing s with
  | zero => simp [State.afterMoves, State.heldAt, State.meanwhileActs]
  | succ k ih =>
    rw [State.afterMoves, ih]
    unfold State.heldAt State.meanwhileActs
    rw [hostMeanwhile_env, hostMeanwhile_par]
    unfold State.hostMeanwhile
    cases h : s.env.host with
    | nil => simp [hostAfter]
    | cons x l =>
      cases x with
      | pass => simp [hostAfter]
      | await => simp [hostAfter]
      | issue w => simp [hostAfter]
      | writeMem b u =>
        have hne : (HostAct.writeMem b u != HostAct.await) = true := by simp
        simp only [hostAfter]
        rw [hostWrite_read, popHost_mem, popHost_par,
          List.takeWhile_cons_of_pos (p := fun x => x != HostAct.await) hne, List.take_succ_cons, List.foldl_cons]
        by_cases ha : a < s.par.memSize <;> simp [ha]

/-! ### Passing time -/

/-- The inputs go from `e` to `e'` and memory from `m` to `m'`: the host only uses up actions, the block-reset levels
stay, the clock's bound does not fall, and memory changes only where the host writes it. -/
structure Elapsed (p : Params) (e : Env) (m : Memory) (e' : Env) (m' : Memory) : Prop where
  host : e'.host <:+ e.host
  resetIn : e'.resetIn = e.resetIn
  clock : e.clockFloor ≤ e'.clockFloor
  canonical : Memory.wf m = true → Memory.wf m' = true
  cells : ∀ c ∈ m', c.1 < p.memSize ∨ c ∈ m
  held : ∀ a, (∀ v, HostAct.writeMem a v ∉ e.host) → Memory.read m' a = Memory.read m a
  waits : (e.host = [] ∨ ∃ rest, e.host = .await :: rest) → e'.host = e.host ∧ m' = m

theorem Elapsed.refl (p : Params) (e : Env) (m : Memory) : Elapsed p e m e m :=
  ⟨List.suffix_rfl, rfl, le_refl _, id, fun _ h => .inr h, fun _ _ => rfl, fun _ => ⟨rfl, rfl⟩⟩

theorem Elapsed.trans {p : Params} {e e' e'' : Env} {m m' m'' : Memory} (h : Elapsed p e m e' m')
    (h' : Elapsed p e' m' e'' m'') : Elapsed p e m e'' m'' where
  host := h'.host.trans h.host
  resetIn := h'.resetIn.trans h.resetIn
  clock := h.clock.trans h'.clock
  canonical := fun hw => h'.canonical (h.canonical hw)
  cells := fun c hc => by
    rcases h'.cells c hc with hc | hc
    · exact .inl hc
    · exact h.cells c hc
  held := fun a ha => (h'.held a fun v hv => ha v (h.host.subset hv)).trans (h.held a ha)
  waits := fun hw => by
    obtain ⟨h1, h2⟩ := h.waits hw
    obtain ⟨h3, h4⟩ := h'.waits (by rwa [h1])
    exact ⟨h3.trans h1, h4.trans h2⟩

/-- Everything a move of the host can do. -/
theorem hostMeanwhile_elapsed (s : State) : Elapsed s.par s.env s.mem s.hostMeanwhile.env s.hostMeanwhile.mem := by
  rw [hostMeanwhile_env]
  have hm : s.hostMeanwhile.mem = s.mem ∨ ∃ a v l, s.env.host = .writeMem a v :: l ∧ a < s.par.memSize ∧
      s.hostMeanwhile.mem = Memory.write s.mem a v := by
    unfold State.hostMeanwhile
    split
    · exact .inl rfl
    · exact .inl rfl
    · exact .inl rfl
    · exact .inl rfl
    · rename_i a v l h
      rw [hostWrite_mem]
      by_cases ha : a < s.par.memSize
      · exact .inr ⟨a, v, l, h, ha, by simp [ha]⟩
      · exact .inl (by simp [ha])
  refine ⟨hostAfter_suffix _, rfl, le_refl _, ?_, ?_, ?_, ?_⟩
  · rcases hm with h | ⟨a, v, l, -, -, h⟩ <;> rw [h]
    · exact id
    · exact write_wf _ _ _
  · intro c hc
    rcases hm with h | ⟨a, v, l, -, ha, h⟩ <;> rw [h] at hc
    · exact .inr hc
    · rcases mem_write hc with hc | hc
      · exact .inl (by rw [hc]; exact ha)
      · exact .inr hc
  · intro b hb
    rcases hm with h | ⟨a, v, l, hl, -, h⟩ <;> rw [h]
    refine read_write_other _ _ fun he => hb v ?_
    rw [hl, he]
    exact List.mem_cons_self
  · intro hw
    have h := hostMeanwhile_waits (s := s) hw
    rw [h]
    refine ⟨?_, rfl⟩
    have := congrArg (fun t => t.env.host) h
    simpa [hostMeanwhile_env] using this

end Sys2Proof.Machine
end

