-- ==== Sys2Proof/Laws/Ops.lean ====
section
/-! SUPPORT. What each shared operation can do, said once: the draws, the sends, the advance of MPC, the
micro-actions, the fetch of a micro-action, and loops. -/

namespace Sys2Proof.Machine

/-! ### Draws -/

theorem drawXfer_fixed {e : Env} {b : Bool} {rest : List Bool} (h : e.xferIn = b :: rest) :
    e.drawXfer = (b, { e with xferIn := rest }) := by simp [Env.drawXfer, h]

theorem drawBusy_fixed {e : Env} {b : Bool} {rest : List Bool} (h : e.busyIn = b :: rest) :
    e.drawBusy = (b, { e with busyIn := rest }) := by simp [Env.drawBusy, h]

theorem drawClock_fixed {e : Env} {d : Nat} {rest : List Nat} (h : e.clockIn = d :: rest) :
    e.drawClock = (e.clockFloor + d,
      { e with clockIn := rest, clockFloor := e.clockFloor + d, clockRead := true }) := by
  simp [Env.drawClock, Env.drawClockStep, h]

/-- A transport draw changes only its own list and counter. -/
theorem drawXfer_keeps (e : Env) : ∃ l n, e.drawXfer.2 = { e with xferIn := l, nXfer := n } := by
  unfold Env.drawXfer
  split
  · exact ⟨_, e.nXfer, rfl⟩
  · exact ⟨e.xferIn, _, rfl⟩

/-- A busy-line read changes only its own list and counter. -/
theorem drawBusy_keeps (e : Env) : ∃ l n, e.drawBusy.2 = { e with busyIn := l, nBusy := n } := by
  unfold Env.drawBusy
  split
  · exact ⟨_, e.nBusy, rfl⟩
  · exact ⟨e.busyIn, _, rfl⟩

/-- A clock draw is at least the bound, becomes the new bound, and changes nothing but the clock's own inputs
(10_state.md R34 (a)). -/
theorem drawClock_keeps (e : Env) : e.clockFloor ≤ e.drawClock.1 ∧
    ∃ l n k, e.drawClock.2 =
      { e with clockIn := l, nClock := n, nStall := k, clockFloor := e.drawClock.1, clockRead := true } := by
  refine ⟨Nat.le_add_right _ _, ?_⟩
  unfold Env.drawClock Env.drawClockStep
  split
  · exact ⟨_, e.nClock, e.nStall, rfl⟩
  · split
    · exact ⟨e.clockIn, e.nClock, _, rfl⟩
    · exact ⟨e.clockIn, _, _, rfl⟩

/-- No draw makes the host act. -/
@[simp] theorem drawXfer_host (e : Env) : e.drawXfer.2.host = e.host := by
  obtain ⟨l, n, h⟩ := drawXfer_keeps e
  rw [h]
@[simp] theorem drawBusy_host (e : Env) : e.drawBusy.2.host = e.host := by
  obtain ⟨l, n, h⟩ := drawBusy_keeps e
  rw [h]
@[simp] theorem drawClock_host (e : Env) : e.drawClock.2.host = e.host := by
  obtain ⟨-, l, n, k, h⟩ := drawClock_keeps e
  rw [h]

/-- How many more clock draws may stand still before one must advance: the fixed ones, and what is left of the free
stall. -/
def Env.patience (e : Env) : Nat := e.clockIn.length + (Config.clockStall e.nClock - e.nStall)

/-- A clock draw advances the clock, or uses up patience: so no clock stands still for ever (10_state.md R34 (c)). -/
theorem drawClock_progress (e : Env) : e.clockFloor < e.drawClock.2.clockFloor ∨
    (e.drawClock.2.clockFloor = e.clockFloor ∧ e.drawClock.2.patience < e.patience) := by
  unfold Env.drawClock Env.drawClockStep Env.patience
  cases h : e.clockIn with
  | cons d rest =>
    rcases Nat.eq_zero_or_pos d with rfl | hd
    · exact .inr ⟨rfl, by simp⟩
    · exact .inl (by dsimp only; omega)
  | nil =>
    by_cases hs : e.nStall < Config.clockStall e.nClock
    · simp only [if_pos hs]
      refine .inr ⟨rfl, ?_⟩
      simp only [List.length_nil]
      omega
    · simp only [if_neg hs]
      exact .inl (by omega)

/-- A delay raises the bound by its milliseconds once a value has been read (10_state.md R34 (b)), and else leaves the
clock alone; it advances the clock or leaves its patience. -/
theorem delay_clock (e : Env) (ms : Nat) :
    (e.delay ms).clockRead = e.clockRead ∧ (e.delay ms).clockIn = e.clockIn ∧
    (e.clockRead = true → (e.delay ms).clockFloor = e.clockFloor + ms) ∧
    (e.clockFloor < (e.delay ms).clockFloor ∨ e.delay ms = e) := by
  unfold Env.delay
  split
  · rename_i h
    simp only [Bool.and_eq_true, bne_iff_ne, ne_eq] at h
    exact ⟨rfl, rfl, fun _ => rfl, .inl (by dsimp only; omega)⟩
  · rename_i h
    refine ⟨rfl, rfl, fun hr => ?_, .inr rfl⟩
    simp only [Bool.and_eq_true, bne_iff_ne, ne_eq, not_and, Decidable.not_not] at h
    rw [h hr]
    rfl

/-! ### Sends (44_wire_commands.md R262, R265) -/

theorem send_ok {s : State} {k : SendKind} {b : Byte} {e : Env} (h : s.env.drawXfer = (true, e)) :
    s.send k b = .ok ({ s with env := e }.emit (k.event b)) := by simp [State.send, h]

theorem send_fail {s : State} {k : SendKind} {b : Byte} {e : Env} (h : s.env.drawXfer = (false, e)) :
    s.send k b = .error ({ s with env := e }.transportFail k b) := by simp [State.send, h]

/-- A send either emits its event or fails as `transport_fail` says. -/
theorem send_cases (s : State) (k : SendKind) (b : Byte) :
    s.send k b = .ok ({ s with env := s.env.drawXfer.2 }.emit (k.event b)) ∨
    s.send k b = .error ({ s with env := s.env.drawXfer.2 }.transportFail k b) := by
  unfold State.send
  cases h : s.env.drawXfer.1
  · exact .inr (by simp [h])
  · exact .inl (by simp [h])

/-- One byte of a stream: the host may act, the byte is read as memory then holds it, and it is sent or the send
fails. -/
theorem sendByteAt_cases (s : State) (a : Nat) :
    s.sendByteAt a = .ok { s with
      mem := s.hostMeanwhile.mem
      env := { s.env with host := hostAfter s.env.host }.drawXfer.2
      wt := s.wt ++ [.data (s.heldAt 1 a)] } ∨
    s.sendByteAt a = .error (State.transportFail { s with
      mem := s.hostMeanwhile.mem
      env := { s.env with host := hostAfter s.env.host }.drawXfer.2 } .data (s.heldAt 1 a)) := by
  have hr : Memory.read s.hostMeanwhile.mem a = s.heldAt 1 a := afterMoves_read 1 s a
  unfold State.sendByteAt
  rw [hr]
  rcases send_cases s.hostMeanwhile .data (s.heldAt 1 a) with h | h
  · refine .inl (h.trans ?_)
    rw [hostMeanwhile_env, hostMeanwhile_eq]
    rfl
  · refine .inr (h.trans ?_)
    rw [hostMeanwhile_env, hostMeanwhile_eq]

/-- A transport draw moves no host action, no block-reset level and no clock. -/
theorem drawXfer_elapsed (p : Params) (e : Env) (m : Memory) : Elapsed p e m e.drawXfer.2 m := by
  obtain ⟨l, n, h⟩ := drawXfer_keeps e
  rw [h]
  exact ⟨List.suffix_rfl, rfl, le_refl _, id, fun _ h => .inr h, fun _ _ => rfl, fun _ => ⟨rfl, rfl⟩⟩

/-- The bytes of a stream that moves of the host come before, after one byte more. -/
theorem heldAt_succ {s u : State} (hp : u.par = s.par) (hm : u.mem = s.hostMeanwhile.mem)
    (hh : u.env.host = hostAfter s.env.host) (k a : Nat) : u.heldAt k a = s.heldAt (k + 1) a := by
  rw [← afterMoves_read, ← afterMoves_read]
  exact congrArg (fun m => Memory.read m a)
    (afterMoves_congr k (s := s.hostMeanwhile) (t := u) (by simp [hp]) hm (by simp [hostMeanwhile_env, hh])).1

/-- A stream's sends all succeed and emit its bytes in increasing address order, each as memory holds it when it is
read, or the first failed one ends the request with the bytes before it sent. -/
theorem sendBytes_cases (n a : Nat) (s : State) :
    (∃ e, Elapsed s.par s.env s.mem e (State.afterMoves n s).mem ∧ State.sendBytes n a s = .ok { s with
      mem := (State.afterMoves n s).mem
      env := e
      wt := s.wt ++ (List.range n).map fun i => .data (s.heldAt (i + 1) (a + i)) }) ∨
    (∃ e j, j < n ∧ Elapsed s.par s.env s.mem e (State.afterMoves (j + 1) s).mem ∧
      State.sendBytes n a s = .error (State.transportFail { s with
        mem := (State.afterMoves (j + 1) s).mem
        env := e
        wt := s.wt ++ (List.range j).map fun i => .data (s.heldAt (i + 1) (a + i)) }
        .data (s.heldAt (j + 1) (a + j)))) := by
  induction n generalizing a s with
  | zero => exact .inl ⟨s.env, Elapsed.refl _ _ _, by simp [State.sendBytes, State.afterMoves]⟩
  | succ n ih =>
    have h0 : Elapsed s.par s.env s.mem { s.env with host := hostAfter s.env.host }.drawXfer.2 s.hostMeanwhile.mem :=
      (by simpa only [hostMeanwhile_env] using hostMeanwhile_elapsed s : Elapsed s.par s.env s.mem
        { s.env with host := hostAfter s.env.host } s.hostMeanwhile.mem).trans (drawXfer_elapsed _ _ _)
    simp only [State.sendBytes]
    rcases sendByteAt_cases s a with h | h <;> rw [h]
    · generalize hu : ({ s with
        mem := s.hostMeanwhile.mem
        env := { s.env with host := hostAfter s.env.host }.drawXfer.2
        wt := s.wt ++ [.data (s.heldAt 1 a)] } : State) = u
      have hup : u.par = s.par := by rw [← hu]
      have hum : u.mem = s.hostMeanwhile.mem := by rw [← hu]
      have hue : u.env = { s.env with host := hostAfter s.env.host }.drawXfer.2 := by rw [← hu]
      have huw : u.wt = s.wt ++ [.data (s.heldAt 1 a)] := by rw [← hu]
      have huh : u.env.host = hostAfter s.env.host := by
        obtain ⟨l, k, hd⟩ := drawXfer_keeps { s.env with host := hostAfter s.env.host }
        rw [hue, hd]
      have hk (k : Nat) : (State.afterMoves k u).mem = (State.afterMoves (k + 1) s).mem :=
        (afterMoves_congr k (s := s.hostMeanwhile) (t := u) (by simp [hup]) hum (by simp [hostMeanwhile_env, huh])).1
      have hw (k : Nat) : u.wt ++ (List.range k).map (fun i => Event.data (u.heldAt (i + 1) (a + 1 + i))) =
          s.wt ++ (List.range (k + 1)).map fun i => .data (s.heldAt (i + 1) (a + i)) := by
        rw [huw, List.range_succ_eq_map, List.map_cons, List.map_map, List.append_assoc]
        refine congrArg (s.wt ++ ·) (congrArg (List.cons (Event.data (s.heldAt 1 a))) (List.map_congr_left fun i _ => ?_))
        show Event.data _ = Event.data _
        rw [heldAt_succ hup hum huh, show a + 1 + i = a + (i + 1) by omega]
      rw [← hue, ← hum, ← hup] at h0
      rcases ih (a + 1) u with ⟨e, hm, he⟩ | ⟨e, j, hj, hm, he⟩
      · refine .inl ⟨e, ?_, he.trans ?_⟩
        · rw [← hk, ← hup]
          exact h0.trans hm
        · rw [hk, hw, ← hu]
      · refine .inr ⟨e, j + 1, by omega, ?_, he.trans ?_⟩
        · rw [← hk, ← hup]
          exact h0.trans hm
        · rw [hk, hw, heldAt_succ hup hum huh, show a + 1 + j = a + (j + 1) by omega, ← hu]
    · exact .inr ⟨_, 0, by omega, h0, by simp [State.afterMoves]⟩

/-- With enough fixed `ok` draws, a stream sends all its bytes. -/
theorem sendBytes_ok (n a : Nat) (s : State) (xs : List Bool) (h : s.env.xferIn = List.replicate n true ++ xs) :
    State.sendBytes n a s = .ok { s with
      mem := (State.afterMoves n s).mem
      env := { s.env with xferIn := xs, host := (State.afterMoves n s).env.host }
      wt := s.wt ++ (List.range n).map fun i => .data (s.heldAt (i + 1) (a + i)) } := by
  induction n generalizing a s with
  | zero =>
    have : s.env.xferIn = xs := by simpa using h
    subst this
    simp [State.sendBytes, State.afterMoves]
  | succ n ih =>
    have hd : s.hostMeanwhile.env.xferIn = true :: (List.replicate n true ++ xs) := by
      simpa [List.replicate_succ, hostMeanwhile_env] using h
    have hr : Memory.read s.hostMeanwhile.mem a = s.heldAt 1 a := afterMoves_read 1 s a
    simp only [State.sendBytes, State.sendByteAt, send_ok (drawXfer_fixed hd), hr]
    rw [ih _ _ (by simp)]
    generalize hu : ({ s.hostMeanwhile with
      env := { s.hostMeanwhile.env with xferIn := List.replicate n true ++ xs } } : State).emit
        (SendKind.event .data (s.heldAt 1 a)) = u
    have hup : u.par = s.par := by rw [← hu]; simp
    have hum : u.mem = s.hostMeanwhile.mem := by rw [← hu]; rfl
    have hue : u.env = { s.env with host := hostAfter s.env.host, xferIn := List.replicate n true ++ xs } := by
      rw [← hu, emit_env, hostMeanwhile_env]
    have huh : u.env.host = hostAfter s.env.host := by rw [hue]
    have huw : u.wt = s.wt ++ [.data (s.heldAt 1 a)] := by rw [← hu]; simp [SendKind.event]
    obtain ⟨k1, k2⟩ := afterMoves_congr n (s := s.hostMeanwhile) (t := u) (by simp [hup]) hum
      (by simp [hostMeanwhile_env, huh])
    have hw : u.wt ++ (List.range n).map (fun i => Event.data (u.heldAt (i + 1) (a + 1 + i))) =
        s.wt ++ (List.range (n + 1)).map fun i => .data (s.heldAt (i + 1) (a + i)) := by
      rw [huw, List.range_succ_eq_map, List.map_cons, List.map_map, List.append_assoc]
      refine congrArg (s.wt ++ ·) (congrArg (List.cons (Event.data (s.heldAt 1 a))) (List.map_congr_left fun i _ => ?_))
      show Event.data _ = Event.data _
      rw [heldAt_succ hup hum huh, show a + 1 + i = a + (i + 1) by omega]
    rw [hw, k1, k2, hue, ← hu]
    simp [State.afterMoves, State.emit]

/-! ### The advance of `MPC` (10_state.md R37) -/

@[simp] theorem advance_par (s : State) : s.advance.par = s.par := by unfold State.advance; split <;> rfl
@[simp] theorem advance_cv (s : State) : s.advance.cv = s.cv := by unfold State.advance; split <;> rfl
@[simp] theorem advance_mem (s : State) : s.advance.mem = s.mem := by unfold State.advance; split <;> rfl
@[simp] theorem advance_wt (s : State) : s.advance.wt = s.wt := by unfold State.advance; split <;> rfl
@[simp] theorem advance_el (s : State) : s.advance.el = s.el := by unfold State.advance; split <;> rfl
@[simp] theorem advance_env (s : State) : s.advance.env = s.env := by unfold State.advance; split <;> rfl

/-- With more micro-actions to run, `MPC` moves on to the next. -/
theorem advance_more {s : State} {m m' : Micro} {rest : List Micro} (h : s.pending = m :: m' :: rest) :
    s.advance = { s with sq := { s.sq with mpc := s.sq.mpc + 1, waiting := false } } ∧
    s.advance.pending = m' :: rest := by
  have hl : (s.sq.seq.drop s.sq.mpc).length = rest.length + 2 := by
    have := congrArg List.length h
    simpa [State.pending] using this
  have hlt : s.sq.mpc + 1 < s.sq.seq.length := by
    rw [List.length_drop] at hl
    omega
  have ha : s.advance = { s with sq := { s.sq with mpc := s.sq.mpc + 1, waiting := false } } := by
    simp [State.advance, hlt]
  refine ⟨ha, ?_⟩
  rw [ha]
  show s.sq.seq.drop (s.sq.mpc + 1) = m' :: rest
  have hd : s.sq.seq.drop s.sq.mpc = m :: m' :: rest := h
  rw [← List.drop_drop, hd]
  rfl

/-- With no micro-action left, the request ends with the result of its timed wait. -/
theorem advance_last {s : State} {m : Micro} (h : s.pending = [m]) : s.advance = s.finish s.sq.wr := by
  have hl : (s.sq.seq.drop s.sq.mpc).length = 1 := by
    have := congrArg List.length h
    simpa [State.pending] using this
  have hge : ¬ s.sq.mpc + 1 < s.sq.seq.length := by
    rw [List.length_drop] at hl
    omega
  simp [State.advance, hge]

/-- The advance depends on `SEQ` and `MPC` alone: what is pending is not changed by writing other parts. -/
theorem pending_of_sq {s t : State} (h : t.sq.seq = s.sq.seq) (h' : t.sq.mpc = s.sq.mpc) : t.pending = s.pending := by
  simp [State.pending, h, h']

/-! ### Micro-actions never touch parameters or canvas, and memory only where the host writes it -/

theorem completeSends_send_frame (s : State) (k : SendKind) (b : Byte) :
    (completeSends (s.send k b)).par = s.par ∧ (completeSends (s.send k b)).cv = s.cv ∧
    (completeSends (s.send k b)).mem = s.mem := by
  rcases send_cases s k b with h | h <;> rw [h] <;> simp [completeSends]

theorem runStream_frame (s : State) (p : Addr) (n : Nat) :
    (s.runStream p n).par = s.par ∧ (s.runStream p n).cv = s.cv ∧
    ∃ e, Elapsed s.par s.env s.mem e (s.runStream p n).mem := by
  unfold State.runStream
  split
  · rcases sendBytes_cases n p.toNat s with ⟨e, he, h⟩ | ⟨e, j, _, he, h⟩ <;> rw [h]
    · exact ⟨by simp [completeSends], by simp [completeSends], e, by simpa [completeSends] using he⟩
    · exact ⟨rfl, rfl, e, he⟩
  · exact ⟨rfl, rfl, _, Elapsed.refl _ _ _⟩

@[simp] theorem exitWait_par (s : State) (b : Bool) (r : ResultCode) : (s.exitWait b r).par = s.par := by
  simp [State.exitWait]
@[simp] theorem exitWait_cv (s : State) (b : Bool) (r : ResultCode) : (s.exitWait b r).cv = s.cv := by
  simp [State.exitWait]
@[simp] theorem exitWait_mem (s : State) (b : Bool) (r : ResultCode) : (s.exitWait b r).mem = s.mem := by
  simp [State.exitWait]
@[simp] theorem exitWait_wt (s : State) (b : Bool) (r : ResultCode) : (s.exitWait b r).wt = s.wt := by
  simp [State.exitWait]
@[simp] theorem exitWait_el (s : State) (b : Bool) (r : ResultCode) : (s.exitWait b r).el = s.el := by
  simp [State.exitWait]
@[simp] theorem exitWait_env (s : State) (b : Bool) (r : ResultCode) : (s.exitWait b r).env = s.env := by
  simp [State.exitWait]

/-! ### The waits, case by case (44_wire_commands.md R270, R271) -/

/-- The state after one busy-line read. -/
def State.polled (s : State) : State := { s with env := s.env.drawBusy.2 }.emit (.poll s.env.drawBusy.1)

theorem waitIdle_enter {s : State} (h : s.sq.waiting = false) :
    s.runWaitIdle = { s with sq := { s.sq with waiting := true } } := by simp [State.runWaitIdle, h]

theorem waitIdle_again {s : State} (h : s.sq.waiting = true) (hb : s.env.drawBusy.1 = true) :
    s.runWaitIdle = s.polled := by simp [State.runWaitIdle, State.poll, State.polled, h, hb]

theorem waitIdle_exit {s : State} (h : s.sq.waiting = true) (hb : s.env.drawBusy.1 = false) :
    s.runWaitIdle = s.polled.exitWait false s.sq.wr := by
  simp [State.runWaitIdle, State.poll, State.polled, h, hb]

theorem waitTimed_enter {s : State} (t : Nat) (h : s.sq.waiting = false) :
    s.runWaitIdleTimed t = { s with
      env := s.env.drawClock.2, sq := { s.sq with waitT0 := (s.env.drawClock.1 : Int), waiting := true } } := by
  simp [State.runWaitIdleTimed, h]

theorem waitTimed_again {s : State} {t : Nat} (h : s.sq.waiting = true) (hb : s.env.drawBusy.1 = true)
    (hc : ¬ (t : Int) ≤ (s.polled.env.drawClock.1 : Int) - s.sq.waitT0) :
    s.runWaitIdleTimed t = { s.polled with env := s.polled.env.drawClock.2 } := by
  have hc' : ¬ (t : Int) ≤ (s.env.drawBusy.2.drawClock.1 : Int) - s.sq.waitT0 := hc
  simp [State.runWaitIdleTimed, State.poll, State.polled, State.emit, h, hb, hc']

theorem waitTimed_timeout {s : State} {t : Nat} (h : s.sq.waiting = true) (hb : s.env.drawBusy.1 = true)
    (hc : (t : Int) ≤ (s.polled.env.drawClock.1 : Int) - s.sq.waitT0) :
    s.runWaitIdleTimed t =
      (State.log { s.polled with env := s.polled.env.drawClock.2 } .timeout).exitWait true .timeout := by
  have hc' : (t : Int) ≤ (s.env.drawBusy.2.drawClock.1 : Int) - s.sq.waitT0 := hc
  simp [State.runWaitIdleTimed, State.poll, State.polled, State.emit, h, hb, hc']

theorem waitTimed_exit {s : State} (t : Nat) (h : s.sq.waiting = true) (hb : s.env.drawBusy.1 = false) :
    s.runWaitIdleTimed t = s.polled.exitWait false .ok := by
  simp [State.runWaitIdleTimed, State.poll, State.polled, h, hb]

/-- Everything a step of the untimed wait can do. -/
theorem waitIdle_cases (s : State) :
    (s.sq.waiting = false ∧ s.runWaitIdle = { s with sq := { s.sq with waiting := true } }) ∨
    (s.sq.waiting = true ∧ s.env.drawBusy.1 = true ∧ s.runWaitIdle = s.polled) ∨
    (s.sq.waiting = true ∧ s.env.drawBusy.1 = false ∧ s.runWaitIdle = s.polled.exitWait false s.sq.wr) := by
  cases h : s.sq.waiting
  · exact .inl ⟨rfl, waitIdle_enter h⟩
  · cases hb : s.env.drawBusy.1
    · exact .inr (.inr ⟨rfl, rfl, waitIdle_exit h hb⟩)
    · exact .inr (.inl ⟨rfl, rfl, waitIdle_again h hb⟩)

/-- Everything a step of the timed wait can do. -/
theorem waitTimed_cases (s : State) (t : Nat) :
    (s.sq.waiting = false ∧ s.runWaitIdleTimed t = { s with
      env := s.env.drawClock.2, sq := { s.sq with waitT0 := (s.env.drawClock.1 : Int), waiting := true } }) ∨
    (s.sq.waiting = true ∧ s.env.drawBusy.1 = false ∧ s.runWaitIdleTimed t = s.polled.exitWait false .ok) ∨
    (s.sq.waiting = true ∧ s.env.drawBusy.1 = true ∧
      ¬ (t : Int) ≤ (s.polled.env.drawClock.1 : Int) - s.sq.waitT0 ∧
      s.runWaitIdleTimed t = { s.polled with env := s.polled.env.drawClock.2 }) ∨
    (s.sq.waiting = true ∧ s.env.drawBusy.1 = true ∧
      (t : Int) ≤ (s.polled.env.drawClock.1 : Int) - s.sq.waitT0 ∧
      s.runWaitIdleTimed t =
        (State.log { s.polled with env := s.polled.env.drawClock.2 } .timeout).exitWait true .timeout) := by
  cases h : s.sq.waiting
  · exact .inl ⟨rfl, waitTimed_enter t h⟩
  · cases hb : s.env.drawBusy.1
    · exact .inr (.inl ⟨rfl, rfl, waitTimed_exit t h hb⟩)
    · by_cases hc : (t : Int) ≤ (s.polled.env.drawClock.1 : Int) - s.sq.waitT0
      · exact .inr (.inr (.inr ⟨rfl, rfl, hc, waitTimed_timeout h hb hc⟩))
      · exact .inr (.inr (.inl ⟨rfl, rfl, hc, waitTimed_again h hb hc⟩))

@[simp] theorem polled_par (s : State) : s.polled.par = s.par := rfl
@[simp] theorem polled_cv (s : State) : s.polled.cv = s.cv := rfl
@[simp] theorem polled_st (s : State) : s.polled.st = s.st := rfl
@[simp] theorem polled_sq (s : State) : s.polled.sq = s.sq := rfl
@[simp] theorem polled_mem (s : State) : s.polled.mem = s.mem := rfl
@[simp] theorem polled_wt (s : State) : s.polled.wt = s.wt ++ [.poll s.env.drawBusy.1] := rfl
@[simp] theorem polled_el (s : State) : s.polled.el = s.el := rfl
@[simp] theorem polled_env (s : State) : s.polled.env = s.env.drawBusy.2 := rfl

/-- A micro-action leaves parameters and canvas registers alone (45_protocol_ops.md R290), and memory but for what the
host writes meanwhile. -/
theorem runMicro_frame (s : State) (m : Micro) :
    (s.runMicro m).par = s.par ∧ (s.runMicro m).cv = s.cv ∧ ∃ e, Elapsed s.par s.env s.mem e (s.runMicro m).mem := by
  have same {t : State} (h : t.par = s.par ∧ t.cv = s.cv ∧ t.mem = s.mem) :
      t.par = s.par ∧ t.cv = s.cv ∧ ∃ e, Elapsed s.par s.env s.mem e t.mem := by
    refine ⟨h.1, h.2.1, s.env, ?_⟩
    rw [h.2.2]
    exact Elapsed.refl _ _ _
  cases m with
  | sendCmd b => exact same (completeSends_send_frame s .cmd b)
  | sendData v => exact same (completeSends_send_frame s .data v)
  | stream p n => exact runStream_frame s p n
  | rst l => exact same (by simp [State.runMicro, State.runRst])
  | delay ms => exact same (by simp [State.runMicro, State.runDelay])
  | waitIdle =>
    refine same ?_
    simp only [State.runMicro]
    rcases waitIdle_cases s with ⟨_, h⟩ | ⟨_, _, h⟩ | ⟨_, _, h⟩ <;> rw [h] <;> simp
  | waitIdleTimed t =>
    refine same ?_
    simp only [State.runMicro]
    rcases waitTimed_cases s t with ⟨_, h⟩ | ⟨_, _, h⟩ | ⟨_, _, _, h⟩ | ⟨_, _, _, h⟩ <;> rw [h] <;> simp
  | setState d => exact same (by simp [State.runMicro, State.runSetState])

/-! ### The fetch of a micro-action -/

/-- Placing a wire command where it stands already changes nothing. -/
theorem placeWire_fetched {s : State} {ms tail : List Micro} (ha : s.sq.reqActive = true)
    (h : s.pending = ms ++ tail) : s.placeWire ms = s := by
  have hd : s.sq.seq.drop s.sq.mpc = ms ++ tail := h
  have hs : s.sq.seq.take s.sq.mpc ++ ms ++ s.sq.seq.drop (s.sq.mpc + ms.length) = s.sq.seq := by
    rw [← List.drop_drop, hd, List.drop_left, List.append_assoc, ← hd, List.take_append_drop]
  unfold State.placeWire
  rw [hs, ← ha]

/-- The wire command the decoder finds at `MPC` is executed as its first micro-action. -/
theorem exec_fetched {s : State} {m : Micro} {rest : List Micro} {i : Instr} (ha : s.sq.reqActive = true)
    (h : s.pending = m :: rest) (hi : decodeWire s.par (m :: rest) = some i) : exec i s = .next (s.runMicro m) := by
  obtain ⟨tail, ht⟩ := encodeWire_of_decodeWire hi
  have hp := placeWire_fetched ha (h.trans ht)
  have key : exec i s = .next (s.sendWire (encodeWire s.par i)) := by
    cases i <;> first | rfl | exact absurd rfl (encodeWire_ne_nil_of_decodeWire hi)
  rw [key]
  unfold State.sendWire
  cases he : encodeWire s.par i with
  | nil => exact absurd he (encodeWire_ne_nil_of_decodeWire hi)
  | cons m' ms =>
    rw [he] at ht hp
    dsimp only
    rw [hp]
    obtain ⟨rfl, -⟩ := List.cons.inj ht
    rfl

/-- A step of an executing request performs the micro-action at `MPC`. -/
theorem stepActive_eq {s : State} {m : Micro} {rest : List Micro} (ha : s.sq.reqActive = true)
    (h : s.pending = m :: rest) : s.stepActive = .next (s.runMicro m) := by
  unfold State.stepActive
  rw [h]
  dsimp only
  split
  · rename_i i hi
    exact exec_fetched ha h hi
  · rfl

/-! ### Loops -/

/-- A loop whose rounds each carry `P` on, and which leave `Q` where they end the request, carries `P` to its end or
leaves `Q`. -/
theorem forRange_rule {σ : Type} {P : Nat → σ → Prop} {Q : State → Prop} {f : Nat → σ → Except State σ}
    (n a : Nat) (x : σ) (h0 : P a x)
    (hs : ∀ i y, a ≤ i → i < a + n → P i y →
      (∃ y', f i y = .ok y' ∧ P (i + 1) y') ∨ (∃ s, f i y = .error s ∧ Q s)) :
    (∃ y, forRange n a f x = .ok y ∧ P (a + n) y) ∨ (∃ s, forRange n a f x = .error s ∧ Q s) := by
  induction n generalizing a x with
  | zero => exact .inl ⟨x, rfl, h0⟩
  | succ n ih =>
    simp only [forRange]
    rcases hs a x (le_refl a) (by omega) h0 with ⟨y, hy, hp⟩ | ⟨s, hy, hq⟩
    · rw [hy]
      have := ih (a + 1) y hp fun i z h1 h2 => hs i z (by omega) (by omega)
      rw [show a + 1 + n = a + (n + 1) by omega] at this
      exact this
    · rw [hy]
      exact .inr ⟨s, rfl, hq⟩

end Sys2Proof.Machine
end

