-- ==== Sys2Proof/Laws/Sequence.lean ====
section
/-! SUPPORT. Running a micro-action sequence: one step of the machine, one micro-action, lists of micro-actions whose
sends succeed, and the two waits. -/

namespace Sys2Proof.Machine

/-! ### One step -/

theorem step_of_reset {s : State} (h : s.resetAsserted = true) : step s = .next s.tick.blockReset := by
  simp [step, State.stepOnce, h]

theorem step_of_active {s : State} (h : s.resetAsserted = false) (ha : s.sq.reqActive = true) :
    step s = s.tick.hostMeanwhile.stepActive := by simp [step, State.stepOnce, State.stepBlock, h, ha]

theorem step_of_idle {s : State} (h : s.resetAsserted = false) (ha : s.sq.reqActive = false) :
    step s = s.tick.stepIdle := by simp [step, State.stepOnce, State.stepBlock, h, ha]

theorem noReset_asserted {s : State} (h : s.NoReset) : s.resetAsserted = false := by
  unfold State.resetAsserted
  cases hr : s.env.resetIn with
  | nil => rfl
  | cons b bs => exact h b (by rw [hr]; exact List.mem_cons_self)

theorem noReset_tail {s : State} (h : s.NoReset) : ∀ b ∈ s.env.resetIn.tail, b = false :=
  fun b hb => h b (List.mem_of_mem_tail hb)

/-- A step of an executing request performs the micro-action at `MPC`, after the host's move. -/
theorem step_micro_host {s : State} {m : Micro} {rest : List Micro} (h : s.resetAsserted = false)
    (ha : s.sq.reqActive = true) (hp : s.pending = m :: rest) :
    step s = .next (s.tick.hostMeanwhile.runMicro m) := by
  rw [step_of_active h ha]
  exact stepActive_eq (s := s.tick.hostMeanwhile) (by simpa using ha) (by rw [hostMeanwhile_pending]; exact hp)

/-- A step of an executing request performs the micro-action at `MPC`, where the host keeps its duty. -/
theorem step_micro {s : State} {m : Micro} {rest : List Micro} (h : s.NoReset) (hh : s.HostWaits)
    (ha : s.sq.reqActive = true) (hp : s.pending = m :: rest) : step s = .next (s.tick.runMicro m) := by
  rw [step_micro_host (noReset_asserted h) ha hp, hostMeanwhile_waits (s := s.tick) hh]

theorem runSteps_zero (s : State) : runSteps 0 s = .next s := rfl

theorem runSteps_succ {s u : State} (n : Nat) (h : step s = .next u) : runSteps (n + 1) s = runSteps n u := by
  simp [runSteps, h]

/-- Runs follow one another. -/
theorem runSteps_add {s u : State} {n : Nat} (k : Nat) (h : runSteps n s = .next u) :
    runSteps (n + k) s = runSteps k u := by
  induction n generalizing s with
  | zero =>
    cases h
    rw [Nat.zero_add]
  | succ n ih =>
    rw [show n + 1 + k = (n + k) + 1 by omega]
    simp only [runSteps] at h ⊢
    cases hs : step s with
    | next v =>
      rw [hs] at h
      exact ih h
    | fault r => simp [hs] at h
    | refused r => simp [hs] at h

/-! ### What a stretch of a sequence does -/

/-- From `s` to `t` the request emitted `es` and left the status registers `st`; it touched nothing else but the
sequencer and the draws, and no block reset is coming. -/
structure Moved (s t : State) (es : List Event) (st : Status) : Prop where
  par : t.par = s.par
  cv : t.cv = s.cv
  mem : t.mem = s.mem
  el : t.el = s.el
  req : t.sq.req = s.sq.req
  wt : t.wt = s.wt ++ es
  st : t.st = st
  noReset : t.NoReset
  host : t.env.host = s.env.host

theorem Moved.waits {s t : State} {es : List Event} {st : Status} (h : Moved s t es st) (hh : s.HostWaits) :
    t.HostWaits := hostWaits_of_host hh h.host

theorem Moved.trans {s t u : State} {es es' : List Event} {st st' : Status} (h : Moved s t es st)
    (h' : Moved t u es' st') : Moved s u (es ++ es') st' where
  par := h'.par.trans h.par
  cv := h'.cv.trans h.cv
  mem := h'.mem.trans h.mem
  el := h'.el.trans h.el
  req := h'.req.trans h.req
  wt := by rw [h'.wt, h.wt, List.append_assoc]
  st := h'.st
  noReset := h'.noReset
  host := h'.host.trans h.host

/-- The draws from `s` to `t`: transport draws only, of which `xs` are left. -/
structure SentOnly (s t : State) (xs : List Bool) : Prop where
  xferIn : t.env.xferIn = xs
  busyIn : t.env.busyIn = s.env.busyIn
  nBusy : t.env.nBusy = s.env.nBusy
  clockIn : t.env.clockIn = s.env.clockIn

theorem SentOnly.trans {s t u : State} {xs ys : List Bool} (h : SentOnly s t xs) (h' : SentOnly t u ys) :
    SentOnly s u ys where
  xferIn := h'.xferIn
  busyIn := h'.busyIn.trans h.busyIn
  nBusy := h'.nBusy.trans h.nBusy
  clockIn := h'.clockIn.trans h.clockIn

/-! ### Micro-actions that are no waits, with sends that succeed -/

/-- The events of a micro-action that is no wait (44_wire_commands.md R262 to R266). -/
def microEvents (mem : Memory) : Micro → List Event
  | .sendCmd b => [.cmd b]
  | .sendData v => [.data v]
  | .stream q n => (imageBytes mem q n).map .data
  | .rst l => [.rst l]
  | .delay ms => [.delay ms]
  | .waitIdle => []
  | .waitIdleTimed _ => []
  | .setState _ => []

/-- How many bytes a micro-action sends. -/
def microSends : Micro → Nat
  | .sendCmd _ => 1
  | .sendData _ => 1
  | .stream _ n => n
  | .rst _ => 0
  | .delay _ => 0
  | .waitIdle => 0
  | .waitIdleTimed _ => 0
  | .setState _ => 0

/-- The status registers after a micro-action that is no wait. -/
def microStatus (st : Status) : Micro → Status
  | .rst l => { st with rstLine := l }
  | .setState d => { st with dstate := d }
  | .sendCmd _ => st
  | .sendData _ => st
  | .stream _ _ => st
  | .delay _ => st
  | .waitIdle => st
  | .waitIdleTimed _ => st

/-- A micro-action that is no wait, its stream within memory. -/
def microPlain (p : Params) : Micro → Bool
  | .stream q n => streamFits p q n
  | .waitIdle => false
  | .waitIdleTimed _ => false
  | .sendCmd _ => true
  | .sendData _ => true
  | .rst _ => true
  | .delay _ => true
  | .setState _ => true

/-- The bytes of a stream, where the host keeps its duty. -/
theorem heldAt_waits {s : State} (h : s.HostWaits) (k a : Nat) : s.heldAt k a = Memory.read s.mem a := by
  rw [← afterMoves_read, afterMoves_waits h]

theorem imageBytes_eq {s : State} (h : s.HostWaits) (q : Addr) (n : Nat) :
    (List.range n).map (fun i => Event.data (s.heldAt (i + 1) (q.toNat + i))) = (imageBytes s.mem q n).map .data := by
  unfold imageBytes
  rw [List.map_map]
  refine List.map_congr_left fun i _ => ?_
  rw [heldAt_waits h]
  rfl

/-- What a plain micro-action does before `MPC` advances, where the host keeps its duty. -/
theorem runMicro_plain {s : State} {m : Micro} {xs : List Bool} (hh : s.HostWaits) (hm : microPlain s.par m = true)
    (hx : s.env.xferIn = List.replicate (microSends m) true ++ xs) :
    ∃ f k j, s.runMicro m = State.advance { s with
      st := microStatus s.st m
      wt := s.wt ++ microEvents s.mem m
      env := { s.env with xferIn := xs, clockFloor := f, nClock := k, nStall := j } } := by
  have same (h : s.env.xferIn = xs) : s.env = { s.env with xferIn := xs } := by rw [← h]
  cases m with
  | sendCmd b =>
    refine ⟨s.env.clockFloor, s.env.nClock, s.env.nStall, ?_⟩
    simp only [State.runMicro, State.runSendCmd, send_ok (drawXfer_fixed (e := s.env) (rest := xs) (by simpa [microSends] using hx))]
    rfl
  | sendData b =>
    refine ⟨s.env.clockFloor, s.env.nClock, s.env.nStall, ?_⟩
    simp only [State.runMicro, State.runSendData, send_ok (drawXfer_fixed (e := s.env) (rest := xs) (by simpa [microSends] using hx))]
    rfl
  | stream q n =>
    refine ⟨s.env.clockFloor, s.env.nClock, s.env.nStall, ?_⟩
    have hf : streamFits s.par q n = true := hm
    simp only [State.runMicro, State.runStream, hf, if_true, sendBytes_ok n q.toNat s xs hx, imageBytes_eq hh,
      afterMoves_waits hh]
    rfl
  | rst l => exact ⟨s.env.clockFloor, s.env.nClock, s.env.nStall, by
      rw [← same (by simpa [microSends] using hx)]
      rfl⟩
  | delay ms =>
    have hx' : s.env.xferIn = xs := by simpa [microSends] using hx
    subst hx'
    by_cases hr : (s.env.clockRead && ms != 0) = true
    · exact ⟨s.env.clockFloor + ms, s.env.nClock + 1, 0, by
        simp only [State.runMicro, State.runDelay, Env.delay, if_pos hr]
        rfl⟩
    · exact ⟨s.env.clockFloor, s.env.nClock, s.env.nStall, by
        simp only [State.runMicro, State.runDelay, Env.delay, if_neg hr]
        rfl⟩
  | setState d => exact ⟨s.env.clockFloor, s.env.nClock, s.env.nStall, by
      rw [← same (by simpa [microSends] using hx)]
      simp [State.runMicro, State.runSetState, microStatus, microEvents]⟩
  | waitIdle => cases hm
  | waitIdleTimed t => cases hm

/-- A plain micro-action with more of the sequence to run. -/
theorem step_plain {s : State} {m m' : Micro} {rest : List Micro} {xs : List Bool} (hr : s.NoReset) (hh : s.HostWaits)
    (ha : s.sq.reqActive = true) (hp : s.pending = m :: m' :: rest) (hm : microPlain s.par m = true)
    (hx : s.env.xferIn = List.replicate (microSends m) true ++ xs) :
    ∃ t, step s = .next t ∧ Moved s t (microEvents s.mem m) (microStatus s.st m) ∧ SentOnly s t xs ∧
      t.pending = m' :: rest ∧ t.sq.reqActive = true ∧ t.sq.wr = s.sq.wr ∧ t.sq.waiting = false := by
  obtain ⟨f, k, j, hf⟩ := runMicro_plain (s := s.tick) (m := m) hh hm hx
  generalize hu : ({ s.tick with
      st := microStatus s.tick.st m
      wt := s.tick.wt ++ microEvents s.tick.mem m
      env := { s.tick.env with xferIn := xs, clockFloor := f, nClock := k, nStall := j } } : State) = u at hf
  have hup : u.pending = m :: m' :: rest := by rw [← hp, ← hu]; rfl
  obtain ⟨h1, h2⟩ := advance_more hup
  refine ⟨u.advance, by rw [step_micro hr hh ha hp, hf], ?_, ?_, h2, ?_, ?_, ?_⟩
  · rw [h1, ← hu]
    exact ⟨rfl, rfl, rfl, rfl, rfl, rfl, rfl, noReset_tail hr, by simp⟩
  · rw [h1, ← hu]
    exact ⟨rfl, rfl, rfl, rfl⟩
  · rw [h1, ← hu]
    exact ha
  · rw [h1, ← hu]
    rfl
  · rw [h1]

/-- The last micro-action of a request, if it is plain: the request ends with the result of its timed wait. -/
theorem step_plain_last {s : State} {m : Micro} {xs : List Bool} (hr : s.NoReset) (hh : s.HostWaits)
    (ha : s.sq.reqActive = true) (hp : s.pending = [m]) (hm : microPlain s.par m = true)
    (hx : s.env.xferIn = List.replicate (microSends m) true ++ xs) :
    ∃ t, step s = .next t ∧
      Moved s t (microEvents s.mem m) { microStatus s.st m with result := s.sq.wr } ∧ SentOnly s t xs ∧
      t.sq.reqActive = false ∧ t.sq.seq = [] ∧ t.sq.mpc = 0 := by
  obtain ⟨f, k, j, hf⟩ := runMicro_plain (s := s.tick) (m := m) hh hm hx
  generalize hu : ({ s.tick with
      st := microStatus s.tick.st m
      wt := s.tick.wt ++ microEvents s.tick.mem m
      env := { s.tick.env with xferIn := xs, clockFloor := f, nClock := k, nStall := j } } : State) = u at hf
  have hup : u.pending = [m] := by rw [← hp, ← hu]; rfl
  have h1 := advance_last hup
  refine ⟨u.advance, by rw [step_micro hr hh ha hp, hf], ?_, ?_, ?_, ?_, ?_⟩
  · rw [h1, ← hu]
    exact ⟨rfl, rfl, rfl, rfl, rfl, rfl, rfl, noReset_tail hr, by simp⟩
  · rw [h1, ← hu]
    exact ⟨rfl, rfl, rfl, rfl⟩
  all_goals (rw [h1]; rfl)

/-- A list of plain micro-actions with more of the sequence to run after it. -/
theorem run_plain {s : State} (ms : List Micro) {m' : Micro} {rest : List Micro} {xs : List Bool} (hr : s.NoReset) (hh : s.HostWaits)
    (ha : s.sq.reqActive = true) (hp : s.pending = ms ++ m' :: rest) (hm : ms.all (microPlain s.par) = true)
    (hx : s.env.xferIn = List.replicate (ms.map microSends).sum true ++ xs) (hw : s.sq.waiting = false) :
    ∃ t, runSteps ms.length s = .next t ∧ Moved s t (ms.flatMap (microEvents s.mem)) (ms.foldl microStatus s.st) ∧
      SentOnly s t xs ∧ t.pending = m' :: rest ∧ t.sq.reqActive = true ∧ t.sq.wr = s.sq.wr ∧ t.sq.waiting = false := by
  induction ms generalizing s with
  | nil => exact ⟨s, rfl, ⟨rfl, rfl, rfl, rfl, rfl, by simp, rfl, hr, rfl⟩, ⟨by simpa using hx, rfl, rfl, rfl⟩, hp, ha, rfl, hw⟩
  | cons m ms ih =>
    rw [List.all_cons, Bool.and_eq_true] at hm
    have hx' : s.env.xferIn = List.replicate (microSends m) true ++
        (List.replicate (ms.map microSends).sum true ++ xs) := by
      rw [hx, List.map_cons, List.sum_cons, List.replicate_add, List.append_assoc]
    obtain ⟨m2, rest2, hp2⟩ : ∃ m2 rest2, ms ++ m' :: rest = m2 :: rest2 := by
      cases ms with
      | nil => exact ⟨_, _, rfl⟩
      | cons a l => exact ⟨_, _, rfl⟩
    have hp' : s.pending = m :: m2 :: rest2 := by rw [hp, List.cons_append, hp2]
    obtain ⟨t, h1, h2, h3, h4, h5, h6, h7⟩ := step_plain hr hh ha hp' hm.1 hx'
    obtain ⟨u, g1, g2, g3, g4, g5, g6, g7⟩ := ih (s := t) h2.noReset (h2.waits hh) h5 (by rw [h4, hp2])
      (by rw [h2.par]; exact hm.2) h3.xferIn h7
    refine ⟨u, by rw [List.length_cons, runSteps_succ _ h1]; exact g1, ?_, h3.trans g3, g4, g5, g6.trans h6, g7⟩
    have := h2.trans g2
    rw [h2.mem, h2.st] at this
    exact this

/-! ### The waits -/

/-- The draws from `s` to `t`: busy-line reads and clock draws only, of which `bs` and `cs` are left. -/
structure PolledOnly (s t : State) (bs : List Bool) (cs : List Nat) : Prop where
  xferIn : t.env.xferIn = s.env.xferIn
  busyIn : t.env.busyIn = bs
  nBusy : t.env.nBusy = s.env.nBusy
  clockIn : t.env.clockIn = cs
  nClock : t.env.nClock = s.env.nClock

theorem PolledOnly.trans {s t u : State} {bs bs' : List Bool} {cs cs' : List Nat} (h : PolledOnly s t bs cs)
    (h' : PolledOnly t u bs' cs') : PolledOnly s u bs' cs' where
  xferIn := h'.xferIn.trans h.xferIn
  busyIn := h'.busyIn
  nBusy := h'.nBusy.trans h.nBusy
  clockIn := h'.clockIn
  nClock := h'.nClock.trans h.nClock

/-- The step that begins an untimed wait. -/
theorem step_waitIdle_enter {s : State} {rest : List Micro} (hr : s.NoReset) (hh : s.HostWaits) (ha : s.sq.reqActive = true)
    (hp : s.pending = .waitIdle :: rest) (hw : s.sq.waiting = false) :
    ∃ t, step s = .next t ∧ Moved s t [] s.st ∧ PolledOnly s t s.env.busyIn s.env.clockIn ∧
      t.pending = s.pending ∧ t.sq.reqActive = true ∧ t.sq.waiting = true ∧ t.sq.wr = s.sq.wr := by
  refine ⟨{ s.tick with sq := { s.sq with waiting := true } }, ?_, ?_, ⟨rfl, rfl, rfl, rfl, rfl⟩, rfl, ha, rfl, rfl⟩
  · rw [step_micro hr hh ha hp]
    exact congrArg _ (waitIdle_enter (s := s.tick) hw)
  · exact ⟨rfl, rfl, rfl, rfl, rfl, by simp, rfl, noReset_tail hr, by simp⟩

/-- Polls of an untimed wait that read busy: nothing but the trace and the busy line's draws moves. -/
theorem run_waitIdle_polls {s : State} {rest : List Micro} (k : Nat) {bs : List Bool} (hr : s.NoReset) (hh : s.HostWaits)
    (ha : s.sq.reqActive = true) (hp : s.pending = .waitIdle :: rest) (hw : s.sq.waiting = true)
    (hb : s.env.busyIn = List.replicate k true ++ bs) :
    ∃ t, runSteps k s = .next t ∧ Moved s t (List.replicate k (.poll true)) s.st ∧ PolledOnly s t bs s.env.clockIn ∧
      t.pending = s.pending ∧ t.sq.reqActive = true ∧ t.sq.waiting = true ∧ t.sq.wr = s.sq.wr := by
  induction k generalizing s with
  | zero => exact ⟨s, rfl, ⟨rfl, rfl, rfl, rfl, rfl, by simp, rfl, hr, rfl⟩, ⟨rfl, by simpa using hb, rfl, rfl, rfl⟩, rfl, ha, hw, rfl⟩
  | succ k ih =>
    have hd : s.tick.env.drawBusy = (true, { s.tick.env with busyIn := List.replicate k true ++ bs }) :=
      drawBusy_fixed (by rw [tick_env]; exact hb)
    have h1 : step s = .next s.tick.polled := by
      rw [step_micro hr hh ha hp]
      exact congrArg _ (waitIdle_again (s := s.tick) hw (by rw [hd]))
    have hm : Moved s s.tick.polled [.poll true] s.st :=
      ⟨rfl, rfl, rfl, rfl, rfl, by rw [polled_wt, hd]; rfl, rfl, by
        unfold State.NoReset
        rw [polled_env, hd]
        exact noReset_tail hr, by simp⟩
    have hpo : PolledOnly s s.tick.polled (List.replicate k true ++ bs) s.env.clockIn := by
      constructor <;> rw [polled_env, hd] <;> rfl
    obtain ⟨t, g1, g2, g3, g4, g5, g6, g7⟩ := ih hm.noReset (hm.waits hh) ha hp hw hpo.busyIn
    refine ⟨t, by rw [runSteps_succ k h1]; exact g1, ?_, ?_, g4, g5, g6, g7⟩
    · have := hm.trans g2
      rwa [hm.st] at this
    · have := hpo.trans g3
      rwa [hpo.clockIn] at this

/-- The poll of an untimed wait that reads not busy, with more of the sequence to run. -/
theorem step_waitIdle_exit {s : State} {m' : Micro} {rest : List Micro} {bs : List Bool} (hr : s.NoReset) (hh : s.HostWaits)
    (ha : s.sq.reqActive = true) (hp : s.pending = .waitIdle :: m' :: rest) (hw : s.sq.waiting = true)
    (hb : s.env.busyIn = false :: bs) :
    ∃ t, step s = .next t ∧ Moved s t [.poll false] { s.st with maybeBusy := false } ∧
      PolledOnly s t bs s.env.clockIn ∧
      t.pending = m' :: rest ∧ t.sq.reqActive = true ∧ t.sq.waiting = false ∧ t.sq.wr = s.sq.wr := by
  have hd : s.tick.env.drawBusy = (false, { s.tick.env with busyIn := bs }) :=
    drawBusy_fixed (by rw [tick_env]; exact hb)
  have h1 : step s = .next (s.tick.polled.exitWait false s.sq.wr) := by
    rw [step_micro hr hh ha hp]
    exact congrArg _ (waitIdle_exit (s := s.tick) hw (by rw [hd]))
  obtain ⟨e1, e2⟩ := advance_more (s := { s.tick.polled with
    st := { s.st with maybeBusy := false }, sq := { s.sq with wr := s.sq.wr } }) hp
  have hx : s.tick.polled.exitWait false s.sq.wr = State.advance { s.tick.polled with
    st := { s.st with maybeBusy := false }, sq := { s.sq with wr := s.sq.wr } } := rfl
  refine ⟨_, h1, ?_, ?_, ?_, ?_, ?_, ?_⟩
  · rw [hx, e1]
    exact ⟨rfl, rfl, rfl, rfl, rfl, by
      show s.tick.polled.wt = _
      rw [polled_wt, hd]
      rfl, rfl, by
      show ∀ b ∈ s.tick.polled.env.resetIn, b = false
      rw [polled_env, hd]
      exact noReset_tail hr, by simp⟩
  · constructor <;> rw [exitWait_env, polled_env, hd] <;> rfl
  · rw [hx, e2]
  · rw [hx, e1]
    exact ha
  · rw [hx, e1]
  · rw [hx, e1]

/-- A whole untimed wait that reads busy `k` times, with more of the sequence to run. -/
theorem run_waitIdle {s : State} {m' : Micro} {rest : List Micro} (k : Nat) {bs : List Bool} (hr : s.NoReset) (hh : s.HostWaits)
    (ha : s.sq.reqActive = true) (hp : s.pending = .waitIdle :: m' :: rest) (hw : s.sq.waiting = false)
    (hb : s.env.busyIn = List.replicate k true ++ false :: bs) :
    ∃ t, runSteps (k + 2) s = .next t ∧
      Moved s t (List.replicate k (.poll true) ++ [.poll false]) { s.st with maybeBusy := false } ∧
      PolledOnly s t bs s.env.clockIn ∧
      t.pending = m' :: rest ∧ t.sq.reqActive = true ∧ t.sq.waiting = false ∧ t.sq.wr = s.sq.wr := by
  obtain ⟨t1, a1, a2, a3, a4, a5, a6, a7⟩ := step_waitIdle_enter hr hh ha hp hw
  obtain ⟨t2, b1, b2, b3, b4, b5, b6, b7⟩ := run_waitIdle_polls (s := t1) (rest := m' :: rest) k (bs := false :: bs)
    a2.noReset (a2.waits hh) a5 (a4.trans hp) a6 (by rw [a3.busyIn, hb])
  obtain ⟨t3, c1, c2, c3, c4, c5, c6, c7⟩ := step_waitIdle_exit (s := t2) b2.noReset (b2.waits (a2.waits hh)) b5 (b4.trans (a4.trans hp)) b6
    b3.busyIn
  refine ⟨t3, ?_, ?_, ?_, c4, c5, c6, c7.trans (b7.trans a7)⟩
  · rw [show k + 2 = (k + 1) + 1 by omega, runSteps_succ _ a1, runSteps_add 1 b1, runSteps_succ 0 c1]
    rfl
  · have := a2.trans (b2.trans c2)
    rw [b2.st, a2.st] at this
    exact this
  · have := a3.trans (b3.trans c3)
    rw [b3.clockIn, a3.clockIn] at this
    exact this

/-- The step that begins a timed wait. -/
theorem step_waitTimed_enter {s : State} {rest : List Micro} {budget d : Nat} {cs : List Nat} (hr : s.NoReset) (hh : s.HostWaits)
    (ha : s.sq.reqActive = true) (hp : s.pending = .waitIdleTimed budget :: rest) (hw : s.sq.waiting = false)
    (hc : s.env.clockIn = d :: cs) :
    ∃ t, step s = .next t ∧ Moved s t [] s.st ∧ PolledOnly s t s.env.busyIn cs ∧
      t.pending = s.pending ∧ t.sq.reqActive = true ∧ t.sq.waiting = true ∧
      t.sq.waitT0 = s.env.clockFloor + d ∧ t.env.clockFloor = s.env.clockFloor + d := by
  have hd : s.tick.env.drawClock = (s.env.clockFloor + d,
      { s.tick.env with clockIn := cs, clockFloor := s.env.clockFloor + d, clockRead := true }) :=
    drawClock_fixed (e := s.tick.env) hc
  refine ⟨{ s.tick with
      env := s.tick.env.drawClock.2
      sq := { s.sq with waitT0 := (s.tick.env.drawClock.1 : Int), waiting := true } }, ?_, ?_, ?_, rfl, ha, rfl, ?_, ?_⟩
  · rw [step_micro hr hh ha hp]
    exact congrArg _ (waitTimed_enter (s := s.tick) budget hw)
  · exact ⟨rfl, rfl, rfl, rfl, rfl, by simp, rfl, by
      show ∀ b ∈ s.tick.env.drawClock.2.resetIn, b = false
      rw [hd]
      exact noReset_tail hr, by simp⟩
  · constructor
    · show s.tick.env.drawClock.2.xferIn = _
      rw [hd]
      rfl
    · show s.tick.env.drawClock.2.busyIn = _
      rw [hd]
      rfl
    · show s.tick.env.drawClock.2.nBusy = _
      rw [hd]
      rfl
    · show s.tick.env.drawClock.2.clockIn = _
      rw [hd]
    · show s.tick.env.drawClock.2.nClock = _
      rw [hd]
      rfl
  · show ((s.tick.env.drawClock.1 : Nat) : Int) = _
    rw [hd]
    push_cast
    rfl
  · show s.tick.env.drawClock.2.clockFloor = _
    rw [hd]

/-- A timed wait may also begin on a free clock draw. -/
theorem step_waitTimed_enter_free {s : State} {rest : List Micro} {budget : Nat} (hr : s.NoReset) (hh : s.HostWaits)
    (ha : s.sq.reqActive = true) (hp : s.pending = .waitIdleTimed budget :: rest) (hw : s.sq.waiting = false) :
    ∃ t, step s = .next t ∧ Moved s t [] s.st ∧ t.env.xferIn = s.env.xferIn ∧ t.env.busyIn = s.env.busyIn ∧
      t.pending = s.pending ∧ t.sq.reqActive = true ∧ t.sq.waiting = true := by
  obtain ⟨-, l, n, k, hd⟩ := drawClock_keeps s.tick.env
  refine ⟨{ s.tick with
      env := s.tick.env.drawClock.2
      sq := { s.sq with waitT0 := (s.tick.env.drawClock.1 : Int), waiting := true } }, ?_, ?_, ?_, ?_, rfl, ha, rfl⟩
  · rw [step_micro hr hh ha hp]
    exact congrArg _ (waitTimed_enter (s := s.tick) budget hw)
  · exact ⟨rfl, rfl, rfl, rfl, rfl, by simp, rfl, by
      show ∀ b ∈ s.tick.env.drawClock.2.resetIn, b = false
      rw [hd]
      exact noReset_tail hr, by simp⟩
  · show s.tick.env.drawClock.2.xferIn = _
    rw [hd]
    rfl
  · show s.tick.env.drawClock.2.busyIn = _
    rw [hd]
    rfl

/-- Polls of a timed wait that read busy before the clock has reached the budget. -/
theorem run_waitTimed_polls {s : State} {rest : List Micro} {budget : Nat} (ds : List Nat) {bs : List Bool}
    {cs : List Nat} (hr : s.NoReset) (hh : s.HostWaits) (ha : s.sq.reqActive = true) (hp : s.pending = .waitIdleTimed budget :: rest)
    (hw : s.sq.waiting = true) (hb : s.env.busyIn = List.replicate ds.length true ++ bs)
    (hc : s.env.clockIn = ds ++ cs)
    (hlt : ds = [] ∨ (s.env.clockFloor : Int) + ds.sum - s.sq.waitT0 < budget) :
    ∃ t, runSteps ds.length s = .next t ∧ Moved s t (List.replicate ds.length (.poll true)) s.st ∧
      PolledOnly s t bs cs ∧ t.pending = s.pending ∧ t.sq.reqActive = true ∧ t.sq.waiting = true ∧
      t.sq.waitT0 = s.sq.waitT0 ∧ t.env.clockFloor = s.env.clockFloor + ds.sum := by
  induction ds generalizing s with
  | nil =>
    exact ⟨s, rfl, ⟨rfl, rfl, rfl, rfl, rfl, by simp, rfl, hr, rfl⟩,
      ⟨rfl, by simpa using hb, rfl, by simpa using hc, rfl⟩, rfl, ha, hw, rfl, rfl⟩
  | cons d ds ih =>
    have hd : s.tick.env.drawBusy = (true, { s.tick.env with busyIn := List.replicate ds.length true ++ bs }) :=
      drawBusy_fixed (by rw [tick_env]; exact hb)
    have hk : s.tick.polled.env.drawClock = (s.env.clockFloor + d, { s.tick.env with
        busyIn := List.replicate ds.length true ++ bs
        clockIn := ds ++ cs
        clockFloor := s.env.clockFloor + d
        clockRead := true }) := by
      rw [drawClock_fixed (e := s.tick.polled.env) (d := d) (rest := ds ++ cs)] <;> rw [polled_env, hd]
      · rfl
      · exact hc
    have hsum : (s.env.clockFloor : Int) + d + ds.sum - s.sq.waitT0 < budget := by
      rcases hlt with h | h
      · cases h
      · rw [List.sum_cons] at h
        simp only [Nat.cast_add] at h
        omega
    have h1 : step s = .next { s.tick.polled with env := s.tick.polled.env.drawClock.2 } := by
      rw [step_micro hr hh ha hp]
      refine congrArg _ (waitTimed_again (s := s.tick) hw (by rw [hd]) ?_)
      rw [hk]
      show ¬ (budget : Int) ≤ ((s.env.clockFloor + d : Nat) : Int) - s.sq.waitT0
      simp only [Nat.cast_add]
      have : 0 ≤ (ds.sum : Int) := Int.natCast_nonneg _
      omega
    have hm : Moved s { s.tick.polled with env := s.tick.polled.env.drawClock.2 } [.poll true] s.st :=
      ⟨rfl, rfl, rfl, rfl, rfl, by
        show s.tick.polled.wt = _
        rw [polled_wt, hd]
        rfl, rfl, by
        unfold State.NoReset
        dsimp only
        rw [hk]
        exact noReset_tail hr, by simp⟩
    have hpo : PolledOnly s { s.tick.polled with env := s.tick.polled.env.drawClock.2 }
        (List.replicate ds.length true ++ bs) (ds ++ cs) := by
      constructor <;> dsimp only <;> rw [hk] <;> rfl
    have hfl : ({ s.tick.polled with env := s.tick.polled.env.drawClock.2 } : State).env.clockFloor =
        s.env.clockFloor + d := by
      dsimp only
      rw [hk]
    obtain ⟨t, g1, g2, g3, g4, g5, g6, g7, g8⟩ := ih (s := { s.tick.polled with env := s.tick.polled.env.drawClock.2 })
      hm.noReset (hm.waits hh) ha hp hw hpo.busyIn hpo.clockIn (by
        right
        rw [hfl]
        show ((s.env.clockFloor + d : Nat) : Int) + ds.sum - s.sq.waitT0 < budget
        simp only [Nat.cast_add]
        exact hsum)
    refine ⟨t, by rw [List.length_cons, runSteps_succ _ h1]; exact g1, ?_, hpo.trans g3, g4, g5, g6, g7, ?_⟩
    · have := hm.trans g2
      rwa [hm.st] at this
    · rw [g8, hfl, List.sum_cons]
      omega

/-- The state in which a wait ends, before `MPC` advances. -/
def State.waited (s : State) (maybeBusy : Bool) (wr : ResultCode) : State :=
  { s with st := { s.st with maybeBusy := maybeBusy }, sq := { s.sq with wr := wr } }

theorem exitWait_eq (s : State) (b : Bool) (r : ResultCode) : s.exitWait b r = (s.waited b r).advance := rfl

/-- The poll of a timed wait that reads not busy. -/
theorem step_waitTimed_exit {s : State} {rest : List Micro} {budget : Nat} {bs : List Bool} (hr : s.NoReset) (hh : s.HostWaits)
    (ha : s.sq.reqActive = true) (hp : s.pending = .waitIdleTimed budget :: rest) (hw : s.sq.waiting = true)
    (hb : s.env.busyIn = false :: bs) :
    ∃ t, step s = .next (t.waited false .ok).advance ∧ Moved s t [.poll false] s.st ∧
      PolledOnly s t bs s.env.clockIn ∧ t.sq = s.sq := by
  have hd : s.tick.env.drawBusy = (false, { s.tick.env with busyIn := bs }) :=
    drawBusy_fixed (by rw [tick_env]; exact hb)
  refine ⟨s.tick.polled, ?_, ?_, ?_, rfl⟩
  · rw [step_micro hr hh ha hp, ← exitWait_eq]
    exact congrArg _ (waitTimed_exit (s := s.tick) budget hw (by rw [hd]))
  · exact ⟨rfl, rfl, rfl, rfl, rfl, by
      rw [polled_wt, hd]
      rfl, rfl, by
      unfold State.NoReset
      rw [polled_env, hd]
      exact noReset_tail hr, by simp⟩
  · constructor <;> rw [polled_env, hd] <;> rfl

/-- The poll of a timed wait that reads busy when the clock has reached the budget. -/
theorem step_waitTimed_timeout {s : State} {rest : List Micro} {budget d : Nat} {bs : List Bool} {cs : List Nat}
    (hr : s.NoReset) (hh : s.HostWaits) (ha : s.sq.reqActive = true) (hp : s.pending = .waitIdleTimed budget :: rest)
    (hw : s.sq.waiting = true) (hb : s.env.busyIn = true :: bs) (hc : s.env.clockIn = d :: cs)
    (hge : (budget : Int) ≤ (s.env.clockFloor : Int) + d - s.sq.waitT0) :
    ∃ t, step s = .next ((t.log .timeout).waited true .timeout).advance ∧ Moved s t [.poll true] s.st ∧
      PolledOnly s t bs cs ∧ t.sq = s.sq := by
  have hd : s.tick.env.drawBusy = (true, { s.tick.env with busyIn := bs }) :=
    drawBusy_fixed (by rw [tick_env]; exact hb)
  have hk : s.tick.polled.env.drawClock = (s.env.clockFloor + d, { s.tick.env with
      busyIn := bs
      clockIn := cs
      clockFloor := s.env.clockFloor + d
      clockRead := true }) := by
    rw [drawClock_fixed (e := s.tick.polled.env) (d := d) (rest := cs)] <;> rw [polled_env, hd]
    · rfl
    · exact hc
  refine ⟨{ s.tick.polled with env := s.tick.polled.env.drawClock.2 }, ?_, ?_, ?_, rfl⟩
  · rw [step_micro hr hh ha hp, ← exitWait_eq]
    refine congrArg _ (waitTimed_timeout (s := s.tick) hw (by rw [hd]) ?_)
    rw [hk]
    show (budget : Int) ≤ ((s.env.clockFloor + d : Nat) : Int) - s.sq.waitT0
    push_cast
    exact hge
  · exact ⟨rfl, rfl, rfl, rfl, rfl, by
      show s.tick.polled.wt = _
      rw [polled_wt, hd]
      rfl, rfl, by
      unfold State.NoReset
      dsimp only
      rw [hk]
      exact noReset_tail hr, by simp⟩
  · constructor <;> dsimp only <;> rw [hk] <;> rfl

end Sys2Proof.Machine
end

