-- ==== Sys2Proof/Laws/Micro.lean ====
section
/-! SUPPORT. Everything one step of a micro-action can do, said once: it stays at a wait, completes, fails to send, or
finds its stream past the end of memory. -/

namespace Sys2Proof.Machine

theorem drawBusy_elapsed (p : Params) (e : Env) (m : Memory) : Elapsed p e m e.drawBusy.2 m := by
  obtain ⟨l, n, h⟩ := drawBusy_keeps e
  rw [h]
  exact ⟨List.suffix_rfl, rfl, le_refl _, id, fun _ h => .inr h, fun _ _ => rfl, fun _ => ⟨rfl, rfl⟩⟩

theorem drawClock_elapsed (p : Params) (e : Env) (m : Memory) : Elapsed p e m e.drawClock.2 m := by
  obtain ⟨hle, l, n, k, h⟩ := drawClock_keeps e
  rw [h]
  exact ⟨List.suffix_rfl, rfl, hle, id, fun _ h => .inr h, fun _ _ => rfl, fun _ => ⟨rfl, rfl⟩⟩

theorem delay_elapsed (p : Params) (e : Env) (m : Memory) (ms : Nat) : Elapsed p e m (e.delay ms) m := by
  unfold Env.delay
  split
  · exact ⟨List.suffix_rfl, rfl, Nat.le_add_right _ _, id, fun _ h => .inr h, fun _ _ => rfl, fun _ => ⟨rfl, rfl⟩⟩
  · exact Elapsed.refl p e m

/-- The events a micro-action may emit: its own byte, data bytes for a stream, its own line or delay, polls for a wait. -/
def mayEmit : Micro → Event → Bool
  | .sendCmd b, .cmd b' => b == b'
  | .sendData v, .data v' => v == v'
  | .stream _ _, .data _ => true
  | .rst l, .rst l' => l == l'
  | .delay ms, .delay ms' => ms == ms'
  | .waitIdle, .poll _ => true
  | .waitIdleTimed _, .poll _ => true
  | _, _ => false

/-- A micro-action made of sends. -/
def isSend : Micro → Bool
  | .sendCmd _ => true
  | .sendData _ => true
  | .stream _ _ => true
  | .rst _ => false
  | .delay _ => false
  | .waitIdle => false
  | .waitIdleTimed _ => false
  | .setState _ => false

/-- The state when a micro-action is complete, before `MPC` advances. -/
def State.afterMicro (s : State) (m : Micro) (mb : Bool) (wr : ResultCode) (es : List Event)
    (ls : List (ErrorKind × Byte)) (e : Env) (mem : Memory) : State :=
  { s with
    mem := mem
    st := { microStatus s.st m with maybeBusy := mb }
    sq := { s.sq with wr := wr }
    wt := s.wt ++ es
    el := s.el ++ ls
    env := e }

/-- Everything a step of a micro-action can do, once the host has made its move. -/
inductive MicroStep (s : State) (m : Micro) : State → Prop where
  /-- a wait begins, or polls on -/
  | stays (t0 : Int) (es : List Event) (e : Env) (hm : isWait m = true) (hes : ∀ x ∈ es, mayEmit m x = true)
      (he : Elapsed s.par s.env s.mem e s.mem) :
      MicroStep s m { s with sq := { s.sq with waitT0 := t0, waiting := true }, wt := s.wt ++ es, env := e }
  /-- the micro-action completes; only a wait writes `MAYBE_BUSY`, and only a timed wait the request's result -/
  | completes (mb : Bool) (wr : ResultCode) (es : List Event) (ls : List (ErrorKind × Byte)) (e : Env) (mem : Memory)
      (hmb : isWait m = false → mb = s.st.maybeBusy)
      (hwr : (∀ t, m ≠ .waitIdleTimed t) → wr = s.sq.wr ∧ ls = [])
      (hes : ∀ x ∈ es, mayEmit m x = true) (he : Elapsed s.par s.env s.mem e mem) :
      MicroStep s m (s.afterMicro m mb wr es ls e mem).advance
  /-- a send fails -/
  | fails (k : SendKind) (b : Byte) (es : List Event) (e : Env) (mem : Memory) (hm : isSend m = true)
      (hes : ∀ x ∈ es, mayEmit m x = true) (he : Elapsed s.par s.env s.mem e mem) :
      MicroStep s m (State.transportFail { s with mem := mem, wt := s.wt ++ es, env := e } k b)
  /-- a stream passes the end of memory -/
  | overruns (q : Addr) (n : Nat) (hm : m = .stream q n) (hf : streamFits s.par q n = false) :
      MicroStep s m (s.raiseFault .bufferOverrun)

/-- A step of a micro-action is one of the four. -/
theorem runMicro_cases (s : State) (m : Micro) : MicroStep s m (s.runMicro m) := by
  cases m with
  | sendCmd b =>
    simp only [State.runMicro, State.runSendCmd]
    rcases send_cases s .cmd b with h | h <;> rw [h]
    · have := MicroStep.completes (s := s) (m := .sendCmd b) s.st.maybeBusy s.sq.wr [.cmd b] [] s.env.drawXfer.2 s.mem
        (fun _ => rfl) (fun _ => ⟨rfl, rfl⟩) (by simp [mayEmit]) (drawXfer_elapsed s.par s.env s.mem)
      simpa [State.afterMicro, microStatus, completeSends, State.emit, SendKind.event] using this
    · have := MicroStep.fails (s := s) (m := .sendCmd b) .cmd b [] s.env.drawXfer.2 s.mem rfl (by simp) (drawXfer_elapsed s.par s.env s.mem)
      simpa [completeSends] using this
  | sendData b =>
    simp only [State.runMicro, State.runSendData]
    rcases send_cases s .data b with h | h <;> rw [h]
    · have := MicroStep.completes (s := s) (m := .sendData b) s.st.maybeBusy s.sq.wr [.data b] [] s.env.drawXfer.2 s.mem
        (fun _ => rfl) (fun _ => ⟨rfl, rfl⟩) (by simp [mayEmit]) (drawXfer_elapsed s.par s.env s.mem)
      simpa [State.afterMicro, microStatus, completeSends, State.emit, SendKind.event] using this
    · have := MicroStep.fails (s := s) (m := .sendData b) .data b [] s.env.drawXfer.2 s.mem rfl (by simp) (drawXfer_elapsed s.par s.env s.mem)
      simpa [completeSends] using this
  | stream q n =>
    simp only [State.runMicro, State.runStream]
    cases hf : streamFits s.par q n
    · exact MicroStep.overruns q n rfl hf
    · simp only [if_true]
      rcases sendBytes_cases n q.toNat s with ⟨e, he, h⟩ | ⟨e, j, _, he, h⟩ <;> rw [h]
      · have := MicroStep.completes (s := s) (m := .stream q n) s.st.maybeBusy s.sq.wr
          ((List.range n).map fun i => .data (s.heldAt (i + 1) (q.toNat + i))) [] e _
          (fun _ => rfl) (fun _ => ⟨rfl, rfl⟩) (by
            simp only [List.mem_map]
            rintro x ⟨i, _, rfl⟩
            rfl) he
        simpa [State.afterMicro, microStatus, completeSends] using this
      · have := MicroStep.fails (s := s) (m := .stream q n) .data (s.heldAt (j + 1) (q.toNat + j))
          ((List.range j).map fun i => .data (s.heldAt (i + 1) (q.toNat + i))) e _ rfl (by
            simp only [List.mem_map]
            rintro x ⟨i, _, rfl⟩
            rfl) he
        simpa [completeSends] using this
  | rst l =>
    have := MicroStep.completes (s := s) (m := .rst l) s.st.maybeBusy s.sq.wr [.rst l] [] s.env s.mem
      (fun _ => rfl) (fun _ => ⟨rfl, rfl⟩) (by simp [mayEmit]) (Elapsed.refl _ _ _)
    simpa [State.afterMicro, microStatus, State.runMicro, State.runRst, State.emit] using this
  | delay ms =>
    have := MicroStep.completes (s := s) (m := .delay ms) s.st.maybeBusy s.sq.wr [.delay ms] [] (s.env.delay ms) s.mem
      (fun _ => rfl) (fun _ => ⟨rfl, rfl⟩) (by simp [mayEmit]) (delay_elapsed s.par s.env s.mem ms)
    simpa [State.afterMicro, microStatus, State.runMicro, State.runDelay, State.emit] using this
  | setState d =>
    have := MicroStep.completes (s := s) (m := .setState d) s.st.maybeBusy s.sq.wr [] [] s.env s.mem
      (fun _ => rfl) (fun _ => ⟨rfl, rfl⟩) (by simp) (Elapsed.refl _ _ _)
    simpa [State.afterMicro, microStatus, State.runMicro, State.runSetState] using this
  | waitIdle =>
    simp only [State.runMicro]
    rcases waitIdle_cases s with ⟨_, h⟩ | ⟨hw, _, h⟩ | ⟨_, _, h⟩ <;> rw [h]
    · have := MicroStep.stays (s := s) (m := .waitIdle) s.sq.waitT0 [] s.env rfl (by simp) (Elapsed.refl _ _ _)
      simpa using this
    · have := MicroStep.stays (s := s) (m := .waitIdle) s.sq.waitT0 [.poll s.env.drawBusy.1] s.env.drawBusy.2 rfl
        (by simp [mayEmit]) (drawBusy_elapsed s.par s.env s.mem)
      rw [← hw] at this
      exact this
    · have := MicroStep.completes (s := s) (m := .waitIdle) false s.sq.wr [.poll s.env.drawBusy.1] [] s.env.drawBusy.2 s.mem
        (fun h => by cases h) (fun _ => ⟨rfl, rfl⟩) (by simp [mayEmit]) (drawBusy_elapsed s.par s.env s.mem)
      simpa [State.afterMicro, microStatus, exitWait_eq, State.waited, State.polled, State.emit] using this
  | waitIdleTimed t =>
    simp only [State.runMicro]
    rcases waitTimed_cases s t with ⟨_, h⟩ | ⟨_, _, h⟩ | ⟨hw, _, _, h⟩ | ⟨_, _, _, h⟩ <;> rw [h]
    · have := MicroStep.stays (s := s) (m := .waitIdleTimed t) (s.env.drawClock.1 : Int) [] s.env.drawClock.2 rfl
        (by simp) (drawClock_elapsed s.par s.env s.mem)
      simpa using this
    · have := MicroStep.completes (s := s) (m := .waitIdleTimed t) false .ok [.poll s.env.drawBusy.1] []
        s.env.drawBusy.2 s.mem (fun h => by cases h) (fun h => absurd rfl (h t)) (by simp [mayEmit]) (drawBusy_elapsed s.par s.env s.mem)
      simpa [State.afterMicro, microStatus, exitWait_eq, State.waited, State.polled, State.emit] using this
    · have := MicroStep.stays (s := s) (m := .waitIdleTimed t) s.sq.waitT0 [.poll s.env.drawBusy.1]
        s.env.drawBusy.2.drawClock.2 rfl (by simp [mayEmit]) ((drawBusy_elapsed s.par s.env s.mem).trans (drawClock_elapsed _ _ _))
      rw [← hw] at this
      exact this
    · have := MicroStep.completes (s := s) (m := .waitIdleTimed t) true .timeout [.poll s.env.drawBusy.1]
        [(.timeout, s.reqOpcode)] s.env.drawBusy.2.drawClock.2 s.mem (fun h => by cases h) (fun h => absurd rfl (h t))
        (by simp [mayEmit]) ((drawBusy_elapsed s.par s.env s.mem).trans (drawClock_elapsed _ _ _))
      exact this

end Sys2Proof.Machine
end

