-- ==== Sys2Proof/Laws/PerInstr.lean ====
section
/-! SUPPORT. The family OpcodeField: each instruction's code carries the opcode of its row of the opcode table, one
lemma for each constructor. -/

namespace Sys2Proof.Laws.OpcodeField

/-- A request's word has its opcode in `OP` and zero in `Z`; a wire command's micro-actions begin with `SendCmd` of its
byte (30_encoding.md R100, R102, R110, R111). -/
def Statement (i : Instr) : Prop :=
  match Machine.requestOpcode i with
  | some op => ∃ w, encodeRequest i = some w ∧ reqOp w = op ∧ reqZ w = 0
  | none => encodeRequest i = none ∧
      ∀ p, ∃ b ms, Machine.commandByte p.cmds i = some b ∧ encodeWire p i = .sendCmd b :: ms

theorem construct (color : Byte) (width : Coord) (height : Coord) (rot : Coord) (hasBuffer : Bool) (base : Addr) : Statement (.construct color width height rot hasBuffer base) :=
  ⟨_, rfl, reqOp_reqWord .., reqZ_reqWord ..⟩
theorem setBuffer (base : Addr) : Statement (.setBuffer base) :=
  ⟨_, rfl, reqOp_reqWord .., reqZ_reqWord ..⟩
theorem setRotation (rot : Coord) : Statement (.setRotation rot) :=
  ⟨_, rfl, reqOp_reqWord .., reqZ_reqWord ..⟩
theorem setMirror (mode : Byte) : Statement (.setMirror mode) :=
  ⟨_, rfl, reqOp_reqWord .., reqZ_reqWord ..⟩
theorem setDensity (scale : Byte) : Statement (.setDensity scale) :=
  ⟨_, rfl, reqOp_reqWord .., reqZ_reqWord ..⟩
theorem clear (color : Byte) : Statement (.clear color) :=
  ⟨_, rfl, reqOp_reqWord .., reqZ_reqWord ..⟩
theorem clearArea (color : Byte) (x : Coord) (y : Coord) (w : Coord) (h : Coord) : Statement (.clearArea color x y w h) :=
  ⟨_, rfl, reqOp_reqWord .., reqZ_reqWord ..⟩
theorem drawPixel (color : Byte) (x : Coord) (y : Coord) : Statement (.drawPixel color x y) :=
  ⟨_, rfl, reqOp_reqWord .., reqZ_reqWord ..⟩
theorem readPixel (x : Coord) (y : Coord) : Statement (.readPixel x y) :=
  ⟨_, rfl, reqOp_reqWord .., reqZ_reqWord ..⟩
theorem windowCalc (x : Coord) (y : Coord) (w : Coord) (h : Coord) : Statement (.windowCalc x y w h) :=
  ⟨_, rfl, reqOp_reqWord .., reqZ_reqWord ..⟩
theorem init : Statement (.init) :=
  ⟨_, rfl, reqOp_reqWord .., reqZ_reqWord ..⟩
theorem refreshFull (image : Addr) : Statement (.refreshFull image) :=
  ⟨_, rfl, reqOp_reqWord .., reqZ_reqWord ..⟩
theorem refreshPartial (x : Coord) (y : Coord) (w : Coord) (h : Coord) (sub : Addr) : Statement (.refreshPartial x y w h sub) :=
  ⟨_, rfl, reqOp_reqWord .., reqZ_reqWord ..⟩
theorem refreshFast (image : Addr) : Statement (.refreshFast image) :=
  ⟨_, rfl, reqOp_reqWord .., reqZ_reqWord ..⟩
theorem deepSleep : Statement (.deepSleep) :=
  ⟨_, rfl, reqOp_reqWord .., reqZ_reqWord ..⟩
theorem cmdSwReset : Statement (.cmdSwReset) :=
  ⟨rfl, fun _ => ⟨_, _, rfl, rfl⟩⟩
theorem cmdDriverOutput (d0 : Byte) (d1 : Byte) (d2 : Byte) : Statement (.cmdDriverOutput d0 d1 d2) :=
  ⟨rfl, fun _ => ⟨_, _, rfl, rfl⟩⟩
theorem cmdDataEntry (d : Byte) : Statement (.cmdDataEntry d) :=
  ⟨rfl, fun _ => ⟨_, _, rfl, rfl⟩⟩
theorem cmdRamXRange (xs : Byte) (xe : Byte) : Statement (.cmdRamXRange xs xe) :=
  ⟨rfl, fun _ => ⟨_, _, rfl, rfl⟩⟩
theorem cmdRamYRange (ysl : Byte) (ysh : Byte) (yel : Byte) (yeh : Byte) : Statement (.cmdRamYRange ysl ysh yel yeh) :=
  ⟨rfl, fun _ => ⟨_, _, rfl, rfl⟩⟩
theorem cmdBorder (d : Byte) : Statement (.cmdBorder d) :=
  ⟨rfl, fun _ => ⟨_, _, rfl, rfl⟩⟩
theorem cmdTempSensor (d : Byte) : Statement (.cmdTempSensor d) :=
  ⟨rfl, fun _ => ⟨_, _, rfl, rfl⟩⟩
theorem cmdRamXCounter (d : Byte) : Statement (.cmdRamXCounter d) :=
  ⟨rfl, fun _ => ⟨_, _, rfl, rfl⟩⟩
theorem cmdRamYCounter (lo : Byte) (hi : Byte) : Statement (.cmdRamYCounter lo hi) :=
  ⟨rfl, fun _ => ⟨_, _, rfl, rfl⟩⟩
theorem cmdWriteRam (p : Addr) (n : Nat) : Statement (.cmdWriteRam p n) :=
  ⟨rfl, fun _ => ⟨_, _, rfl, rfl⟩⟩
theorem cmdUpdCtrl2 (d : Byte) : Statement (.cmdUpdCtrl2 d) :=
  ⟨rfl, fun _ => ⟨_, _, rfl, rfl⟩⟩
theorem cmdMasterAct : Statement (.cmdMasterAct) :=
  ⟨rfl, fun _ => ⟨_, _, rfl, rfl⟩⟩
theorem cmdDeepSleep (d : Byte) : Statement (.cmdDeepSleep d) :=
  ⟨rfl, fun _ => ⟨_, _, rfl, rfl⟩⟩

end Sys2Proof.Laws.OpcodeField
end

