-- ==== Sys2Proof/Laws/Pixel.lean ====
section
/-! SUPPORT. What the pixel writer and reader do, bit by bit: the masks, one drawn pixel, one read pixel, and which
bits two pixels share. -/

namespace Sys2Proof.Machine

/-! ### Bits of the masks -/

theorem one_shl_bit {k b : Nat} (hk : k < 8) (hb : b < 8) : (1#8 <<< k).getLsbD b = decide (b = k) := by
  have h : ∀ k < 8, ∀ b < 8, (1#8 <<< k).getLsbD b = decide (b = k) := by decide
  exact h k hk b hb

theorem mask2_bit (xm : Nat) {b : Nat} (hb : b < 8) : (mask2 xm).getLsbD b = decide (b = 7 - xm % 8) := by
  have h : ∀ k < 8, ∀ b < 8, (0x80#8 >>> k).getLsbD b = decide (b = 7 - k) := by decide
  exact h (xm % 8) (Nat.mod_lt _ (by omega)) b hb

theorem mask4_bit (xm : Nat) {b : Nat} (hb : b < 8) :
    (3#8 <<< shift4 xm).getLsbD b = (decide (b = shift4 xm) || decide (b = shift4 xm + 1)) := by
  have h : ∀ k < 4, ∀ b < 8,
      (3#8 <<< (6 - 2 * k)).getLsbD b = (decide (b = 6 - 2 * k) || decide (b = 6 - 2 * k + 1)) := by decide
  exact h (xm % 4) (Nat.mod_lt _ (by omega)) b hb

/-- Density 2: the pixel's bit takes the colour, the other seven stay (42_pixel.md R192). -/
theorem newByte2_bit (p : Params) (xm : Nat) (c v : Byte) {b : Nat} (hb : b < 8) :
    (newByte2 p xm c v).getLsbD b = if b = 7 - xm % 8 then decide (c ≠ p.colorBlack) else v.getLsbD b := by
  have hm := mask2_bit xm hb
  unfold newByte2
  split
  · rename_i hc
    rw [BitVec.getLsbD_and, BitVec.getLsbD_not, hm]
    by_cases h : b = 7 - xm % 8 <;> simp [h, hb, hc]
  · rename_i hc
    rw [BitVec.getLsbD_or, hm]
    by_cases h : b = 7 - xm % 8 <;> simp [h, hc]

/-- Density 4: the two bits of the field take the low bits of the colour (42_pixel.md R195). -/
theorem newByte4_bit (xm : Nat) (c v : Byte) {b : Nat} (hb : b < 8) :
    (newByte4 xm c v).getLsbD b =
      if b = shift4 xm then c.getLsbD 0 else if b = shift4 xm + 1 then c.getLsbD 1 else v.getLsbD b := by
  have h3 : ∀ i, (3#8).getLsbD i = decide (i < 2) := by
    intro i
    by_cases hi : i < 8
    · have h : ∀ i < 8, (3#8).getLsbD i = decide (i < 2) := by decide
      exact h i hi
    · rw [BitVec.getLsbD_of_ge _ _ (by omega)]
      symm
      simp
      omega
  unfold newByte4
  rw [BitVec.getLsbD_or, BitVec.getLsbD_and, BitVec.getLsbD_not, mask4_bit xm hb, BitVec.getLsbD_shiftLeft,
    BitVec.getLsbD_and, h3]
  by_cases h0 : b = shift4 xm
  · subst h0
    simp [hb]
  · by_cases h1 : b = shift4 xm + 1
    · subst h1
      simp [hb]
    · by_cases h2 : b < shift4 xm
      · simp [h0, h1, h2, hb]
      · simp [h0, h1, hb, show ¬ b - shift4 xm < 2 by omega]

/-! ### Density 7: the bits of one byte of a group -/

theorem bitOfPos_lt (g : Nat) : bitOfPos g < 8 := by unfold bitOfPos; omega

theorem slotPos_lt (sl : D7Slot) (j : Nat) : slotPos sl j < 24 := by
  unfold slotPos
  split <;> omega

/-- The bits of an OR of single bits. -/
theorem foldl_or_bit (f : Nat → Bool) (k : Nat → Nat) (hk : ∀ j, k j < 8) (l : List Nat) (m : Byte) {b : Nat}
    (hb : b < 8) :
    (l.foldl (fun m j => if f j then m ||| 1#8 <<< k j else m) m).getLsbD b = true ↔
      m.getLsbD b = true ∨ ∃ j ∈ l, f j = true ∧ k j = b := by
  induction l generalizing m with
  | nil => simp
  | cons j l ih =>
    rw [List.foldl_cons, ih]
    by_cases hf : f j = true
    · rw [if_pos hf, BitVec.getLsbD_or, one_shl_bit (hk j) hb]
      constructor
      · rintro (h | ⟨i, hi, h⟩)
        · rcases Bool.or_eq_true _ _ |>.mp h with h | h
          · exact .inl h
          · exact .inr ⟨j, List.mem_cons_self, hf, (of_decide_eq_true h).symm⟩
        · exact .inr ⟨i, List.mem_cons_of_mem _ hi, h⟩
      · rintro (h | ⟨i, hi, h1, h2⟩)
        · exact .inl (by simp [h])
        · rcases List.mem_cons.1 hi with rfl | hi
          · exact .inl (by simp [h2])
          · exact .inr ⟨i, hi, h1, h2⟩
    · rw [if_neg hf]
      constructor
      · rintro (h | ⟨i, hi, h⟩)
        · exact .inl h
        · exact .inr ⟨i, List.mem_cons_of_mem _ hi, h⟩
      · rintro (h | ⟨i, hi, h1, h2⟩)
        · exact .inl h
        · rcases List.mem_cons.1 hi with rfl | hi
          · exact absurd h1 hf
          · exact .inr ⟨i, hi, h1, h2⟩

theorem mem_slotBitsIn (sl : D7Slot) (o j : Nat) : j ∈ slotBitsIn sl o ↔ j < 3 ∧ slotPos sl j / 8 = o := by
  unfold slotBitsIn
  simp only [List.mem_filter, List.mem_cons, List.not_mem_nil, or_false, beq_iff_eq]
  omega

/-- The bits of one byte's mask: the places of the value bits in it (42_pixel.md R198). -/
theorem slotMaskIn_bit (sl : D7Slot) (o : Nat) {b : Nat} (hb : b < 8) :
    (slotMaskIn sl o).getLsbD b = true ↔ ∃ j, j < 3 ∧ slotPos sl j / 8 = o ∧ bitOfPos (slotPos sl j) = b := by
  have h := foldl_or_bit (fun _ => true) (fun j => bitOfPos (slotPos sl j)) (fun _ => bitOfPos_lt _)
    (slotBitsIn sl o) 0 hb
  simp only [if_true] at h
  unfold slotMaskIn
  rw [h]
  simp [mem_slotBitsIn, and_assoc]

/-- The bits of one byte's field: the set value bits in their places (42_pixel.md R198). -/
theorem slotFieldIn_bit (sl : D7Slot) (v : Byte) (o : Nat) {b : Nat} (hb : b < 8) :
    (slotFieldIn sl v o).getLsbD b = true ↔
      ∃ j, j < 3 ∧ slotPos sl j / 8 = o ∧ bitOfPos (slotPos sl j) = b ∧ v.getLsbD j = true := by
  unfold slotFieldIn
  rw [foldl_or_bit (fun j => v.getLsbD j) (fun j => bitOfPos (slotPos sl j)) (fun _ => bitOfPos_lt _)
    (slotBitsIn sl o) 0 hb]
  simp only [mem_slotBitsIn, and_assoc]
  simp [and_comm]

/-- Density 7: in one byte of a group, the pixel's bits take the colour's and the others stay (42_pixel.md R198). -/
theorem newByte7_bit (sl : D7Slot) (o : Nat) (c v : Byte) {b : Nat} (hb : b < 8) :
    (newByte7 sl o c v).getLsbD b = true ↔
      (∃ j, j < 3 ∧ slotPos sl j / 8 = o ∧ bitOfPos (slotPos sl j) = b ∧ (c &&& 7#8).getLsbD j = true) ∨
      ((∀ j, j < 3 → ¬(slotPos sl j / 8 = o ∧ bitOfPos (slotPos sl j) = b)) ∧ v.getLsbD b = true) := by
  unfold newByte7
  rw [BitVec.getLsbD_or, BitVec.getLsbD_and, BitVec.getLsbD_not, Bool.or_eq_true, slotFieldIn_bit sl _ o hb]
  have hm := slotMaskIn_bit sl o hb
  have hn : (∀ j, j < 3 → ¬(slotPos sl j / 8 = o ∧ bitOfPos (slotPos sl j) = b)) ↔
      (slotMaskIn sl o).getLsbD b = false := by
    rw [← Bool.not_eq_true, hm]
    push Not
    rfl
  rw [hn]
  simp only [hb, decide_true, Bool.true_and, Bool.and_eq_true, Bool.not_eq_true']
  exact or_comm.trans (or_congr Iff.rfl and_comm)

/-! ### The places of a pixel's bits, by the spec's formulas and by the machine's -/

theorem rowLength_eq (s : State) : s.rowLength = s.cv.rowBytes := by
  unfold State.rowLength Canvas.rowBytes
  cases s.cv.dens <;> rfl

theorem layoutEntry_eq (s : State) (xm ym : Nat) : s.layoutEntry xm ym = s.slotAt xm ym := by
  unfold State.layoutEntry State.slotAt slot7 layoutSlot
  have h : (xm + ym * s.cv.wm.toNat) % 8 < 8 := Nat.mod_lt _ (by omega)
  generalize (xm + ym * s.cv.wm.toNat) % 8 = k at h
  rcases (by omega : k = 0 ∨ k = 1 ∨ k = 2 ∨ k = 3 ∨ k = 4 ∨ k = 5 ∨ k = 6 ∨ k = 7) with
    rfl | rfl | rfl | rfl | rfl | rfl | rfl | rfl <;> rfl

theorem groupBitOf_eq (s : State) (xm ym j : Nat) : s.groupBitOf xm ym j = slotPos (s.slotAt xm ym) j := by
  have h := layoutEntry_eq s xm ym
  rcases j with _ | _ | j
  · exact congrArg (fun e => e.p0.val) h
  · exact congrArg (fun e => e.p1.val) h
  · exact congrArg (fun e => e.p2.val) h

/-- The place of a pixel's bit, in the machine's terms. -/
theorem pixelBit_eq (s : State) (xm ym j : Nat) : s.pixelBit xm ym j =
    match s.cv.dens with
    | .d2 => (addr2 s.cv xm ym, 7 - xm % 8)
    | .d4 => (addr4 s.cv xm ym, shift4 xm + j)
    | .d7 => (group7 s.cv xm ym + slotPos (s.slotAt xm ym) j / 8, 7 - slotPos (s.slotAt xm ym) j % 8) := by
  unfold State.pixelBit
  rw [rowLength_eq, groupBitOf_eq]
  unfold Canvas.rowBytes
  cases s.cv.dens <;> rfl

/-- The bytes of a pixel's bits are those the machine touches. -/
theorem mem_pixelBytes (s : State) (xm ym a : Nat) : a ∈ s.pixelBytes xm ym ↔ a ∈ s.pixelAddrs xm ym := by
  unfold State.pixelBytes State.pixelAddrs
  simp only [List.mem_map, List.mem_range, pixelBit_eq]
  cases s.cv.dens with
  | d2 =>
    simp only [Density.bits, List.mem_singleton]
    exact ⟨fun ⟨_, _, h⟩ => h.symm, fun h => ⟨0, by omega, h.symm⟩⟩
  | d4 =>
    simp only [Density.bits, List.mem_singleton]
    exact ⟨fun ⟨_, _, h⟩ => h.symm, fun h => ⟨0, by omega, h.symm⟩⟩
  | d7 =>
    simp only [Density.bits, State.addrs7, List.mem_map, slotOffsets, List.mem_filter, Bool.not_eq_true']
    constructor
    · rintro ⟨j, hj, rfl⟩
      refine ⟨_, ⟨?_, ?_⟩, rfl⟩
      · have := slotPos_lt (s.slotAt xm ym) j
        have h3 : slotPos (s.slotAt xm ym) j / 8 < 3 := by omega
        rcases (by omega : slotPos (s.slotAt xm ym) j / 8 = 0 ∨ slotPos (s.slotAt xm ym) j / 8 = 1 ∨
          slotPos (s.slotAt xm ym) j / 8 = 2) with h | h | h <;> rw [h] <;> simp
      · have hm := (mem_slotBitsIn (s.slotAt xm ym) (slotPos (s.slotAt xm ym) j / 8) j).2 ⟨hj, rfl⟩
        cases hl : slotBitsIn (s.slotAt xm ym) (slotPos (s.slotAt xm ym) j / 8) with
        | nil => rw [hl] at hm; cases hm
        | cons _ _ => rfl
    · rintro ⟨o, ⟨-, h⟩, rfl⟩
      obtain ⟨j, hj⟩ := List.exists_mem_of_ne_nil (slotBitsIn (s.slotAt xm ym) o) (by simpa using h)
      obtain ⟨h1, h2⟩ := (mem_slotBitsIn _ _ _).1 hj
      exact ⟨j, h1, by rw [h2]⟩

/-- The region check, in the machine's terms. -/
theorem pixelInRegion_eq (s : State) (xm ym : Nat) :
    s.pixelInRegion xm ym = (s.pixelAddrs xm ym).all (addrOk s.par s.cv) := by
  rw [Bool.eq_iff_iff]
  unfold State.pixelInRegion
  simp only [List.all_eq_true, mem_pixelBytes]
  refine forall_congr' fun a => imp_congr Iff.rfl ?_
  rw [rowLength_eq]
  unfold addrOk Canvas.regionBytes
  simp only [Bool.and_eq_true, decide_eq_true_eq, and_assoc]

/-! ### One drawn pixel -/

/-- The memory a pixel of colour `c` drawn at a memory point leaves: its bits, every other byte, the canonical form. -/
structure Drawn (s : State) (xm ym : Nat) (c : Byte) (m : Memory) : Prop where
  bits : ∀ a b, b < 8 → ((Memory.read m a).getLsbD b = true ↔
    (∃ j, j < s.cv.dens.bits ∧ s.pixelBit xm ym j = (a, b) ∧ (storedColor s.par s.cv.dens c).getLsbD j = true) ∨
    ((∀ j, j < s.cv.dens.bits → s.pixelBit xm ym j ≠ (a, b)) ∧ (Memory.read s.mem a).getLsbD b = true))
  frame : ∀ a, a ∉ s.pixelAddrs xm ym → Memory.read m a = Memory.read s.mem a
  canonical : Memory.wf s.mem = true → Memory.wf m = true
  cells : ∀ k ∈ m, k.1 ∈ s.pixelAddrs xm ym ∨ k ∈ s.mem

theorem writeGroup_eq (g : Nat) (sl : D7Slot) (c : Byte) (l : List Nat) (s : State) :
    State.writeGroup g sl c l s = { s with mem := (State.writeGroup g sl c l s).mem } := by
  induction l generalizing s with
  | nil => rfl
  | cons o l ih =>
    simp only [State.writeGroup]
    rw [ih]
    rfl

theorem writeGroup_read (g : Nat) (sl : D7Slot) (c : Byte) (l : List Nat) (s : State) (hl : l.Nodup) (a : Nat) :
    (∀ o, o ∈ l → g + o = a → Memory.read (State.writeGroup g sl c l s).mem a = newByte7 sl o c (Memory.read s.mem a)) ∧
    ((∀ o, o ∈ l → g + o ≠ a) → Memory.read (State.writeGroup g sl c l s).mem a = Memory.read s.mem a) := by
  induction l generalizing s with
  | nil => exact ⟨fun o h => absurd h (by simp), fun _ => rfl⟩
  | cons o l ih =>
    obtain ⟨ho, hl⟩ := List.nodup_cons.1 hl
    simp only [State.writeGroup]
    obtain ⟨i1, i2⟩ := ih (s.writeMem (g + o) (newByte7 sl o c (Memory.read s.mem (g + o)))) hl
    refine ⟨fun o' ho' ha => ?_, fun h => ?_⟩
    · rcases List.mem_cons.1 ho' with rfl | ho'
      · rw [i2 fun o2 h2 he => ho (by rwa [show o2 = o' by omega] at h2), ← ha]
        simp
      · rw [i1 o' ho' ha, writeMem_mem, read_write_other _ _ (show a ≠ g + o by
          intro he; exact ho (by rwa [show o' = o by omega] at ho'))]
    · rw [i2 fun o2 h2 => h o2 (List.mem_cons_of_mem _ h2), writeMem_mem,
        read_write_other _ _ (Ne.symm (h o List.mem_cons_self))]

theorem writeGroup_wf (g : Nat) (sl : D7Slot) (c : Byte) (l : List Nat) (s : State) (h : Memory.wf s.mem = true) :
    Memory.wf (State.writeGroup g sl c l s).mem = true := by
  induction l generalizing s with
  | nil => exact h
  | cons o l ih => exact ih _ (write_wf _ _ _ h)

theorem writeGroup_cells (g : Nat) (sl : D7Slot) (c : Byte) (l : List Nat) (s : State) (k : Host.Cell)
    (h : k ∈ (State.writeGroup g sl c l s).mem) : k.1 ∈ l.map (fun o => g + o) ∨ k ∈ s.mem := by
  induction l generalizing s with
  | nil => exact .inr h
  | cons o l ih =>
    rcases ih _ h with h | h
    · exact .inl (by simp at h ⊢; tauto)
    · rcases mem_write h with h | h
      · exact .inl (by simp [h])
      · exact .inr h

theorem slotOffsets_nodup (sl : D7Slot) : (slotOffsets sl).Nodup := by
  unfold slotOffsets
  exact List.Nodup.filter _ (by decide)

theorem mem_slotOffsets (sl : D7Slot) (o : Nat) : o ∈ slotOffsets sl ↔ ∃ j, j < 3 ∧ slotPos sl j / 8 = o := by
  unfold slotOffsets
  have hlt (j : Nat) := slotPos_lt sl j
  have hne : (slotBitsIn sl o).isEmpty = false ↔ ∃ j, j < 3 ∧ slotPos sl j / 8 = o := by
    constructor
    · intro h
      obtain ⟨j, hj⟩ := List.exists_mem_of_ne_nil (slotBitsIn sl o) (by simpa using h)
      exact ⟨j, (mem_slotBitsIn sl o j).1 hj⟩
    · rintro ⟨j, hj⟩
      have := (mem_slotBitsIn sl o j).2 hj
      cases hq : slotBitsIn sl o with
      | nil => simp [hq] at this
      | cons _ _ => rfl
  simp only [List.mem_filter, Bool.not_eq_true', hne]
  constructor
  · exact fun h => h.2
  · rintro ⟨j, hj, h⟩
    refine ⟨?_, j, hj, h⟩
    have := hlt j
    rcases (by omega : o = 0 ∨ o = 1 ∨ o = 2) with rfl | rfl | rfl <;> simp

theorem shift4_lt (xm : Nat) : shift4 xm + 1 < 8 := by unfold shift4; omega

/-- A pixel whose addresses pass the region check is drawn (42_pixel.md R192, R195, R198). -/
theorem pack_ok {s : State} {xm ym : Nat} (c : Byte) (h : s.pixelInRegion xm ym = true) :
    ∃ m, s.pack xm ym c = .ok { s with mem := m } ∧ Drawn s xm ym c m := by
  rw [pixelInRegion_eq] at h
  unfold State.pixelAddrs at h
  unfold State.pack
  cases hd : s.cv.dens with
  | d2 =>
    simp only [hd, List.all_cons, List.all_nil, Bool.and_true] at h
    simp only [State.pack2, h, if_true]
    refine ⟨_, rfl, ?_, ?_, fun hw => write_wf _ _ _ hw, ?_⟩
    · intro a b hb
      simp only [hd, Density.bits, pixelBit_eq, storedColor, Prod.mk.injEq]
      by_cases ha : a = addr2 s.cv xm ym
      · subst ha
        rw [read_write_same, newByte2_bit _ _ _ _ hb]
        by_cases hx : b = 7 - xm % 8
        · subst hx
          by_cases hc : c = s.par.colorBlack
          · simp [hc]
          · simp [hc]
        · simp [hx, Ne.symm hx]
      · rw [read_write_other _ _ ha]
        simp [Ne.symm ha]
    · intro a ha
      exact read_write_other _ _ (by simpa [State.pixelAddrs, hd] using ha)
    · intro k hk
      rcases mem_write hk with hk | hk
      · exact .inl (by simp [State.pixelAddrs, hd, hk])
      · exact .inr hk
  | d4 =>
    simp only [hd, List.all_cons, List.all_nil, Bool.and_true] at h
    simp only [State.pack4, h, if_true]
    refine ⟨_, rfl, ?_, ?_, fun hw => write_wf _ _ _ hw, ?_⟩
    · intro a b hb
      simp only [hd, Density.bits, pixelBit_eq, storedColor, Prod.mk.injEq]
      have ex (P : Nat → Prop) : (∃ j, j < 2 ∧ P j) ↔ P 0 ∨ P 1 := by
        constructor
        · rintro ⟨j, hj, h⟩
          rcases (by omega : j = 0 ∨ j = 1) with rfl | rfl
          · exact .inl h
          · exact .inr h
        · rintro (h | h)
          · exact ⟨0, by omega, h⟩
          · exact ⟨1, by omega, h⟩
      have al (P : Nat → Prop) : (∀ j, j < 2 → P j) ↔ P 0 ∧ P 1 := by
        constructor
        · exact fun h => ⟨h 0 (by omega), h 1 (by omega)⟩
        · rintro ⟨h0, h1⟩ j hj
          rcases (by omega : j = 0 ∨ j = 1) with rfl | rfl
          · exact h0
          · exact h1
      rw [ex, al]
      by_cases ha : a = addr4 s.cv xm ym
      · subst ha
        rw [read_write_same, newByte4_bit _ _ _ hb]
        by_cases h0 : b = shift4 xm
        · subst h0
          simp
        · by_cases h1 : b = shift4 xm + 1
          · subst h1
            simp
          · simp [h0, h1, Ne.symm h0, Ne.symm h1]
      · rw [read_write_other _ _ ha]
        simp [Ne.symm ha]
    · intro a ha
      exact read_write_other _ _ (by simpa [State.pixelAddrs, hd] using ha)
    · intro k hk
      rcases mem_write hk with hk | hk
      · exact .inl (by simp [State.pixelAddrs, hd, hk])
      · exact .inr hk
  | d7 =>
    simp only [hd] at h
    simp only [State.pack7, h, if_true]
    refine ⟨_, congrArg _ (writeGroup_eq _ _ _ _ _), ?_, ?_, fun hw => writeGroup_wf _ _ _ _ _ hw, ?_⟩
    · intro a b hb
      simp only [hd, Density.bits, pixelBit_eq, storedColor, Prod.mk.injEq, ne_eq]
      have hr := writeGroup_read (group7 s.cv xm ym) (s.slotAt xm ym) c _ s (slotOffsets_nodup (s.slotAt xm ym)) a
      by_cases ha : ∃ o, o ∈ slotOffsets (s.slotAt xm ym) ∧ group7 s.cv xm ym + o = a
      · obtain ⟨o, ho, ha⟩ := ha
        rw [hr.1 o ho ha, newByte7_bit _ _ _ _ hb]
        subst ha
        simp only [Nat.add_left_cancel_iff, bitOfPos, and_assoc]
        rfl
      · have ha' : ∀ o, o ∈ slotOffsets (s.slotAt xm ym) → group7 s.cv xm ym + o ≠ a := fun o h1 h2 => ha ⟨o, h1, h2⟩
        rw [hr.2 ha']
        have hno : ∀ j, j < 3 → group7 s.cv xm ym + slotPos (s.slotAt xm ym) j / 8 ≠ a := fun j hj =>
          ha' _ ((mem_slotOffsets _ _).2 ⟨j, hj, rfl⟩)
        constructor
        · exact fun h => .inr ⟨fun j hj hc => hno j hj hc.1, h⟩
        · rintro (⟨j, hj, hc, _⟩ | h)
          · exact absurd hc.1 (hno j hj)
          · exact h.2
    · intro a ha
      have hr := writeGroup_read (group7 s.cv xm ym) (s.slotAt xm ym) c _ s (slotOffsets_nodup (s.slotAt xm ym)) a
      refine hr.2 fun o ho he => ha ?_
      simp only [State.pixelAddrs, hd, State.addrs7, List.mem_map]
      exact ⟨o, ho, he⟩
    · intro k hk
      rcases writeGroup_cells _ _ _ _ _ _ hk with hk | hk
      · exact .inl (by simpa [State.pixelAddrs, hd, State.addrs7] using hk)
      · exact .inr hk

/-- A pixel with an address outside the region faults before any access (42_pixel.md R202). -/
theorem pack_fault {s : State} {xm ym : Nat} (c : Byte) (h : s.pixelInRegion xm ym = false) :
    s.pack xm ym c = .error (s.raiseFault .bufferOverrun) := by
  rw [pixelInRegion_eq] at h
  unfold State.pixelAddrs at h
  unfold State.pack
  cases hd : s.cv.dens with
  | d2 =>
    simp only [hd, List.all_cons, List.all_nil, Bool.and_true] at h
    simp [State.pack2, h]
  | d4 =>
    simp only [hd, List.all_cons, List.all_nil, Bool.and_true] at h
    simp [State.pack4, h]
  | d7 =>
    simp only [hd] at h
    simp only [State.pack7, h]
    rfl

/-! ### One read pixel -/

theorem value3_bit (b2 b1 b0 : Bool) :
    (value3 b2 b1 b0).getLsbD 0 = b0 ∧ (value3 b2 b1 b0).getLsbD 1 = b1 ∧ (value3 b2 b1 b0).getLsbD 2 = b2 ∧
      (value3 b2 b1 b0).toNat < 8 := by
  cases b2 <;> cases b1 <;> cases b0 <;> decide

/-- The value of a pixel, bit by bit (42_pixel.md R201). -/
theorem pixelValue_bit (s : State) (xm ym : Nat) {j : Nat} (hj : j < s.cv.dens.bits) :
    (s.pixelValue xm ym).getLsbD j = (Memory.read s.mem (s.pixelBit xm ym j).1).getLsbD (s.pixelBit xm ym j).2 := by
  rw [pixelBit_eq]
  unfold State.pixelValue
  cases hd : s.cv.dens with
  | d2 =>
    simp only [hd, Density.bits] at hj
    obtain rfl : j = 0 := by omega
    simp
  | d4 =>
    simp only [hd, Density.bits] at hj
    rcases (by omega : j = 0 ∨ j = 1) with rfl | rfl <;> simp
  | d7 =>
    simp only [hd, Density.bits] at hj
    have v := value3_bit (groupBit s.mem (group7 s.cv xm ym) (s.slotAt xm ym) 2)
      (groupBit s.mem (group7 s.cv xm ym) (s.slotAt xm ym) 1) (groupBit s.mem (group7 s.cv xm ym) (s.slotAt xm ym) 0)
    rcases (by omega : j = 0 ∨ j = 1 ∨ j = 2) with rfl | rfl | rfl
    · exact v.1
    · exact v.2.1
    · exact v.2.2.1

/-- The value of a pixel fits its bits per pixel (42_pixel.md R201, R210). -/
theorem pixelValue_lt (s : State) (xm ym : Nat) : (s.pixelValue xm ym).toNat < 2 ^ s.cv.dens.bits := by
  unfold State.pixelValue
  cases hd : s.cv.dens with
  | d2 =>
    simp only [Density.bits, BitVec.toNat_and]
    exact Nat.lt_of_le_of_lt Nat.and_le_right (by decide)
  | d4 =>
    simp only [Density.bits, BitVec.toNat_and]
    exact Nat.lt_of_le_of_lt Nat.and_le_right (by decide)
  | d7 => exact (value3_bit _ _ _).2.2.2

/-- Two bytes below `2 ^ n` with the same first `n` bits are equal. -/
theorem eq_of_low_bits {n : Nat} {v w : Byte} (hv : v.toNat < 2 ^ n) (hw : w.toNat < 2 ^ n)
    (h : ∀ j, j < n → v.getLsbD j = w.getLsbD j) : v = w := by
  refine BitVec.eq_of_getLsbD_eq fun j _ => ?_
  by_cases hj : j < n
  · exact h j hj
  · have hp : 2 ^ n ≤ 2 ^ j := Nat.pow_le_pow_right (by omega) (by omega)
    simp only [BitVec.getLsbD]
    rw [Nat.testBit_lt_two_pow (by omega), Nat.testBit_lt_two_pow (by omega)]

/-! ### Where pixels lie -/

/-- Two points of rows of width `w` at the same offset are the same point. -/
theorem row_inj {w a b y z : Nat} (ha : a < w) (hb : b < w) (h : a + y * w = b + z * w) : a = b ∧ y = z := by
  have h1 := congrArg (· % w) h
  have h2 := congrArg (· / w) h
  simp only [Nat.add_mul_mod_self_right, Nat.mod_eq_of_lt ha, Nat.mod_eq_of_lt hb] at h1
  have hw : 0 < w := by omega
  simp only [Nat.add_mul_div_right _ _ hw, Nat.div_eq_of_lt ha, Nat.div_eq_of_lt hb, Nat.zero_add] at h2
  exact ⟨h1, h2⟩

/-- A point of a row within the width and the height lies in the region. -/
theorem row_lt {w h a y : Nat} (ha : a < w) (hy : y < h) : a + y * w < w * h := by
  have : (y + 1) * w ≤ h * w := Nat.mul_le_mul_right w hy
  rw [Nat.add_mul, Nat.one_mul] at this
  rw [Nat.mul_comm w h]
  omega

/-- The position of a value bit in its list of 24. -/
theorem positions_get (d : D7Layout) {s j : Nat} (hs : s < 8) (hj : j < 3) :
    ((d.s0.positions ++ d.s1.positions ++ d.s2.positions ++ d.s3.positions ++ d.s4.positions ++ d.s5.positions ++
      d.s6.positions ++ d.s7.positions)[3 * s + (2 - j)]?).map Fin.val = some (slotPos (layoutSlot d s) j) := by
  rcases (by omega : s = 0 ∨ s = 1 ∨ s = 2 ∨ s = 3 ∨ s = 4 ∨ s = 5 ∨ s = 6 ∨ s = 7) with
      rfl | rfl | rfl | rfl | rfl | rfl | rfl | rfl <;>
    rcases (by omega : j = 0 ∨ j = 1 ∨ j = 2) with rfl | rfl | rfl <;> rfl

/-- In a disjoint layout a position names its slot and its value bit. -/
theorem disjoint_inj {d : D7Layout} (hd : d.disjoint = true) {s s' j j' : Nat} (hs : s < 8) (hs' : s' < 8)
    (hj : j < 3) (hj' : j' < 3) (h : slotPos (layoutSlot d s) j = slotPos (layoutSlot d s') j') :
    s = s' ∧ j = j' := by
  have hn := of_decide_eq_true hd
  have h1 := positions_get d hs hj
  have h2 := positions_get d hs' hj'
  rw [← h] at h2
  generalize d.s0.positions ++ d.s1.positions ++ d.s2.positions ++ d.s3.positions ++ d.s4.positions ++
    d.s5.positions ++ d.s6.positions ++ d.s7.positions = L at *
  obtain ⟨v1, e1, f1⟩ := Option.map_eq_some_iff.1 h1
  obtain ⟨v2, e2, f2⟩ := Option.map_eq_some_iff.1 h2
  obtain ⟨b1, e1⟩ := List.getElem?_eq_some_iff.1 e1
  obtain ⟨b2, e2⟩ := List.getElem?_eq_some_iff.1 e2
  have hv : v1 = v2 := Fin.ext (by omega)
  have : 3 * s + (2 - j) = 3 * s' + (2 - j') := (List.Nodup.getElem_inj_iff hn).1 (by rw [e1, e2, hv])
  omega

theorem slot7_aligned {cv : Canvas} (h : cv.wm.toNat % 8 = 0) (xm ym : Nat) : slot7 cv xm ym = xm % 8 := by
  unfold slot7
  rw [Nat.add_mod, Nat.mul_mod, h]
  simp

theorem ceilDiv_gt {a b n : Nat} (hb : 0 < b) (h : a < n) : a / b < ceilDiv n b := by
  unfold ceilDiv
  rw [Nat.div_lt_iff_lt_mul hb]
  have := Nat.div_add_mod (n + b - 1) b
  have := Nat.mod_lt (n + b - 1) hb
  rw [Nat.mul_comm]
  omega

/-- At density 7 with a width of whole groups, a group byte of a pixel is within its row (42_pixel.md R203). -/
theorem group_lt {wm xm o : Nat} (h : wm % 8 = 0) (hx : xm < wm) (ho : o < 3) :
    xm / 8 * 3 + o < widthBytes .d7 wm := by
  simp only [widthBytes, ceilDiv]
  omega

/-- Where pixels are apart, no two of them share a bit, and no pixel's own bits coincide (42_pixel.md R203). -/
theorem pixelBit_inj {s : State} (hs : s.PixelsApart) {xm ym xo yo j k : Nat} (hx : xm < s.cv.wm.toNat)
    (hx' : xo < s.cv.wm.toNat) (hj : j < s.cv.dens.bits) (hk : k < s.cv.dens.bits)
    (h : s.pixelBit xm ym j = s.pixelBit xo yo k) : xm = xo ∧ ym = yo ∧ j = k := by
  rw [pixelBit_eq, pixelBit_eq] at h
  cases hd : s.cv.dens with
  | d2 =>
    simp only [hd, Density.bits, Prod.mk.injEq, addr2] at *
    have hw := ceilDiv_gt (b := 8) (by omega) hx
    have hw' := ceilDiv_gt (b := 8) (by omega) hx'
    have hr := row_inj (w := widthBytes .d2 s.cv.wm.toNat) (a := xm / 8) (b := xo / 8) (y := ym) (z := yo) hw hw' (by omega)
    omega
  | d4 =>
    simp only [hd, Density.bits, Prod.mk.injEq, addr4, shift4] at *
    have hw := ceilDiv_gt (b := 4) (by omega) hx
    have hw' := ceilDiv_gt (b := 4) (by omega) hx'
    have hr := row_inj (w := widthBytes .d4 s.cv.wm.toNat) (a := xm / 4) (b := xo / 4) (y := ym) (z := yo) hw hw' (by omega)
    omega
  | d7 =>
    obtain ⟨ha, hl⟩ := hs hd
    simp only [hd, Density.bits, Prod.mk.injEq, group7, State.slotAt, slot7_aligned ha] at *
    have p1 := slotPos_lt (layoutSlot s.par.d7 (xm % 8)) j
    have p2 := slotPos_lt (layoutSlot s.par.d7 (xo % 8)) k
    have hw := group_lt ha hx (o := slotPos (layoutSlot s.par.d7 (xm % 8)) j / 8) (by omega)
    have hw' := group_lt ha hx' (o := slotPos (layoutSlot s.par.d7 (xo % 8)) k / 8) (by omega)
    have hr := row_inj (y := ym) (z := yo) hw hw' (by omega)
    have hi := disjoint_inj hl (s := xm % 8) (s' := xo % 8) (by omega) (by omega) hj hk (by omega)
    omega

theorem addrOk_iff (p : Params) (cv : Canvas) (a : Nat) : addrOk p cv a = true ↔
    (cv.base.toNat ≤ a ∧ a < cv.base.toNat + cv.regionBytes) ∧ a < p.memSize := by
  unfold addrOk
  rw [Bool.and_eq_true, Bool.and_eq_true, decide_eq_true_iff, decide_eq_true_iff, decide_eq_true_iff]

/-- The addresses of a pixel that passes the region check are in the region and in memory. -/
theorem pixelInRegion_addr {s : State} {xm ym a : Nat} (h : s.pixelInRegion xm ym = true)
    (ha : a ∈ s.pixelAddrs xm ym) : s.inRegion a ∧ a < s.par.memSize := by
  rw [pixelInRegion_eq] at h
  unfold State.inRegion
  rw [rowLength_eq]
  exact (addrOk_iff _ _ _).1 (List.all_eq_true.1 h a ha)

/-- A memory point within the canvas passes the region check when the region lies in memory and, at density 7, the
width is a whole number of groups (42_pixel.md R202, R203). -/
theorem pixelInRegion_of_bounds {s : State} (hr : s.RegionInMemory) (ha : s.cv.dens = .d7 → s.cv.wm.toNat % 8 = 0)
    {xm ym : Nat} (hx : xm < s.cv.wm.toNat) (hy : ym < s.cv.hm.toNat) : s.pixelInRegion xm ym = true := by
  rw [pixelInRegion_eq]
  unfold State.RegionInMemory at hr
  rw [rowLength_eq] at hr
  unfold State.pixelAddrs
  unfold Canvas.rowBytes at hr
  rw [List.all_eq_true]
  cases hd : s.cv.dens with
  | d2 =>
    intro a h
    obtain rfl : a = _ := by simpa using h
    have hw := ceilDiv_gt (b := 8) (by omega) hx
    have hl := row_lt (w := widthBytes .d2 s.cv.wm.toNat) (a := xm / 8) hw hy
    rw [hd] at hr
    rw [addrOk_iff]
    unfold Canvas.regionBytes Canvas.rowBytes addr2
    rw [hd]
    omega
  | d4 =>
    intro a h
    obtain rfl : a = _ := by simpa using h
    have hw := ceilDiv_gt (b := 4) (by omega) hx
    have hl := row_lt (w := widthBytes .d4 s.cv.wm.toNat) (a := xm / 4) hw hy
    rw [hd] at hr
    rw [addrOk_iff]
    unfold Canvas.regionBytes Canvas.rowBytes addr4
    rw [hd]
    omega
  | d7 =>
    intro a h
    simp only [State.addrs7, List.mem_map, mem_slotOffsets] at h
    obtain ⟨o, ⟨j, hj, hjo⟩, rfl⟩ := h
    have hp := slotPos_lt (s.slotAt xm ym) j
    have hw := group_lt (ha hd) hx (o := o) (by omega)
    have hl := row_lt hw hy
    rw [hd] at hr
    rw [addrOk_iff]
    unfold Canvas.regionBytes Canvas.rowBytes group7
    rw [hd]
    omega

/-! ### States that differ in memory only -/

theorem pixelBit_withMem (s : State) (m : Memory) (xm ym j : Nat) :
    ({ s with mem := m } : State).pixelBit xm ym j = s.pixelBit xm ym j := rfl

theorem pixelAddrs_withMem (s : State) (m : Memory) (xm ym : Nat) :
    ({ s with mem := m } : State).pixelAddrs xm ym = s.pixelAddrs xm ym := rfl

theorem pixelInRegion_withMem (s : State) (m : Memory) (xm ym : Nat) :
    ({ s with mem := m } : State).pixelInRegion xm ym = s.pixelInRegion xm ym := rfl

theorem pixelBit_congr {s t : State} (hp : t.par = s.par) (hc : t.cv = s.cv) (xm ym j : Nat) :
    t.pixelBit xm ym j = s.pixelBit xm ym j := by simp only [pixelBit_eq, State.slotAt, hp, hc]

theorem pixelAddrs_congr {s t : State} (hp : t.par = s.par) (hc : t.cv = s.cv) (xm ym : Nat) :
    t.pixelAddrs xm ym = s.pixelAddrs xm ym := by
  simp only [State.pixelAddrs, State.addrs7, State.slotAt, hp, hc]

theorem pixelInRegion_congr {s t : State} (hp : t.par = s.par) (hc : t.cv = s.cv) (xm ym : Nat) :
    t.pixelInRegion xm ym = s.pixelInRegion xm ym := by
  simp only [pixelInRegion_eq, pixelAddrs_congr hp hc, hp, hc]

theorem transformed_congr {s t : State} (hp : t.par = s.par) (hc : t.cv = s.cv) (x y : Nat) :
    t.transformed x y = s.transformed x y := by simp only [State.transformed, hp, hc]

theorem pixelsApart_congr {s t : State} (hp : t.par = s.par) (hc : t.cv = s.cv) (h : s.PixelsApart) :
    t.PixelsApart := by
  unfold State.PixelsApart at *
  rw [hp, hc]
  exact h

theorem pixelValue_congr {s t : State} (hp : t.par = s.par) (hc : t.cv = s.cv) (hm : t.mem = s.mem) (xm ym : Nat) :
    t.pixelValue xm ym = s.pixelValue xm ym := by
  simp only [State.pixelValue, State.slotAt, hp, hc, hm]

/-- The transform's memory points are within the canvas (41_transform.md R175). -/
theorem transform_bounds {e : Edge} {cv : Canvas} {x y xm ym : Nat} (h : transform e cv x y = some (xm, ym)) :
    xm < cv.wm.toNat ∧ ym < cv.hm.toNat := by
  unfold transform at h
  split at h
  · simp only at h
    split at h
    · rename_i hm
      simp only [inMemory, Bool.and_eq_true, decide_eq_true_eq] at hm
      simp only [Option.some.injEq, Prod.mk.injEq] at h
      omega
    · cases h
  · cases h

/-! ### The values a drawn pixel leaves -/

/-- The stored colour fits the bits of a pixel (42_pixel.md R193, R196, R198). -/
theorem storedColor_lt (p : Params) (d : Density) (c : Byte) : (storedColor p d c).toNat < 2 ^ d.bits := by
  unfold storedColor
  cases d with
  | d2 =>
    dsimp only
    split <;> decide
  | d4 =>
    simp only [Density.bits, BitVec.toNat_and]
    exact Nat.lt_of_le_of_lt Nat.and_le_right (by decide)
  | d7 =>
    simp only [Density.bits, BitVec.toNat_and]
    exact Nat.lt_of_le_of_lt Nat.and_le_right (by decide)

theorem pixelBit_lt (s : State) (xm ym : Nat) {j : Nat} (hj : j < s.cv.dens.bits) : (s.pixelBit xm ym j).2 < 8 := by
  rw [pixelBit_eq]
  cases hd : s.cv.dens with
  | d2 => dsimp only; omega
  | d4 =>
    have := shift4_lt xm
    simp only [hd, Density.bits] at hj
    dsimp only
    omega
  | d7 => dsimp only; omega

/-- A drawn pixel has the stored colour, if its own bits are apart (42_pixel.md R201). -/
theorem drawn_value {s : State} {xm ym : Nat} {c : Byte} {m : Memory} (h : Drawn s xm ym c m)
    (hi : ∀ j k, j < s.cv.dens.bits → k < s.cv.dens.bits → s.pixelBit xm ym j = s.pixelBit xm ym k → j = k) :
    ({ s with mem := m } : State).pixelValue xm ym = storedColor s.par s.cv.dens c := by
  refine eq_of_low_bits (n := s.cv.dens.bits) (pixelValue_lt { s with mem := m } xm ym) (storedColor_lt _ _ _) ?_
  intro j hj
  rw [pixelValue_bit ({ s with mem := m } : State) xm ym hj, pixelBit_withMem]
  have hb := h.bits (s.pixelBit xm ym j).1 (s.pixelBit xm ym j).2 (pixelBit_lt s xm ym hj)
  rw [Bool.eq_iff_iff, hb]
  constructor
  · rintro (⟨k, hk, he, hv⟩ | ⟨hn, _⟩)
    · rwa [← hi k j hk hj he]
    · exact absurd rfl (hn j hj)
  · exact fun hv => .inl ⟨j, hj, rfl, hv⟩

/-- A drawn pixel leaves every pixel that shares no bit with it as it was. -/
theorem drawn_other {s : State} {xm ym xo yo : Nat} {c : Byte} {m : Memory} (h : Drawn s xm ym c m)
    (hi : ∀ j k, j < s.cv.dens.bits → k < s.cv.dens.bits → s.pixelBit xm ym j ≠ s.pixelBit xo yo k) :
    ({ s with mem := m } : State).pixelValue xo yo = s.pixelValue xo yo := by
  refine eq_of_low_bits (n := s.cv.dens.bits) (pixelValue_lt { s with mem := m } xo yo) (pixelValue_lt s xo yo) ?_
  intro j hj
  rw [pixelValue_bit ({ s with mem := m } : State) xo yo hj, pixelValue_bit s xo yo hj,
    pixelBit_withMem]
  have hb := h.bits (s.pixelBit xo yo j).1 (s.pixelBit xo yo j).2 (pixelBit_lt s xo yo hj)
  rw [Bool.eq_iff_iff, hb]
  constructor
  · rintro (⟨k, hk, he, _⟩ | ⟨_, hv⟩)
    · exact absurd he (hi k j hk hj)
    · exact hv
  · exact fun hv => .inr ⟨fun k hk => hi k j hk hj, hv⟩

/-! ### Drawing a list of pixels -/

theorem mem_valueBitsAt (s : State) (xm ym a b j : Nat) :
    j ∈ s.valueBitsAt xm ym a b ↔ j < s.cv.dens.bits ∧ s.pixelBit xm ym j = (a, b) := by
  unfold State.valueBitsAt
  rw [List.mem_filter, List.mem_range, beq_iff_eq]

/-- One drawn pixel, as one round of `drawnBit`. -/
theorem drawn_drawnBit {s : State} {xm ym : Nat} {c : Byte} {m : Memory} (h : Drawn s xm ym c m) {a b : Nat}
    (hb : b < 8) : (Memory.read m a).getLsbD b = s.drawnBit c [(xm, ym)] a b := by
  rw [Bool.eq_iff_iff, h.bits a b hb]
  unfold State.drawnBit
  rw [List.foldl_cons, List.foldl_nil]
  dsimp only
  by_cases he : (s.valueBitsAt xm ym a b).isEmpty = true
  · rw [if_pos he]
    have hn (j : Nat) (hj : j < s.cv.dens.bits) : s.pixelBit xm ym j ≠ (a, b) := fun hp => by
      have := (mem_valueBitsAt s xm ym a b j).2 ⟨hj, hp⟩
      rw [List.isEmpty_iff.1 he] at this
      cases this
    constructor
    · rintro (⟨j, hj, hp, -⟩ | ⟨-, hv⟩)
      · exact absurd hp (hn j hj)
      · exact hv
    · exact fun hv => .inr ⟨hn, hv⟩
  · rw [if_neg he, List.any_eq_true]
    constructor
    · rintro (⟨j, hj, hp, hv⟩ | ⟨hn, -⟩)
      · exact ⟨j, (mem_valueBitsAt s xm ym a b j).2 ⟨hj, hp⟩, hv⟩
      · obtain ⟨j, hj⟩ := List.exists_mem_of_ne_nil (s.valueBitsAt xm ym a b) (by simpa using he)
        obtain ⟨h1, h2⟩ := (mem_valueBitsAt s xm ym a b j).1 hj
        exact absurd h2 (hn j h1)
    · rintro ⟨j, hj, hv⟩
      obtain ⟨h1, h2⟩ := (mem_valueBitsAt s xm ym a b j).1 hj
      exact .inl ⟨j, h1, h2, hv⟩

/-- The pixels drawn first are under those drawn later. -/
theorem drawnBit_cons {s : State} {q : Nat × Nat} {pts : List (Nat × Nat)} {c : Byte} {m : Memory} {a b : Nat}
    (h : (Memory.read m a).getLsbD b = s.drawnBit c [q] a b) :
    ({ s with mem := m } : State).drawnBit c pts a b = s.drawnBit c (q :: pts) a b := by
  show pts.foldl _ ((Memory.read m a).getLsbD b) = pts.foldl _ _
  rw [h]
  rfl

/-- The memory that pixels of one colour drawn in order at a list of memory points leave. -/
structure DrawnAll (s : State) (pts : List (Nat × Nat)) (c : Byte) (m : Memory) : Prop where
  bits : ∀ a b, b < 8 → (Memory.read m a).getLsbD b = s.drawnBit c pts a b
  frame : ∀ a, (∀ p ∈ pts, a ∉ s.pixelAddrs p.1 p.2) → Memory.read m a = Memory.read s.mem a
  canonical : Memory.wf s.mem = true → Memory.wf m = true
  cells : ∀ k ∈ m, (∃ p ∈ pts, k.1 ∈ s.pixelAddrs p.1 p.2) ∨ k ∈ s.mem
  values : s.PixelsApart → (∀ p ∈ pts, p.1 < s.cv.wm.toNat ∧ p.2 < s.cv.hm.toNat) →
    ∀ xm ym, xm < s.cv.wm.toNat →
      ((xm, ym) ∈ pts → ({ s with mem := m } : State).pixelValue xm ym = storedColor s.par s.cv.dens c) ∧
      ((xm, ym) ∉ pts → ({ s with mem := m } : State).pixelValue xm ym = s.pixelValue xm ym)

theorem drawnAll_nil (s : State) (c : Byte) : DrawnAll s [] c s.mem where
  bits := fun _ _ _ => rfl
  frame := fun _ _ => rfl
  canonical := id
  cells := fun _ h => .inr h
  values := fun _ _ _ _ _ => ⟨fun h => absurd h (by simp), fun _ => rfl⟩

theorem drawnAll_cons {s : State} {p : Nat × Nat} {pts : List (Nat × Nat)} {c : Byte} {m m' : Memory}
    (h : Drawn s p.1 p.2 c m) (h' : DrawnAll { s with mem := m } pts c m') : DrawnAll s (p :: pts) c m' where
  bits := fun a b hb => (h'.bits a b hb).trans (drawnBit_cons (drawn_drawnBit h hb))
  frame := fun a ha => by
    rw [h'.frame a fun q hq => ?_, h.frame a (ha p List.mem_cons_self)]
    rw [pixelAddrs_withMem]
    exact ha q (List.mem_cons_of_mem _ hq)
  canonical := fun hw => h'.canonical (h.canonical hw)
  cells := fun k hk => by
    rcases h'.cells k hk with ⟨q, hq, ha⟩ | hk
    · exact .inl ⟨q, List.mem_cons_of_mem _ hq, by rwa [pixelAddrs_withMem] at ha⟩
    · rcases h.cells k hk with ha | hk
      · exact .inl ⟨p, List.mem_cons_self, ha⟩
      · exact .inr hk
  values := fun hs hb xm ym hx => by
    have hbp := hb p List.mem_cons_self
    obtain ⟨v1, v2⟩ := h'.values (pixelsApart_congr rfl rfl hs) (fun q hq => hb q (List.mem_cons_of_mem _ hq)) xm ym hx
    by_cases hin : (xm, ym) ∈ pts
    · exact ⟨fun _ => v1 hin, fun hn => absurd (List.mem_cons_of_mem _ hin) hn⟩
    · by_cases hp : (xm, ym) = p
      · subst hp
        refine ⟨fun _ => ?_, fun hn => absurd List.mem_cons_self hn⟩
        exact (v2 hin).trans (drawn_value h fun j k hj hk he => (pixelBit_inj hs hx hx hj hk he).2.2)
      · refine ⟨fun hm => absurd hm (by simp [hp, hin]), fun _ => ?_⟩
        refine (v2 hin).trans (drawn_other h fun j k hj hk he => hp ?_)
        obtain ⟨h1, h2, -⟩ := pixelBit_inj hs hbp.1 hx hj hk he
        exact Prod.ext h1.symm h2.symm

/-- Drawing a list of pixels, each of which passes the region check. -/
theorem draw_list {s : State} (c : Byte) (pts : List (Nat × Nat)) (h : ∀ p ∈ pts, s.pixelInRegion p.1 p.2 = true) :
    ∃ m, pts.foldlM (fun (u : State) p => u.pack p.1 p.2 c) s = Except.ok (ε := State) { s with mem := m } ∧
      DrawnAll s pts c m := by
  induction pts generalizing s with
  | nil => exact ⟨s.mem, rfl, drawnAll_nil s c⟩
  | cons p pts ih =>
    obtain ⟨m, hm, hd⟩ := pack_ok c (h p List.mem_cons_self)
    obtain ⟨m', hm', hd'⟩ := ih (s := { s with mem := m }) fun q hq => by
      rw [pixelInRegion_withMem]
      exact h q (List.mem_cons_of_mem _ hq)
    refine ⟨m', ?_, drawnAll_cons hd hd'⟩
    rw [List.foldlM_cons, hm]
    exact hm'

/-- Drawing a list of pixels of which one fails the region check: the pixels before it are drawn, then the fault. -/
theorem draw_list_fault {s : State} (c : Byte) (pts : List (Nat × Nat))
    (h : ∃ p ∈ pts, s.pixelInRegion p.1 p.2 = false) :
    ∃ m, pts.foldlM (fun (u : State) p => u.pack p.1 p.2 c) s =
        Except.error (ε := State) (({ s with mem := m } : State).raiseFault .bufferOverrun) ∧
      DrawnAll s (pts.takeWhile fun p => s.pixelInRegion p.1 p.2) c m := by
  induction pts generalizing s with
  | nil =>
    obtain ⟨p, hp, -⟩ := h
    exact absurd hp (by simp)
  | cons p pts ih =>
    by_cases hp : s.pixelInRegion p.1 p.2 = true
    · obtain ⟨m, hm, hd⟩ := pack_ok c hp
      have hrest : ∃ q ∈ pts, ({ s with mem := m } : State).pixelInRegion q.1 q.2 = false := by
        obtain ⟨q, hq, hf⟩ := h
        rcases List.mem_cons.1 hq with rfl | hq
        · rw [hp] at hf
          cases hf
        · exact ⟨q, hq, by rwa [pixelInRegion_withMem]⟩
      obtain ⟨m', hm', hd'⟩ := ih hrest
      refine ⟨m', ?_, ?_⟩
      · rw [List.foldlM_cons, hm]
        exact hm'
      · rw [List.takeWhile_cons_of_pos (p := fun p : Nat × Nat => s.pixelInRegion p.1 p.2) hp]
        exact drawnAll_cons hd hd'
    · refine ⟨s.mem, ?_, ?_⟩
      · rw [List.foldlM_cons, pack_fault c (by simpa using hp)]
        rfl
      · rw [List.takeWhile_cons_of_neg (p := fun p : Nat × Nat => s.pixelInRegion p.1 p.2) hp]
        exact drawnAll_nil s c

/-! ### Loops as folds -/

theorem forRange_eq {σ : Type} (n a : Nat) (f : Nat → σ → Except State σ) (x : σ) :
    forRange n a f x = (List.range' a n).foldlM (fun y i => f i y) x := by
  induction n generalizing a x with
  | zero => rfl
  | succ n ih =>
    rw [List.range'_succ, List.foldlM_cons]
    simp only [forRange]
    cases f a x with
    | ok y => exact ih (a + 1) y
    | error e => rfl

/-- A loop over rows of a loop over columns runs over the points of the window (42_pixel.md R220). -/
theorem forRange_nested {σ : Type} (x y w h : Nat) (f : Nat → Nat → σ → Except State σ) (z : σ) :
    forRange h y (fun py a => forRange w x (fun px b => f px py b) a) z =
      (windowPoints x y w h).foldlM (fun a q => f q.1 q.2 a) z := by
  rw [forRange_eq]
  unfold windowPoints
  generalize List.range' y h = rows
  induction rows generalizing z with
  | nil => rfl
  | cons r rows ih =>
    rw [List.foldlM_cons, List.flatMap_cons, List.foldlM_append, List.foldlM_map, forRange_eq]
    exact congrArg _ (funext fun z' => ih z')

theorem mem_windowPoints (x y w h : Nat) (q : Nat × Nat) :
    q ∈ windowPoints x y w h ↔ x ≤ q.1 ∧ q.1 < x + w ∧ y ≤ q.2 ∧ q.2 < y + h := by
  unfold windowPoints
  simp only [List.mem_flatMap, List.mem_map, List.mem_range'_1]
  constructor
  · rintro ⟨py, hy, px, hx, rfl⟩
    exact ⟨hx.1, hx.2, hy.1, hy.2⟩
  · rintro ⟨h1, h2, h3, h4⟩
    exact ⟨q.2, ⟨h3, h4⟩, q.1, ⟨h1, h2⟩, rfl⟩

/-! ### CLEAR_AREA over a list of points -/

/-- What was drawn does not depend on the log. -/
theorem drawnAll_withLog {s : State} {pts : List (Nat × Nat)} {c : Byte} {m : Memory} (e : List (ErrorKind × Byte))
    (h : DrawnAll { s with el := e } pts c m) : DrawnAll s pts c m :=
  ⟨h.bits, h.frame, h.canonical, h.cells, h.values⟩

/-- The points of a window drawn in order: the in-bounds ones are drawn, each other one is logged. -/
theorem area_list {s : State} (c : Byte) (r : ResultCode) (pts : List (Nat × Nat))
    (h : ∀ q ∈ pts, ∀ xm ym, s.transformed q.1 q.2 = some (xm, ym) → s.pixelInRegion xm ym = true) :
    ∃ m, pts.foldlM (fun (a : State × ResultCode) q => areaPoint c q.1 q.2 a) (s, r) =
        Except.ok (ε := State)
          ({ s with
              mem := m
              el := s.el ++ List.replicate (pts.countP fun q => (s.transformed q.1 q.2).isNone)
                (s.entry .boundsError) },
            if (pts.countP fun q => (s.transformed q.1 q.2).isNone) = 0 then r else .boundsError) ∧
      DrawnAll s (pts.filterMap fun q => s.transformed q.1 q.2) c m := by
  induction pts generalizing s r with
  | nil => exact ⟨s.mem, by simp [pure, Except.pure], drawnAll_nil s c⟩
  | cons q pts ih =>
    have hq := h q List.mem_cons_self
    have ht : ∀ p ∈ pts, ∀ xm ym, s.transformed p.1 p.2 = some (xm, ym) → s.pixelInRegion xm ym = true :=
      fun p hp => h p (List.mem_cons_of_mem _ hp)
    rw [List.foldlM_cons]
    cases hp : s.transformed q.1 q.2 with
    | some z =>
      obtain ⟨xm, ym⟩ := z
      obtain ⟨m, hm, hd⟩ := pack_ok c (hq xm ym hp)
      obtain ⟨m', hm', hd'⟩ := ih (s := { s with mem := m }) r ht
      refine ⟨m', ?_, ?_⟩
      · have e : areaPoint c q.1 q.2 (s, r) = .ok ({ s with mem := m }, r) := by simp [areaPoint, hp, hm]
        rw [e, List.countP_cons_of_neg (by simp [hp])]
        exact hm'
      · rw [List.filterMap_cons_some (f := fun q : Nat × Nat => s.transformed q.1 q.2) hp]
        exact drawnAll_cons hd hd'
    | none =>
      obtain ⟨m', hm', hd'⟩ := ih (s := s.log .boundsError) .boundsError ht
      refine ⟨m', ?_, ?_⟩
      · have e : areaPoint c q.1 q.2 (s, r) = .ok (s.log .boundsError, .boundsError) := by simp [areaPoint, hp]
        rw [e, List.countP_cons_of_pos (by simp [hp])]
        refine hm'.trans ?_
        simp only [ite_self, log_el, List.append_assoc, List.cons_append, List.nil_append, Nat.add_eq_zero_iff,
          Nat.one_ne_zero, and_false, if_false, List.replicate_succ]
        rfl
      · rw [List.filterMap_cons_none (f := fun q : Nat × Nat => s.transformed q.1 q.2) hp]
        exact drawnAll_withLog _ hd'

/-- A window with an in-bounds point that fails the region check: the points before the first such point are drawn or
logged, then the fault. -/
theorem area_list_fault {s : State} (c : Byte) (r : ResultCode) (pts : List (Nat × Nat))
    (h : ∃ q ∈ pts, s.pointPasses q.1 q.2 = false) :
    ∃ m, pts.foldlM (fun (a : State × ResultCode) q => areaPoint c q.1 q.2 a) (s, r) =
        Except.error (ε := State) (({ s with
          mem := m
          el := s.el ++ List.replicate
            ((pts.takeWhile fun q => s.pointPasses q.1 q.2).countP fun q => (s.transformed q.1 q.2).isNone)
            (s.entry .boundsError) } : State).raiseFault .bufferOverrun) ∧
      DrawnAll s ((pts.takeWhile fun q => s.pointPasses q.1 q.2).filterMap fun q => s.transformed q.1 q.2) c m := by
  induction pts generalizing s r with
  | nil =>
    obtain ⟨q, hq, -⟩ := h
    exact absurd hq (by simp)
  | cons q pts ih =>
    rw [List.foldlM_cons]
    have rest (hq : s.pointPasses q.1 q.2 = true) : ∃ p ∈ pts, s.pointPasses p.1 p.2 = false := by
      obtain ⟨p, hp, hf⟩ := h
      rcases List.mem_cons.1 hp with rfl | hp
      · rw [hq] at hf
        cases hf
      · exact ⟨p, hp, hf⟩
    cases hp : s.transformed q.1 q.2 with
    | some z =>
      obtain ⟨xm, ym⟩ := z
      by_cases hr : s.pixelInRegion xm ym = true
      · have hq : s.pointPasses q.1 q.2 = true := by simp [State.pointPasses, hp, hr]
        obtain ⟨m, hm, hd⟩ := pack_ok c hr
        obtain ⟨m', hm', hd'⟩ := ih (s := { s with mem := m }) r (rest hq)
        refine ⟨m', ?_, ?_⟩
        · have e : areaPoint c q.1 q.2 (s, r) = .ok ({ s with mem := m }, r) := by simp [areaPoint, hp, hm]
          rw [e, List.takeWhile_cons_of_pos (p := fun q : Nat × Nat => s.pointPasses q.1 q.2) hq,
            List.countP_cons_of_neg (by simp [hp])]
          exact hm'
        · rw [List.takeWhile_cons_of_pos (p := fun q : Nat × Nat => s.pointPasses q.1 q.2) hq,
            List.filterMap_cons_some (f := fun q : Nat × Nat => s.transformed q.1 q.2) hp]
          exact drawnAll_cons hd hd'
      · have hq : ¬ s.pointPasses q.1 q.2 = true := by simp [State.pointPasses, hp, hr]
        rw [List.takeWhile_cons_of_neg (p := fun q : Nat × Nat => s.pointPasses q.1 q.2) hq]
        refine ⟨s.mem, ?_, drawnAll_nil s c⟩
        have e : areaPoint c q.1 q.2 (s, r) = .error (s.raiseFault .bufferOverrun) := by
          simp [areaPoint, hp, pack_fault c (by simpa using hr)]
        rw [e]
        simp only [List.countP_nil, List.replicate_zero, List.append_nil]
        rfl
    | none =>
      have hq : s.pointPasses q.1 q.2 = true := by simp [State.pointPasses, hp]
      obtain ⟨m', hm', hd'⟩ := ih (s := s.log .boundsError) .boundsError (rest hq)
      rw [List.takeWhile_cons_of_pos (p := fun q : Nat × Nat => s.pointPasses q.1 q.2) hq]
      refine ⟨m', ?_, ?_⟩
      · have e : areaPoint c q.1 q.2 (s, r) = .ok (s.log .boundsError, .boundsError) := by simp [areaPoint, hp]
        rw [e, List.countP_cons_of_pos (by simp [hp])]
        refine hm'.trans ?_
        simp only [log_el, List.append_assoc, List.cons_append, List.nil_append, List.replicate_succ]
        rfl
      · rw [List.filterMap_cons_none (f := fun q : Nat × Nat => s.transformed q.1 q.2) hp]
        exact drawnAll_withLog _ hd'

end Sys2Proof.Machine
end

