-- ==== Sys2Proof/Laws/Requests.lean ====
section
/-! SUPPORT. The operand checks of the configuration requests, the split of a Y value, and admission, each said once. -/

namespace Sys2Proof.Machine

/-! ### Operand checks (40_canvas_config.md R150, R155, R160) -/

theorem ofDegrees_code (r : Rotation) : Rotation.ofDegrees r.code = some r := by cases r <;> decide

theorem ofDegrees_none {a : Coord} (h : ∀ r : Rotation, r.code ≠ a) : Rotation.ofDegrees a = none := by
  unfold Rotation.ofDegrees
  rw [if_neg fun e => h .r0 e.symm, if_neg fun e => h .r90 e.symm, if_neg fun e => h .r180 e.symm,
    if_neg fun e => h .r270 e.symm]

theorem ofCode_code (m : Mirror) : Mirror.ofCode (m.code.setWidth 8) = some m := by cases m <;> decide

theorem ofCode_none {k : Byte} (h : ∀ m : Mirror, m.code.setWidth 8 ≠ k) : Mirror.ofCode k = Option.none := by
  unfold Mirror.ofCode
  rw [if_neg fun e => h .none e.symm, if_neg fun e => h .horizontal e.symm, if_neg fun e => h .vertical e.symm,
    if_neg fun e => h .both e.symm]

theorem ofScale_code (d : Density) : Density.ofScale d.code = some d := by cases d <;> decide

theorem ofScale_none {k : Byte} (h : ∀ d : Density, d.code ≠ k) : Density.ofScale k = none := by
  unfold Density.ofScale
  rw [if_neg fun e => h .d2 e.symm, if_neg fun e => h .d4 e.symm, if_neg fun e => h .d7 e.symm]

/-! ### The split of a Y value (43_windowing.md R233, R234) -/

theorem split_above {v : Int} (h : 256 ≤ v) : splitHi v = v / 256 ∧ splitLo v = v % 256 := by
  simp [splitHi, splitLo, h]

theorem split_below {v : Int} (h : v < 256) : splitHi v = 0 ∧ splitLo v = v := by
  have : ¬ 256 ≤ v := by omega
  simp [splitHi, splitLo, this]

/-! ### Admission (45_protocol_ops.md R291, R292) -/

theorem streamFits_iff (p : Params) (q : Addr) (n : Nat) :
    streamFits p q n = true ↔ n = 0 ∨ q.toNat + n ≤ p.memSize := by simp [streamFits]

theorem admitIdle_idle {s : State} (h : s.st.dstate = .idle) (fits : Bool) (ms : List Micro) :
    s.admitIdle fits ms = .next (if fits then s.startSeq ms else s.raiseFault .bufferOverrun) := by
  simp [State.admitIdle, h]

theorem admitIdle_poweredOff {s : State} (h : s.st.dstate = .poweredOff) (fits : Bool) (ms : List Micro) :
    s.admitIdle fits ms = .next (s.raiseFault .notInitialised) := by simp [State.admitIdle, h]

theorem admitIdle_sleeping {s : State} (h : s.st.dstate = .sleeping) (fits : Bool) (ms : List Micro) :
    s.admitIdle fits ms = .next (s.raiseFault .sleepAccess) := by simp [State.admitIdle, h]

theorem admitIdle_other {s : State}
    (h : s.st.dstate = .resetting ∨ s.st.dstate = .initializing ∨ s.st.dstate = .busy ∨ s.st.dstate = .partialLocked)
    (fits : Bool) (ms : List Micro) : s.admitIdle fits ms = .fault .displayStateOutsideTable := by
  rcases h with h | h | h | h <;> simp [State.admitIdle, h]

/-- Everything `admitIdle` can do. -/
theorem admitIdle_cases (s : State) (fits : Bool) (ms : List Micro) :
    (s.st.dstate = .idle ∧ fits = true ∧ s.admitIdle fits ms = .next (s.startSeq ms)) ∨
    (∃ c, c ≠ .none ∧ s.admitIdle fits ms = .next (s.raiseFault c)) ∨
    (settled s.st.dstate = false ∧ s.admitIdle fits ms = .fault .displayStateOutsideTable) := by
  cases h : s.st.dstate
  case idle =>
    cases fits
    · exact .inr (.inl ⟨.bufferOverrun, by decide, by simp [admitIdle_idle h]⟩)
    · exact .inl ⟨rfl, rfl, by simp [admitIdle_idle h]⟩
  case poweredOff => exact .inr (.inl ⟨.notInitialised, by decide, admitIdle_poweredOff h fits ms⟩)
  case sleeping => exact .inr (.inl ⟨.sleepAccess, by decide, admitIdle_sleeping h fits ms⟩)
  all_goals exact .inr (.inr ⟨rfl, admitIdle_other (by simp [h]) fits ms⟩)

/-- Each request that needs `Idle` is an admission of a sequence that is not empty; the sequence starts only where the
request's stream stays in memory. -/
theorem exec_needsIdle {i : Instr} {s : State} (h : needsIdle i = true) :
    ∃ fits ms, exec i s = s.admitIdle fits ms ∧ ms ≠ [] ∧
      (fits = true ↔ ∀ q n, streamOf s.par i = some (q, n) → n = 0 ∨ q.toNat + n ≤ s.par.memSize) := by
  cases i <;> try cases h
  case refreshFull image =>
    refine ⟨_, refreshFullSeq s.par image, rfl, by simp [refreshFullSeq, encodeWire], ?_⟩
    rw [streamFits_iff]
    exact ⟨fun hf q n e => by cases e; exact hf, fun hf => hf _ _ rfl⟩
  case refreshPartial x y w hh sub =>
    refine ⟨_, refreshPartialSeq s.par x y w hh sub, rfl, by simp [refreshPartialSeq], ?_⟩
    rw [streamFits_iff]
    exact ⟨fun hf q n e => by cases e; exact hf, fun hf => hf _ _ rfl⟩
  case refreshFast image =>
    refine ⟨_, refreshFastSeq s.par image, rfl, by simp [refreshFastSeq, refreshTail, encodeWire], ?_⟩
    unfold streamOf
    cases hw : s.par.fastWritesRam
    · simp
    · simp only [Bool.not_true, Bool.false_or, streamFits_iff, if_true]
      exact ⟨fun hf q n e => by cases e; exact hf, fun hf => hf _ _ rfl⟩
  case deepSleep =>
    exact ⟨true, deepSleepSeq s.par, rfl, by simp [deepSleepSeq, encodeWire], by simp [streamOf]⟩

end Sys2Proof.Machine
end

