-- ==== Sys2Proof/Tests/Slice0.lean ====
section
/-! SUPPORT. The model's own tests. Expected values are those of 95_test_vectors.md, which works them out by hand from
the rules; the section of the file stands in each comment. The second half shows that the hypotheses of the statements
can be met. -/

namespace Sys2Proof.Tests

open Sys2Proof Sys2Proof.Machine

/-! ### Helpers -/

/-- What an outcome's next state shows, if it is one. -/
def look {α : Type} (o : Host.Outcome State Fault Refusal) (f : State → α) : Option α :=
  match o with
  | .next s => some (f s)
  | .fault _ => none
  | .refused _ => none

/-- A canvas of `w` by `h` pixels with its buffer at `base`, not rotated. -/
def canvasAt (base : Addr) (d : Density) (w h : Coord) : State :=
  { State.reset with
    cv := { Canvas.reset with base := base, valid := true, wm := w, hm := h, wl := w, hl := h, dens := d } }

/-- The canvas at 0x1000, as most vectors have it. -/
def canvas (d : Density) (w h : Coord) : State := canvasAt 0x1000 d w h

/-- The memory of a state replaced. -/
def withMem (s : State) (m : Memory) : State := { s with mem := m }

/-- `MEM_SIZE` replaced. -/
def withMemSize (s : State) (n : Nat) : State := { s with par := { s.par with memSize := n } }

/-- The panel made 8 pixels wide and one row high, so that an image is one byte. -/
def smallPanel (s : State) : State := { s with par := { s.par with panelW := 8, panelH := 1 } }

/-- The block at rest in a display state, with fixed draws. -/
def rest (d : DState) (xs bs : List Bool) (cs : List Nat) : State :=
  { State.reset with
    st := { Status.reset with dstate := d }
    env := { Env.initial with xferIn := xs, busyIn := bs, clockIn := cs } }

/-- A protocol request in progress, at the first of the micro-actions `ms`. -/
def running (d : DState) (ms : List Micro) (xs bs : List Bool) (cs : List Nat) : State :=
  { rest d xs bs cs with sq := { Sequencer.reset with reqActive := true, req := 0x21, seq := ms } }

/-- The host about to act. -/
def offered (acts : List HostAct) : State := { State.reset with env := { Env.initial with host := acts } }

/-- A protocol request in progress, whose host acts meanwhile. -/
def disturbed (ms : List Micro) (acts : List HostAct) (xs bs : List Bool) : State :=
  let s := running .idle ms xs bs []
  { s with env := { s.env with host := acts } }

/-- `FULL_RESETS_COUNTERS` and `FAST_WRITES_RAM` replaced. -/
def withOptions (s : State) (counters ram : Bool) : State :=
  { s with par := { s.par with fullResetsCounters := counters, fastWritesRam := ram } }

/-- A faulted block. -/
def faulted (acts : List HostAct) : State := { offered acts with st := { Status.reset with fault := .noBuffer } }

/-- A halted block. -/
def haltedBlock (acts : List HostAct) : State := { offered acts with st := { Status.reset with halted := true } }

/-- An 8 by 8 canvas at a rotation and a mirror mode (L2.3). -/
def square (r : Rotation) (m : Mirror) : Canvas :=
  { Canvas.reset with valid := true, wm := 8, hm := 8, wl := 8, hl := 8, rot := r, mir := m }

/-- The bytes from an address. -/
def bytesAt (s : State) (a n : Nat) : List Byte := imageBytes s.mem (BitVec.ofNat 32 a) n

/-- The window registers. -/
def windowOf (s : State) : List Byte := [s.st.win0, s.st.win1, s.st.win2, s.st.win3, s.st.win4, s.st.win5]

/-! ### Well-formedness: each check refuses an ill-formed term -/

theorem test_wf_construct : Instr.wf (.construct 0 8 8 0 false 0x100) = false := by decide
theorem test_wf_construct_ok : Instr.wf (.construct 0 8 8 0 false 0) = true ∧
    Instr.wf (.construct 0 8 8 0 true 0x100) = true := by decide
theorem test_wf_commands : Cmds.distinct { Cmds.default with border := 0x12 } = false := by decide
theorem test_wf_memSize : Params.memSizeOk { Params.default with memSize := 0 } = false ∧
    Params.memSizeOk { Params.default with memSize := 2 ^ 32 + 1 } = false := by decide
theorem test_wf_pulse : Params.pulseOk { Params.default with tRstLow := 9 } = false ∧
    Params.pulseOk { Params.default with tRstWait := 99 } = false := by decide
theorem test_wf_slot : D7Slot.distinct ⟨3, 3, 4⟩ = false ∧ D7Slot.distinct ⟨3, 4, 3⟩ = false ∧
    D7Slot.distinct ⟨4, 3, 3⟩ = false := by decide
theorem test_wf_layout : D7Layout.disjoint { D7Layout.default with s1 := ⟨2, 4, 5⟩ } = false ∧
    D7Layout.distinct { D7Layout.default with s7 := ⟨0, 0, 5⟩ } = false := by decide
theorem test_wf_params : Params.default.wf = true ∧ D7Layout.default.disjoint = true := by decide

/-! ### Decoding: the words of L2.1 and the command bytes of 30_encoding.md R111 -/

theorem test_decode_construct :
    decodeTableWord 128 0x0000000020000001005A00C800C8FF01 = some (.construct 0xFF 200 200 90 true 0x2000) ∧
    decodeTableWord 128 0x00000000000000000000000800080001 = some (.construct 0 8 8 0 false 0) := by decide
theorem test_decode_setBuffer : decodeTableWord 128 0x00000000200000000000000000000002 = some (.setBuffer 0x2000) := by
  decide
theorem test_decode_setRotation : decodeTableWord 128 0x000000000000000000000000010E0003 = some (.setRotation 270) := by
  decide
theorem test_decode_setMirror : decodeTableWord 128 0x00000000000000000000000000000104 = some (.setMirror 1) := by decide
theorem test_decode_setDensity : decodeTableWord 128 0x00000000000000000000000000000705 = some (.setDensity 7) := by
  decide
theorem test_decode_clear : decodeTableWord 128 0x0000000000000000000000000000FF06 = some (.clear 0xFF) := by decide
theorem test_decode_clearArea :
    decodeTableWord 128 0x00000000000000010008000000040007 = some (.clearArea 0 4 0 8 1) := by decide
theorem test_decode_drawPixel :
    decodeTableWord 128 0x0000000000000000000000010001FF08 = some (.drawPixel 0xFF 1 1) := by decide
theorem test_decode_readPixel :
    decodeTableWord 128 0x00000000000000000000000100090009 = some (.readPixel 9 1) := by decide
theorem test_decode_windowCalc :
    decodeTableWord 128 0x00000000000000C800C8000000000010 = some (.windowCalc 0 0 200 200) := by decide
theorem test_decode_init : decodeTableWord 128 0x00000000000000000000000000000020 = some .init := by decide
theorem test_decode_refreshFull :
    decodeTableWord 128 0x00000000200000000000000000000021 = some (.refreshFull 0x2000) := by decide
theorem test_decode_refreshPartial :
    decodeTableWord 128 0x00000000300000020010003200080022 = some (.refreshPartial 8 50 16 2 0x3000) := by decide
theorem test_decode_refreshFast : decodeTableWord 128 0x00000000000000000000000000000023 = some (.refreshFast 0) := by
  decide
theorem test_decode_deepSleep : decodeTableWord 128 0x00000000000000000000000000000024 = some .deepSleep := by decide

theorem test_decode_cmdSwReset : decodeWire Params.default [.sendCmd 0x12] = some .cmdSwReset := by decide
theorem test_decode_cmdDriverOutput :
    decodeWire Params.default [.sendCmd 0x01, .sendData 0xC7, .sendData 1, .sendData 2] =
      some (.cmdDriverOutput 0xC7 1 2) := by decide
theorem test_decode_cmdDataEntry :
    decodeWire Params.default [.sendCmd 0x11, .sendData 1] = some (.cmdDataEntry 1) := by decide
theorem test_decode_cmdRamXRange :
    decodeWire Params.default [.sendCmd 0x44, .sendData 1, .sendData 0x18] = some (.cmdRamXRange 1 0x18) := by decide
theorem test_decode_cmdRamYRange :
    decodeWire Params.default [.sendCmd 0x45, .sendData 1, .sendData 2, .sendData 3, .sendData 4] =
      some (.cmdRamYRange 1 2 3 4) := by decide
theorem test_decode_cmdBorder :
    decodeWire Params.default [.sendCmd 0x3C, .sendData 5] = some (.cmdBorder 5) := by decide
theorem test_decode_cmdTempSensor :
    decodeWire Params.default [.sendCmd 0x18, .sendData 0x80] = some (.cmdTempSensor 0x80) := by decide
theorem test_decode_cmdRamXCounter :
    decodeWire Params.default [.sendCmd 0x4E, .sendData 6] = some (.cmdRamXCounter 6) := by decide
theorem test_decode_cmdRamYCounter :
    decodeWire Params.default [.sendCmd 0x4F, .sendData 0xC7, .sendData 1] = some (.cmdRamYCounter 0xC7 1) := by decide
theorem test_decode_cmdWriteRam :
    decodeWire Params.default [.sendCmd 0x24, .stream 0x3000 4] = some (.cmdWriteRam 0x3000 4) := by decide
theorem test_decode_cmdUpdCtrl2 :
    decodeWire Params.default [.sendCmd 0x22, .sendData 0xF7] = some (.cmdUpdCtrl2 0xF7) := by decide
theorem test_decode_cmdMasterAct :
    decodeWire Params.default [.sendCmd 0x20, .setState .busy] = some .cmdMasterAct := by decide
theorem test_decode_cmdDeepSleep :
    decodeWire Params.default [.sendCmd 0x10, .sendData 1] = some (.cmdDeepSleep 1) := by decide

/-- The illegal words of L2.1, by the clause of 30_encoding.md R104 each breaks. -/
theorem test_illegal_words :
    decodeRequest 0x0000000000000000000000000000000A = .error .unassignedOpcode ∧
    decodeRequest 0x0001000000000000000000000000FF06 = .error .reservedField ∧
    decodeRequest 0x00000000000000000001000100010008 = .error .unusedField ∧
    decodeRequest 0x00000000010000000000000800080001 = .error .constructFlags ∧
    decodeRequest 0x00000000010000030000000800080001 = .error .constructFlags := by
  refine ⟨?_, ?_, ?_, ?_, ?_⟩ <;> rfl

theorem test_encode_requests :
    encodeRequest (.construct 0xFF 16 2 0 true 0x1000) = some 0x0000000010000001000000020010FF01 ∧
    encodeRequest (.clearArea 0 4 0 8 1) = some 0x00000000000000010008000000040007 := by decide
theorem test_encode_wire : encodeWire Params.default (.cmdRamYCounter 0xC7 1) =
    [.sendCmd 0x4F, .sendData 0xC7, .sendData 1] := by decide

/-- 30_encoding.md R121: `REWAKE` is `INIT`, `PCLR` draws black; an operand past its field has no word. -/
theorem test_assemble : AsmLine.requests Params.default (.pclr 3 4) = some [.drawPixel 0x00 3 4] ∧
    AsmLine.requests Params.default .rewake = some [.init] ∧
    AsmLine.requests Params.default (.clear 256) = none := by decide

/-! ### Canvas configuration (L2.2) -/

theorem test_construct : look (exec (.construct 0xFF 16 2 45 true 0x1000) State.reset)
    (fun t => (t.cv.rot, t.cv.wl, t.cv.hl, t.cv.valid, t.st.result)) =
      some (.r0, 16, 2, true, .invalidParameter) := by decide
theorem test_construct_turned : look (exec (.construct 0xFF 16 2 90 true 0x1000) State.reset)
    (fun t => (t.cv.wm, t.cv.hm, t.cv.wl, t.cv.hl)) = some (16, 2, 2, 16) := by decide
theorem test_setBuffer : look (exec (.setBuffer 0x2000) State.reset)
    (fun t => (t.cv.valid, t.cv.base)) = some (true, 0x2000) := by decide
theorem test_setRotation : look (exec (.setRotation 90) (canvas .d2 16 2))
    (fun t => (t.cv.rot, t.cv.wl, t.cv.hl)) = some (.r90, 2, 16) := by decide
theorem test_setRotation_unsupported : look (exec (.setRotation 360) (canvas .d2 16 2))
    (fun t => (t.cv.rot, t.st.result)) = some (.r0, .invalidParameter) := by decide
theorem test_setMirror : look (exec (.setMirror 3) (canvas .d2 16 2)) (fun t => t.cv.mir) = some .both := by decide
theorem test_setMirror_unsupported : look (exec (.setMirror 4) (canvas .d2 16 2))
    (fun t => (t.cv.mir, t.st.result)) = some (.none, .invalidParameter) := by decide
theorem test_setDensity : look (exec (.setDensity 7) (canvas .d2 16 2)) (fun t => t.cv.dens) = some .d7 := by decide
theorem test_setDensity_unsupported : look (exec (.setDensity 8) (canvas .d2 16 2))
    (fun t => (t.cv.dens, t.el.length)) = some (.d2, 1) := by decide

/-! ### Transform (L2.3) -/

theorem test_transform_raw : transform .raw (square .r90 .none) 7 7 = some (1, 7) ∧
    transform .raw (square .r90 .vertical) 2 5 = some (3, 6) ∧
    transform .raw (square .r180 .horizontal) 2 5 = some (2, 3) ∧
    transform .raw (square .r270 .both) 0 7 = some (1, 0) ∧
    transform .raw (square .r180 .none) 3 0 = none := by decide
theorem test_transform_index : transform .index (square .r90 .vertical) 2 5 = some (2, 5) ∧
    transform .index (square .r270 .horizontal) 3 0 = some (7, 4) ∧
    transform .index (square .r180 .vertical) 0 7 = some (7, 7) ∧
    transform .index (square .r0 .none) 8 0 = none := by decide

/-! ### Pixels -/

/-- L2.4 and P1: row 1 of a white 16 by 2 canvas. -/
theorem test_drawPixel : look (exec (.drawPixel 0x00 9 1) (withMem (canvas .d2 16 2) [(0x1002, 0xFF), (0x1003, 0xFF)]))
    (fun t => bytesAt t 0x1000 4) = some [0x00, 0x00, 0xFF, 0xBF] := by decide
/-- L2.6: slot 5 writes two bytes. -/
theorem test_drawPixel_d7 : look (exec (.drawPixel 5 5 0) (canvas .d7 8 1))
    (fun t => bytesAt t 0x1000 3) = some [0x00, 0x01, 0x40] := by decide
/-- L2.5, the last row. -/
theorem test_readPixel_d4 : look (exec (.readPixel 7 1) (withMem (canvas .d4 8 2) [(0x1003, 0x22)]))
    (fun t => t.st.rval) = some 2 := by decide
/-- P5, line 11. -/
theorem test_readPixel_d7 : look (exec (.readPixel 3 1) (withMem (canvas .d7 8 2) [(0x1003, 0xB5), (0x1004, 0x5B)]))
    (fun t => t.st.rval) = some 5 := by decide
/-- L2.4: padding bits are written, the byte after the region is not. -/
theorem test_clear : look (exec (.clear 0xFF) (canvas .d2 10 1))
    (fun t => bytesAt t 0x1000 3) = some [0xFF, 0xFF, 0x00] := by decide
/-- L2.6: CLEAR on a 5 by 2 canvas faults in its second row. -/
theorem test_clear_d7_faults : look (exec (.clear 7) (canvas .d7 5 2))
    (fun t => (t.st.fault, bytesAt t 0x1000 4)) = some (.bufferOverrun, [0xFF, 0xFE, 0x00, 0x00]) := by decide +kernel
/-- L2.7, the second row: six points are outside. -/
theorem test_clearArea : look (exec (.clearArea 0x00 14 1 4 2) (withMem (canvas .d2 16 2) [(0x1003, 0xFF)]))
    (fun t => (t.st.result, t.el.length, bytesAt t 0x1003 1)) = some (.boundsError, 6, [0xFC]) := by decide +kernel
/-- L2.11: no buffer comes before bounds. -/
theorem test_clearArea_noBuffer : look (exec (.clearArea 0x00 14 1 4 2) State.reset)
    (fun t => (t.st.fault, t.el.length)) = some (.noBuffer, 0) := by decide

/-! ### Windowing (L2.8) -/

theorem test_windowCalc : look (exec (.windowCalc 3 210 5 1) State.reset) windowOf =
    some [0x00, 0xFF, 0xF6, 0x00, 0xF6, 0x00] := by decide
theorem test_windowCalc_full : look (exec (.windowCalc 0 0 200 200) State.reset) windowOf =
    some [0x00, 0x18, 0xC8, 0x00, 0x8F, 0x01] := by decide

/-! ### Protocol requests (L2.9, L2.11) -/

/-- INIT starts with `SetState(Resetting)` and a reset pulse, and sends nothing yet. -/
theorem test_init : look (exec .init State.reset) (fun t => (t.pending.take 3, t.wt)) =
    some ([.setState .resetting, .rst false, .delay 10], []) := by decide
theorem test_init_asleep : look (exec .init (rest .sleeping [] [] [])) (fun t => t.sq.reqActive) = some true := by decide
/-- 5000 bytes fit a memory of 5000 bytes exactly. -/
theorem test_refreshFull : look (exec (.refreshFull 0) (withMemSize (rest .idle [] [] []) 5000))
    (fun t => t.pending.take 2) = some [.sendCmd 0x24, .stream 0 5000] := by decide
theorem test_refreshFull_range : look (exec (.refreshFull 1) (withMemSize (rest .idle [] [] []) 5000))
    (fun t => t.st.fault) = some .bufferOverrun := by decide
theorem test_refreshPartial : look (exec (.refreshPartial 8 50 16 2 0x3000) (rest .idle [] [] []))
    (fun t => (t.pending.drop 7).take 8) = some [.sendCmd 0x44, .sendData 0x01, .sendData 0x02, .sendCmd 0x45,
      .sendData 0x96, .sendData 0x00, .sendData 0x97, .sendData 0x00] := by decide
theorem test_refreshPartial_asleep : look (exec (.refreshPartial 0 0 8 1 0) (rest .sleeping [] [] []))
    (fun t => t.st.fault) = some .sleepAccess := by decide
theorem test_refreshFast : look (exec (.refreshFast 0) (rest .idle [] [] [])) State.pending =
    some [.sendCmd 0x22, .sendData 0xC7, .sendCmd 0x20, .setState .busy, .waitIdleTimed 2000, .setState .idle] := by
  decide
theorem test_refreshFast_off : look (exec (.refreshFast 0) State.reset) (fun t => t.st.fault) =
    some .notInitialised := by decide
theorem test_deepSleep : look (exec .deepSleep (rest .idle [] [] [])) State.pending =
    some [.sendCmd 0x10, .sendData 0x01, .setState .sleeping, .delay 100] := by decide
theorem test_deepSleep_asleep : look (exec .deepSleep (rest .sleeping [] [] [])) (fun t => t.st.fault) =
    some .sleepAccess := by decide

/-! ### Wire commands (L2.9) -/

theorem test_cmdSwReset : look (exec .cmdSwReset (running .initializing [.sendCmd 0x12, .waitIdle] [true] [] []))
    (fun t => (t.wt, t.pending)) = some ([.cmd 0x12], [.waitIdle]) := by decide
theorem test_cmdDriverOutput : look (exec (.cmdDriverOutput 0xC7 0 0) (rest .idle [true] [] []))
    (fun t => (t.wt, t.pending)) = some ([.cmd 0x01], [.sendData 0xC7, .sendData 0, .sendData 0]) := by decide
theorem test_cmdDataEntry : look (exec (.cmdDataEntry 1) (rest .idle [true] [] []))
    (fun t => (t.wt, t.pending)) = some ([.cmd 0x11], [.sendData 1]) := by decide
theorem test_cmdRamXRange : look (exec (.cmdRamXRange 0 0x18) (rest .idle [true] [] []))
    (fun t => (t.wt, t.pending)) = some ([.cmd 0x44], [.sendData 0, .sendData 0x18]) := by decide
theorem test_cmdRamYRange : look (exec (.cmdRamYRange 0xC7 0 1 2) (rest .idle [true] [] []))
    (fun t => (t.wt, t.pending)) =
      some ([.cmd 0x45], [.sendData 0xC7, .sendData 0, .sendData 1, .sendData 2]) := by decide
theorem test_cmdBorder : look (exec (.cmdBorder 5) (rest .idle [true] [] []))
    (fun t => (t.wt, t.pending)) = some ([.cmd 0x3C], [.sendData 5]) := by decide
theorem test_cmdTempSensor : look (exec (.cmdTempSensor 0x80) (rest .idle [true] [] []))
    (fun t => (t.wt, t.pending)) = some ([.cmd 0x18], [.sendData 0x80]) := by decide
theorem test_cmdRamXCounter : look (exec (.cmdRamXCounter 0) (rest .idle [true] [] []))
    (fun t => (t.wt, t.pending)) = some ([.cmd 0x4E], [.sendData 0]) := by decide
theorem test_cmdRamYCounter : look (exec (.cmdRamYCounter 0xC7 0) (rest .idle [true] [] []))
    (fun t => (t.wt, t.pending)) = some ([.cmd 0x4F], [.sendData 0xC7, .sendData 0]) := by decide
theorem test_cmdWriteRam : look (exec (.cmdWriteRam 0x3000 4) (rest .idle [true] [] []))
    (fun t => (t.wt, t.pending)) = some ([.cmd 0x24], [.stream 0x3000 4]) := by decide
theorem test_cmdUpdCtrl2 : look (exec (.cmdUpdCtrl2 0xF7) (rest .idle [true] [] []))
    (fun t => (t.wt, t.pending)) = some ([.cmd 0x22], [.sendData 0xF7]) := by decide
theorem test_cmdMasterAct : look (exec .cmdMasterAct (running .idle [.sendCmd 0x20, .setState .busy] [true] [] []))
    (fun t => (t.wt, t.pending)) = some ([.cmd 0x20], [.setState .busy]) := by decide
theorem test_cmdDeepSleep : look (exec (.cmdDeepSleep 1) (rest .idle [true] [] []))
    (fun t => (t.wt, t.pending)) = some ([.cmd 0x10], [.sendData 1]) := by decide

/-! ### Steps -/

/-- L2.11: the send that fails (`INIT`'s third). -/
theorem test_sendFails : look (step (running .initializing [.sendData 0xC7, .waitIdle] [false] [] []))
    (fun t => (t.wt, t.st.halted, t.st.result, t.st.dstate, t.sq.reqActive)) =
      some ([.xferFail .data 0xC7], true, .transportFailure, .initializing, false) := by decide
/-- L2.9.3: the stream's bytes in increasing address order. -/
theorem test_stream : look (step (withMem
      (running .partialLocked [.stream 0x3000 2, .waitIdle] [true, true] [] []) [(0x3000, 0x7F), (0x3001, 0xFE)]))
    (fun t => t.wt) = some [.data 0x7F, .data 0xFE] := by decide
/-- L2.10: the busy line is read before the clock. -/
theorem test_timedWait_notBusy : look (runSteps 2 (running .busy [.waitIdleTimed 2000, .setState .idle] [] [false] [0]))
    (fun t => (t.wt, t.sq.wr)) = some ([.poll false], .ok) := by decide
theorem test_timedWait_budget :
    look (runSteps 2 (running .busy [.waitIdleTimed 2000, .setState .idle] [] [true] [100, 2000]))
      (fun t => (t.wt, t.sq.wr, t.el)) = some ([.poll true], .timeout, [(.timeout, 0x21)]) := by decide
/-- 93_implementation_defined.md I13: a word issued while a request executes is discarded, and the request goes on. -/
theorem test_wordDuringRequest : look (step (disturbed [.sendData 0xC7, .waitIdle] [.issue 0x24, .issue 0x20] [true] []))
    (fun t => (t.wt, t.pending, t.env.host)) = some ([.data 0xC7], [.waitIdle], [.issue 0x20]) := by decide
/-- 93_implementation_defined.md I13: a byte the host writes during a stream is sent if it is written before its turn. -/
theorem test_hostWriteDuringStream : look (step (disturbed [.stream 0x3000 3, .waitIdle]
      [.pass, .writeMem 0x3002 0xAA, .writeMem 0x3000 0xBB] [true, true, true] []))
    (fun t => (t.wt, bytesAt t 0x3000 3)) =
      some ([.data 0x00, .data 0x00, .data 0xAA], [0xBB, 0x00, 0xAA]) := by decide
/-- A host that awaits the end of the request makes no move, and goes on when it has ended. -/
theorem test_hostAwaits :
    look (runSteps 3 (disturbed [.rst true, .rst true] [.await, .writeMem 0x3000 7] [] []))
      (fun t => (t.sq.reqActive, t.env.host)) = some (false, [.writeMem 0x3000 7]) := by decide
/-- 10_state.md R34 (b): a delay raises the clock's least value, once a value has been read. -/
theorem test_delay : (Env.delay { Env.initial with clockFloor := 5, clockRead := true } 10).clockFloor = 15 ∧
    (Env.delay { Env.initial with clockFloor := 5 } 10).clockFloor = 5 := by decide
/-- The words the host's check places are what the next step runs. -/
theorem test_fetch_request : look (step (State.reset.withFetchWord 128 0x000000000000000000000000005A0003))
    (fun t => t.cv.rot) = some .r90 := by decide
theorem test_fetch_wire : (State.reset.withFetchWord 8 0x44).pending = [.sendCmd 0x44, .sendData 0, .sendData 0] := by
  decide
/-- 30_encoding.md R111: the data counts of a trace of L2.9.4, and one cut short. -/
theorem test_traceCommands :
    traceCommands [.cmd 0x22, .data 0xC7, .cmd 0x20, .poll false] = [(0x22, [0xC7]), (0x20, [])] ∧
    commandComplete Params.default (0x22, [0xC7]) = true ∧ commandComplete Params.default (0x22, []) = false := by
  decide

/-! ### The hypotheses of the statements can be met -/

/-- No block reset is coming where the inputs name no level. -/
theorem noReset_nil {s : State} (h : s.env.resetIn = []) : s.NoReset := by
  intro b hb
  rw [h] at hb
  cases hb

/-- A host with nothing to do keeps its duty. -/
theorem hostWaits_nil {s : State} (h : s.env.host = []) : s.HostWaits := .inl h

theorem test_witness_EncodedInstructionsDecode : Params.default.cmds.distinct = true ∧
    Instr.wf (.construct 0 1 1 0 false 0) = true ∧ Instr.wf .cmdMasterAct = true ∧
    encodeRequest .cmdMasterAct = none := by decide
theorem test_witness_DecodedWordsAreTheirEncodings :
    decodeRequest 0x00000000000000000000000800080001 = .ok (.construct 0 8 8 0 false 0) := rfl
theorem test_witness_EveryWordIsLegalOrRejected : legalWord 0x20 ∧ ¬ legalWord 0x120 := by
  unfold legalWord
  decide
theorem test_witness_AssembledWordsDecode :
    AsmLine.requests Params.default (.clear 255) = some [.clear 255] ∧
    AsmLine.requests Params.default (.construct none 65535 1 0 0) = some [.construct 0 65535 1 0 false 0] := by decide

theorem test_witness_StepRunsTheIssuedRequest :
    (offered [.issue 0x24]).Ready ∧ (offered [.issue 0x24]).env.host = .issue 0x24 :: [] ∧
    decodeRequest 0x24 = .ok .deepSleep := ⟨⟨rfl, rfl, rfl, rfl⟩, rfl, rfl⟩
theorem test_witness_StepRunsTheWireCommand :
    let s := running .idle [.sendCmd 0x20, .setState .busy] [true] [] []
    s.sq.reqActive = true ∧ s.resetAsserted = false ∧ s.pending = .sendCmd 0x20 :: [.setState .busy] ∧
    decodeWire s.par (.sendCmd 0x20 :: [.setState .busy]) = some .cmdMasterAct := by decide
theorem test_witness_StepRunsTheWireCommand_disturbed :
    let s := disturbed [.sendCmd 0x20, .setState .busy] [.writeMem 0x3000 1] [true] []
    s.sq.reqActive = true ∧ s.resetAsserted = false ∧ s.pending = .sendCmd 0x20 :: [.setState .busy] ∧
    decodeWire s.par (.sendCmd 0x20 :: [.setState .busy]) = some .cmdMasterAct := by decide
theorem test_witness_IllegalWordFaults :
    (offered [.issue 0x25]).Ready ∧ (offered [.issue 0x25]).env.host = .issue 0x25 :: [] ∧ ¬ legalWord 0x25 := by
  refine ⟨⟨rfl, rfl, rfl, rfl⟩, rfl, ?_⟩
  unfold legalWord
  decide
theorem test_witness_WordIsDiscardedWhenStuck_fault :
    let s := faulted [.issue 0x20]
    s.sq.reqActive = false ∧ s.resetAsserted = false ∧ s.st.fault ≠ .none ∧ s.env.host = .issue 0x20 :: [] := by decide
theorem test_witness_WordIsDiscardedWhenStuck_halt :
    let s := haltedBlock [.issue 0x20]
    s.sq.reqActive = false ∧ s.resetAsserted = false ∧ s.st.halted = true ∧ s.env.host = .issue 0x20 :: [] := by decide
theorem test_witness_WordIsDiscardedWhenStuck_active :
    let s := disturbed [.rst true, .waitIdle] [.issue 0x20, .issue 0x24] [] []
    s.sq.reqActive = true ∧ s.resetAsserted = false ∧ s.env.host = .issue 0x20 :: [.issue 0x24] ∧
    (∃ t, step s = .next t) ∧ ∀ q n ms, s.pending ≠ .stream q n :: ms :=
  ⟨rfl, rfl, rfl, ⟨_, rfl⟩, fun q n ms h => by cases h⟩
theorem test_witness_IdleStepsFollowTheHost :
    (offered [.pass]).env.host = .pass :: [] ∧ (offered [.await]).env.host = .await :: [] ∧
    (offered []).sq.reqActive = false ∧ (offered []).resetAsserted = false ∧ (offered []).env.host = [] ∧
    (offered [.writeMem 0xFFFF 1]).env.host = .writeMem 0xFFFF 1 :: [] ∧ 0xFFFF < (offered []).par.memSize ∧
    (offered [.writeMem 0x10000 1]).env.host = .writeMem 0x10000 1 :: [] ∧ ¬ 0x10000 < (offered []).par.memSize := by
  decide

theorem test_witness_StuckUntilBlockReset :
    (faulted [.writeMem 7 1]).NoReset ∧ (faulted [.writeMem 7 1]).sq.reqActive = false ∧
    (faulted [.writeMem 7 1]).st.fault ≠ .none ∧ ∀ v, HostAct.writeMem 8 v ∉ (faulted [.writeMem 7 1]).env.host :=
  ⟨noReset_nil rfl, rfl, by decide, fun v h => by cases h with | tail _ h => cases h⟩
theorem test_witness_StuckUntilBlockReset_halt :
    (haltedBlock []).NoReset ∧ (haltedBlock []).sq.reqActive = false ∧ (haltedBlock []).st.halted = true :=
  ⟨noReset_nil rfl, rfl, rfl⟩
theorem test_witness_BlockResetRestores :
    State.resetAsserted { running .busy [.waitIdle] [] [] [] with env := { Env.initial with resetIn := [true] } } = true :=
  rfl
theorem test_witness_HostReadsRegisters :
    (running .busy [.waitIdle] [] [] []).sq.reqActive = true ∧ State.reset.sq.reqActive = false := by decide
theorem test_witness_StepsOnlyAppendAndStick :
    (∃ t, step (faulted [.issue 0x20]) = .next t) ∧ (faulted [.issue 0x20]).resetAsserted = false ∧
    (faulted [.issue 0x20]).st.fault ≠ .none ∧
    (∃ t, step (haltedBlock [.issue 0x20]) = .next t) ∧ (haltedBlock [.issue 0x20]).resetAsserted = false ∧
    (haltedBlock [.issue 0x20]).st.halted = true := ⟨⟨_, rfl⟩, rfl, by decide, ⟨_, rfl⟩, rfl, rfl⟩

theorem test_witness_Construct : Rotation.code .r0 = 0 ∧ Rotation.code .r270 = 270 ∧
    (∀ r : Rotation, r.code ≠ 1) ∧ (∀ r : Rotation, r.code ≠ 271) := by
  refine ⟨rfl, rfl, ?_, ?_⟩ <;> intro r <;> cases r <;> decide
theorem test_witness_SetRotation : Rotation.code .r180 = 180 ∧ Rotation.code .r90 = 90 ∧
    State.reset.par.setrotSwapsDims = true ∧
    ({ Params.default with setrotSwapsDims := false } : Params).setrotSwapsDims = false ∧
    ∀ r : Rotation, r.code ≠ 360 := by
  refine ⟨rfl, rfl, rfl, rfl, ?_⟩
  intro r
  cases r <;> decide
theorem test_witness_SetMirror : (Mirror.code .none).setWidth 8 = (0 : Byte) ∧
    (Mirror.code .both).setWidth 8 = (3 : Byte) ∧ (∀ m : Mirror, m.code.setWidth 8 ≠ (4 : Byte)) ∧
    ∀ m : Mirror, m.code.setWidth 8 ≠ (0xFF : Byte) := by
  refine ⟨rfl, rfl, ?_, ?_⟩ <;> intro m <;> cases m <;> decide
theorem test_witness_SetDensity : Density.code .d2 = 2 ∧ Density.code .d7 = 7 ∧ (∀ d : Density, d.code ≠ 1) ∧
    ∀ d : Density, d.code ≠ 8 := by
  refine ⟨rfl, rfl, ?_, ?_⟩ <;> intro d <;> cases d <;> decide
theorem test_witness_CanvasRequestsIgnoreTheController :
    isCanvasRequest (.windowCalc 0 0 0 0) = true ∧ isCanvasRequest (.clear 0) = true := by decide

theorem test_witness_TransformFollowsItsSteps : transform .raw (square .r90 .none) 0 1 = some (7, 0) ∧
    transform .index (square .r270 .both) 7 7 = some (0, 7) := by decide
theorem test_witness_RawTransformConsequences :
    let cv : Canvas := { Canvas.reset with wm := 4, hm := 2, wl := 2, hl := 4, rot := .r90 }
    1 ≤ cv.wm.toNat ∧ 1 ≤ cv.hm.toNat ∧
    (cv.wl, cv.hl) = (if cv.rot.swapsDims then (cv.hm, cv.wm) else (cv.wm, cv.hm)) ∧
    0 < cv.wl.toNat ∧ 3 < cv.hl.toNat ∧ cv.mir = .none ∧ transform .raw cv 0 3 = some (1, 0) := by decide
theorem test_witness_RawTransformConsequences_mirrors :
    ∀ rm ∈ [(Rotation.r0, Mirror.none), (.r180, .none), (.r270, .none), (.r0, .horizontal), (.r0, .vertical),
        (.r180, .both)],
      let cv := square rm.1 rm.2
      1 ≤ cv.wm.toNat ∧ 1 ≤ cv.hm.toNat ∧
      (cv.wl, cv.hl) = (if cv.rot.swapsDims then (cv.hm, cv.wm) else (cv.wm, cv.hm)) ∧
      0 < cv.wl.toNat ∧ 7 < cv.hl.toNat ∧ cv.rot = rm.1 ∧ cv.mir = rm.2 := by decide
theorem test_witness_IndexTransformIsABijection :
    let cv := square .r270 .horizontal
    (cv.wl, cv.hl) = (if cv.rot.swapsDims then (cv.hm, cv.wm) else (cv.wm, cv.hm)) ∧ 7 < cv.wl.toNat ∧
    7 < cv.hm.toNat ∧ transform .index cv 7 7 = some (0, 0) := by decide

/-- A canvas whose last row is past the end of memory. -/
def cut : State := withMemSize (canvasAt 0xF0 .d2 16 16) 0x100

theorem test_witness_DrawPixel : State.reset.cv.valid = false ∧
    (canvas .d2 16 2).cv.valid = true ∧ (canvas .d2 16 2).transformed 16 0 = none ∧
    (canvas .d2 16 2).transformed 15 1 = some (15, 1) ∧ (canvas .d2 16 2).pixelInRegion 15 1 = true ∧
    cut.cv.valid = true ∧ cut.transformed 0 15 = some (0, 15) ∧ cut.pixelInRegion 0 15 = false := by decide
theorem test_witness_DrawPixel_d7 :
    (canvas .d7 5 2).cv.valid = true ∧ (canvas .d7 5 2).transformed 0 1 = some (0, 1) ∧
    (canvas .d7 5 2).pixelInRegion 0 1 = false ∧ (canvas .d7 5 2).transformed 4 0 = some (4, 0) ∧
    (canvas .d7 5 2).pixelInRegion 4 0 = true := by decide
theorem test_witness_ReadPixel : State.reset.cv.valid = false ∧
    (canvas .d4 8 2).cv.valid = true ∧ (canvas .d4 8 2).transformed 0 2 = none ∧
    (canvas .d4 8 2).transformed 7 1 = some (7, 1) ∧ (canvas .d4 8 2).pixelInRegion 7 1 = true ∧
    cut.cv.valid = true ∧ cut.transformed 0 8 = some (0, 8) ∧ cut.pixelInRegion 0 8 = false := by decide
theorem test_witness_DrawThenReadGivesTheColour : ∀ d ∈ [Density.d2, .d4, .d7],
    let s := canvas d 8 2
    s.cv.valid = true ∧ s.transformed 7 1 = some (7, 1) ∧ s.pixelInRegion 7 1 = true ∧
    (s.layoutEntry 7 1).distinct = true := by decide
theorem test_witness_DrawLeavesOtherPixels : ∀ d ∈ [Density.d2, .d4, .d7],
    let s := canvas d 8 2
    (s.cv.dens = .d7 → s.cv.wm.toNat % 8 = 0 ∧ s.par.d7.disjoint = true) ∧ s.transformed 7 1 = some (7, 1) ∧
    6 < s.cv.wm.toNat ∧ 1 < s.cv.hm.toNat ∧ ((6, 1) : Nat × Nat) ≠ (7, 1) ∧
    (look (exec (.drawPixel 3 7 1) s) fun t => t.st.result) = some .ok := by decide
theorem test_witness_ClearFillsBytes : State.reset.cv.valid = false ∧
    (canvasAt 0xFFFF .d2 16 1).cv.valid = true ∧ (canvasAt 0xFFFF .d2 16 1).cv.dens ≠ .d7 ∧
    ¬ (canvasAt 0xFFFF .d2 16 1).RegionInMemory ∧
    (canvasAt 0xFFFE .d2 16 1).cv.valid = true ∧ (canvasAt 0xFFFE .d2 16 1).RegionInMemory ∧
    (canvasAt 0xFFFE .d2 16 1).inRegion 0xFFFF ∧ ¬ (canvasAt 0xFFFE .d2 16 1).inRegion 0xFFFD ∧
    (canvasAt 0xFFFE .d4 8 1).cv.dens = .d4 ∧ (canvasAt 0xFFFE .d4 8 1).RegionInMemory := by
  unfold State.RegionInMemory State.inRegion
  decide
theorem test_witness_ClearSetsEveryPixel : ∀ d ∈ [Density.d2, .d4, .d7],
    (canvas d 8 2).cv.valid = true ∧ (canvas d 8 2).RegionInMemory ∧ (canvas d 8 2).PixelsApart := by
  unfold State.RegionInMemory State.PixelsApart
  decide
theorem test_witness_ClearAtDensitySevenIsChecked :
    (canvas .d7 8 2).cv.valid = true ∧ (canvas .d7 8 2).cv.dens = .d7 ∧
    (∀ xm < 8, ∀ ym < 2, (canvas .d7 8 2).pixelInRegion xm ym = true) ∧
    (canvas .d7 5 2).cv.valid = true ∧ (canvas .d7 5 2).cv.dens = .d7 ∧
    0 < (canvas .d7 5 2).cv.wm.toNat ∧ 1 < (canvas .d7 5 2).cv.hm.toNat ∧
    (canvas .d7 5 2).pixelInRegion 0 1 = false := by decide
/-- A window of one point, and one that is all outside. -/
theorem test_witness_ClearAreaDrawsItsWindow : (canvas .d7 8 2).cv.valid = true ∧ (canvas .d7 8 2).PixelsApart ∧
    (∀ xm ym, (∃ q ∈ windowPoints 7 1 1 1, (canvas .d7 8 2).transformed q.1 q.2 = some (xm, ym)) →
      (canvas .d7 8 2).pixelInRegion xm ym = true) ∧
    ∀ q ∈ windowPoints 8 0 2 2, (canvas .d7 8 2).transformed q.1 q.2 = none := by
  refine ⟨rfl, ?_, ?_, by decide⟩
  · unfold State.PixelsApart
    decide
  · rintro xm ym ⟨q, hq, ht⟩
    have hp : windowPoints 7 1 1 1 = [(7, 1)] := by decide
    rw [hp, List.mem_singleton] at hq
    subst hq
    have hs : (canvas .d7 8 2).transformed 7 1 = some (7, 1) := by decide
    cases hs.symm.trans ht
    decide
theorem test_witness_ClearAreaFaults : State.reset.cv.valid = false ∧ cut.cv.valid = true ∧
    ∃ q ∈ windowPoints 0 7 1 2, ∃ xm ym, cut.transformed q.1 q.2 = some (xm, ym) ∧ cut.pixelInRegion xm ym = false :=
  ⟨rfl, rfl, (0, 8), by decide, 0, 8, by decide⟩
theorem test_witness_PixelRequestsFrame : isPixelRequest (.readPixel 0 0) = true ∧
    isPixelRequest (.clearArea 0 0 0 0 0) = true := by decide

/-- The Y counts 256, just above the split, and 255, just below it. -/
theorem test_witness_WindowCalc :
    ((0 : Int) = ((7 / 8 : Nat) : Int) ∧ (0 : Int) = 0 + ((15 / 8 : Nat) : Int) - 1 ∧ (256 : Int) = (300 : Nat) - (44 : Nat) ∧
      (256 ≤ (256 : Int) → (1 : Int) = 256 / 256 ∧ (0 : Int) = 256 % 256) ∧ (0 : Int) = 0 + (1 : Nat) - 1) ∧
    ((255 : Int) = (300 : Nat) - (45 : Nat) ∧ ((255 : Int) < 256 → (0 : Int) = 0 ∧ (255 : Int) = 255) ∧
      (256 : Int) = 255 + (2 : Nat) - 1 ∧ (256 ≤ (256 : Int) → (1 : Int) = 256 / 256 ∧ (0 : Int) = 256 % 256)) := by
  decide

theorem test_witness_AdmissionByDisplayState : needsIdle .deepSleep = true ∧ needsIdle (.refreshFull 0) = true ∧
    State.reset.st.dstate = .poweredOff ∧ (rest .sleeping [] [] []).st.dstate = .sleeping ∧
    (rest .idle [] [] []).st.dstate = .idle ∧
    streamOf (rest .idle [] [] []).par (.refreshFull 0) = some (0, 5000) ∧ 0 + 5000 ≤ State.reset.par.memSize := by
  decide
theorem test_witness_StreamRangeIsChecked :
    let s := withMemSize (rest .idle [] [] []) 5000
    s.st.dstate = .idle ∧ streamOf s.par (.refreshFull 1) = some (1, 5000) ∧ 0 < 5000 ∧
    s.par.memSize < (1 : Addr).toNat + 5000 := by decide
theorem test_witness_StopsOutsideTheAdmissionTable : needsIdle (.refreshFast 0) = true ∧
    (rest .partialLocked [] [] []).st.dstate = .partialLocked ∧ (rest .busy [] [] []).st.dstate = .busy ∧
    (rest .resetting [] [] []).st.dstate = .resetting ∧
    (rest .initializing [] [] []).st.dstate = .initializing := by decide

theorem test_witness_InitRuns :
    let s := rest .sleeping (List.replicate 24 true) [true, false, false, true, false] []
    s.NoReset ∧ s.HostWaits ∧ s.env.xferIn = List.replicate 24 true ++ [] ∧
    s.env.busyIn = List.replicate 1 true ++ false :: (List.replicate 0 true ++ false ::
      (List.replicate 1 true ++ false :: [])) := ⟨noReset_nil rfl, hostWaits_nil rfl, rfl, rfl⟩
/-- A host that awaits the end of the request keeps its duty too. -/
theorem test_witness_InitRuns_awaited :
    let s : State := { rest .poweredOff (List.replicate 24 true) [false, false, false] [] with env :=
      { Env.initial with
        host := [.await, .issue 0x24], xferIn := List.replicate 24 true, busyIn := [false, false, false] } }
    s.NoReset ∧ s.HostWaits ∧ s.env.xferIn = List.replicate 24 true ++ [] ∧
    s.env.busyIn = List.replicate 0 true ++ false :: (List.replicate 0 true ++ false ::
      (List.replicate 0 true ++ false :: [])) := ⟨noReset_nil rfl, .inr ⟨_, rfl⟩, rfl, rfl⟩
theorem test_witness_RefreshFullRuns :
    let s := smallPanel (rest .idle [true, true, true, true, true] [false] [])
    s.NoReset ∧ s.HostWaits ∧ s.st.dstate = .idle ∧ (0xFFFF : Addr).toNat + s.par.panelBytes ≤ s.par.memSize ∧
    s.par.fullResetsCounters = false ∧ s.env.xferIn = List.replicate (0 + s.par.panelBytes + 4) true ++ [] ∧
    s.env.busyIn = false :: [] := ⟨noReset_nil rfl, hostWaits_nil rfl, by decide⟩
theorem test_witness_RefreshFullRuns_counters :
    let s := withOptions (smallPanel (rest .idle (List.replicate 10 true) [false] [])) true false
    s.NoReset ∧ s.HostWaits ∧ s.st.dstate = .idle ∧ (0xFFFF : Addr).toNat + s.par.panelBytes ≤ s.par.memSize ∧
    s.par.fullResetsCounters = true ∧
    s.env.xferIn = List.replicate ((wireEvents s.par.cmds.ramXCounter [s.par.initData.xCounter] ++
      wireEvents s.par.cmds.ramYCounter [s.par.initData.yCounter0, s.par.initData.yCounter1]).length +
        s.par.panelBytes + 4) true ++ [] ∧
    s.env.busyIn = false :: [] := ⟨noReset_nil rfl, hostWaits_nil rfl, by decide⟩
theorem test_witness_RefreshPartialRuns :
    let s := rest .idle (List.replicate 20 true) [false] []
    s.NoReset ∧ s.HostWaits ∧ s.st.dstate = .idle ∧
    (0xFFFF : Addr).toNat + (8 : Coord).toNat / 8 * (1 : Coord).toNat ≤ s.par.memSize ∧
    s.env.xferIn = List.replicate (19 + (8 : Coord).toNat / 8 * (1 : Coord).toNat) true ++ [] ∧
    s.env.busyIn = false :: [] := ⟨noReset_nil rfl, hostWaits_nil rfl, by decide⟩
theorem test_witness_RefreshFastRuns :
    let s := rest .idle [true, true, true] [false] []
    s.NoReset ∧ s.HostWaits ∧ s.st.dstate = .idle ∧ s.par.fastWritesRam = false ∧
    s.env.xferIn = List.replicate (0 + 3) true ++ [] ∧ s.env.busyIn = false :: [] :=
  ⟨noReset_nil rfl, hostWaits_nil rfl, by decide⟩
theorem test_witness_RefreshFastRuns_ram :
    let s := withOptions (smallPanel (rest .idle (List.replicate 5 true) [false] [])) false true
    s.NoReset ∧ s.HostWaits ∧ s.st.dstate = .idle ∧ s.par.fastWritesRam = true ∧
    (0xFFFF : Addr).toNat + s.par.panelBytes ≤ s.par.memSize ∧
    s.env.xferIn = List.replicate
      ((wireEvents s.par.cmds.writeRam (imageBytes s.mem 0xFFFF s.par.panelBytes)).length + 3) true ++ [] ∧
    s.env.busyIn = false :: [] := ⟨noReset_nil rfl, hostWaits_nil rfl, by decide⟩
theorem test_witness_DeepSleepRuns :
    let s := rest .idle [true, true] [] []
    s.NoReset ∧ s.HostWaits ∧ s.st.dstate = .idle ∧ s.env.xferIn = true :: true :: [] :=
  ⟨noReset_nil rfl, hostWaits_nil rfl, by decide⟩
/-- L2.10, the second vector: the clock 100, 1099, 2099, 2100. -/
theorem test_witness_RefreshTimesOut_fast :
    let s := rest .idle [true, true, true] [true, true, true] [100, 999, 1000, 1]
    refreshBudget s.par (.refreshFast 0) = some 2000 ∧
    (refreshEvents s.par s.mem (.refreshFast 0)).countP isSent = 3 ∧ streamOf s.par (.refreshFast 0) = none ∧
    s.NoReset ∧ s.HostWaits ∧ s.st.dstate = .idle ∧ s.env.xferIn = List.replicate 3 true ++ [] ∧
    s.env.busyIn = List.replicate ([999, 1000].length + 1) true ++ [] ∧
    s.env.clockIn = 100 :: ([999, 1000] ++ 1 :: []) ∧ [999, 1000].sum < 2000 ∧ 2000 ≤ [999, 1000].sum + 1 :=
  ⟨rfl, rfl, rfl, noReset_nil rfl, hostWaits_nil rfl, by decide⟩
/-- The first poll already finds the budget reached. -/
theorem test_witness_RefreshTimesOut_full :
    let s := withOptions (smallPanel (rest .idle (List.replicate 10 true) [true] [0, 3000])) true true
    refreshBudget s.par (.refreshFull 0xFFFF) = some 3000 ∧
    (refreshEvents s.par s.mem (.refreshFull 0xFFFF)).countP isSent = 10 ∧
    streamOf s.par (.refreshFull 0xFFFF) = some (0xFFFF, 1) ∧ (0xFFFF : Addr).toNat + 1 ≤ s.par.memSize ∧
    s.NoReset ∧ s.HostWaits ∧ s.st.dstate = .idle ∧ s.env.xferIn = List.replicate 10 true ++ [] ∧
    s.env.busyIn = List.replicate (([] : List Nat).length + 1) true ++ [] ∧
    s.env.clockIn = 0 :: ([] ++ 3000 :: []) ∧ 3000 ≤ ([] : List Nat).sum + 3000 :=
  ⟨rfl, rfl, rfl, by decide, noReset_nil rfl, hostWaits_nil rfl, by decide⟩
theorem test_witness_RefreshTimesOut_partial :
    let s := rest .idle (List.replicate 20 true) [true, true] [0, 999, 1]
    refreshBudget s.par (.refreshPartial 8 0 8 1 0xFFFF) = some 1000 ∧
    (refreshEvents s.par s.mem (.refreshPartial 8 0 8 1 0xFFFF)).countP isSent = 20 ∧
    streamOf s.par (.refreshPartial 8 0 8 1 0xFFFF) = some (0xFFFF, 1) ∧
    (0xFFFF : Addr).toNat + 1 ≤ s.par.memSize ∧
    s.NoReset ∧ s.HostWaits ∧ s.st.dstate = .idle ∧ s.env.xferIn = List.replicate 20 true ++ [] ∧
    s.env.busyIn = List.replicate ([999].length + 1) true ++ [] ∧
    s.env.clockIn = 0 :: ([999] ++ 1 :: []) ∧ [999].sum < 1000 ∧ 1000 ≤ [999].sum + 1 :=
  ⟨rfl, rfl, rfl, by decide, noReset_nil rfl, hostWaits_nil rfl, by decide⟩

theorem test_witness_UntimedWait :
    let s := running .initializing [.waitIdle, .setState .idle] [] [true, true, false] []
    s.NoReset ∧ s.HostWaits ∧ s.sq.reqActive = true ∧ s.sq.waiting = false ∧
    s.pending = .waitIdle :: [.setState .idle] ∧ s.env.busyIn = List.replicate 2 true ++ false :: [] :=
  ⟨noReset_nil rfl, hostWaits_nil rfl, by decide⟩
theorem test_witness_UntimedWait_last :
    let s := running .idle [.waitIdle] [] [false] []
    s.NoReset ∧ s.HostWaits ∧ s.sq.reqActive = true ∧ s.sq.waiting = false ∧ s.pending = .waitIdle :: [] ∧
    s.env.busyIn = List.replicate 0 true ++ false :: [] := ⟨noReset_nil rfl, hostWaits_nil rfl, by decide⟩
theorem test_witness_TimedWait :
    let s := running .busy [.waitIdleTimed 1000, .setState .idle] [] [true, true, false] [7, 500, 499]
    s.NoReset ∧ s.HostWaits ∧ s.sq.reqActive = true ∧ s.sq.waiting = false ∧
    s.pending = .waitIdleTimed 1000 :: [.setState .idle] ∧
    s.env.busyIn = List.replicate [500, 499].length true ++ false :: [] ∧
    s.env.clockIn = 7 :: ([500, 499] ++ []) ∧ [500, 499].sum < 1000 :=
  ⟨noReset_nil rfl, hostWaits_nil rfl, by decide⟩
theorem test_witness_TimedWait_last :
    let s := running .busy [.waitIdleTimed 1000] [] [true, false] [7, 999]
    s.NoReset ∧ s.HostWaits ∧ s.sq.reqActive = true ∧ s.sq.waiting = false ∧ s.pending = .waitIdleTimed 1000 :: [] ∧
    s.env.busyIn = List.replicate [999].length true ++ false :: [] ∧
    s.env.clockIn = 7 :: ([999] ++ []) ∧ [999].sum < 1000 := ⟨noReset_nil rfl, hostWaits_nil rfl, by decide⟩
theorem test_witness_TimedWait_timeout :
    let s := running .busy [.waitIdleTimed 1000, .setState .idle] [] [true, true] [7, 999, 1]
    s.NoReset ∧ s.HostWaits ∧ s.sq.reqActive = true ∧ s.sq.waiting = false ∧
    s.pending = .waitIdleTimed 1000 :: [.setState .idle] ∧
    s.env.busyIn = List.replicate ([999].length + 1) true ++ [] ∧ s.env.clockIn = 7 :: ([999] ++ 1 :: []) ∧
    [999].sum < 1000 ∧ 1000 ≤ [999].sum + 1 := ⟨noReset_nil rfl, hostWaits_nil rfl, by decide⟩
theorem test_witness_TimedWait_timeout_last :
    let s := running .busy [.waitIdleTimed 1000] [] [true, true] [7, 999, 1]
    s.NoReset ∧ s.HostWaits ∧ s.sq.reqActive = true ∧ s.sq.waiting = false ∧ s.pending = .waitIdleTimed 1000 :: [] ∧
    s.env.busyIn = List.replicate ([999].length + 1) true ++ [] ∧ s.env.clockIn = 7 :: ([999] ++ 1 :: []) ∧
    [999].sum < 1000 ∧ 1000 ≤ [999].sum + 1 := ⟨noReset_nil rfl, hostWaits_nil rfl, by decide⟩
theorem test_witness_SendFailureHalts :
    let s := running .initializing [.sendData 0xC7, .waitIdle] [false, true] [] []
    s.sq.reqActive = true ∧ s.resetAsserted = false ∧ s.pending = .sendData 0xC7 :: [.waitIdle] ∧
    s.env.xferIn = false :: [true] := by decide
theorem test_witness_StreamSendsMemory :
    let s := running .idle [.stream 0xFFFE 2, .waitIdle] [true, true] [] []
    s.sq.reqActive = true ∧ s.resetAsserted = false ∧ s.pending = .stream 0xFFFE 2 :: [.waitIdle] ∧
    (0xFFFE : Addr).toNat + 2 ≤ s.par.memSize ∧ s.env.xferIn = List.replicate 2 true ++ [] := by decide
/-- A host that keeps its duty, and one that writes meanwhile. -/
theorem test_witness_StreamSendsMemory_host :
    (running .idle [.stream 0xFFFE 2, .waitIdle] [true, true] [] []).HostWaits ∧
    let s := disturbed [.stream 0x3000 2, .waitIdle] [.issue 0x20, .writeMem 0x3001 5] [true, true] []
    s.sq.reqActive = true ∧ s.resetAsserted = false ∧ s.pending = .stream 0x3000 2 :: [.waitIdle] ∧
    (0x3000 : Addr).toNat + 2 ≤ s.par.memSize ∧ s.env.xferIn = List.replicate 2 true ++ [] ∧
    s.streamedBytes 0x3000 2 = [0x00, 0x05] := ⟨hostWaits_nil rfl, by decide⟩
theorem test_witness_StreamSendsMemory_failure :
    let s := running .idle [.stream 0xFFFE 2] [true, false] [] []
    s.sq.reqActive = true ∧ s.resetAsserted = false ∧ s.pending = .stream 0xFFFE 2 :: [] ∧
    (0xFFFE : Addr).toNat + 2 ≤ s.par.memSize ∧ 1 < 2 ∧ s.env.xferIn = List.replicate 1 true ++ false :: [] := by decide
theorem test_witness_StreamSendsMemory_overrun :
    let s := running .idle [.stream 0xFFFF 2] [] [] []
    s.sq.reqActive = true ∧ s.resetAsserted = false ∧ s.pending = .stream 0xFFFF 2 :: [] ∧ 0 < 2 ∧
    s.par.memSize < (0xFFFF : Addr).toNat + 2 := by decide
theorem test_witness_LineDelayAndStateActions : ∀ m ∈ [Micro.rst false, .delay 10, .setState .resetting],
    let s := running .idle [m, .waitIdle] [] [] []
    s.sq.reqActive = true ∧ s.resetAsserted = false ∧ s.pending = m :: .waitIdle :: [] := by decide
theorem test_witness_WireCommandsSendTheirBytes :
    let s := running .idle [.sendCmd 0x24, .stream 0xFFFF 1, .setState .busy] [true, true] [] []
    commandByte s.par.cmds (.cmdWriteRam 0xFFFF 1) = some 0x24 ∧ s.NoReset ∧ s.HostWaits ∧ s.sq.reqActive = true ∧
    s.pending = .sendCmd 0x24 :: (commandRest (.cmdWriteRam 0xFFFF 1) ++ [.setState .busy]) ∧
    (0xFFFF : Addr).toNat + 1 ≤ s.par.memSize ∧
    s.env.xferIn = List.replicate (1 + (commandData s.mem (.cmdWriteRam 0xFFFF 1)).length) true ++ [] :=
  ⟨rfl, noReset_nil rfl, hostWaits_nil rfl, by decide⟩
theorem test_witness_WireCommandsSendTheirBytes_last :
    let s := running .idle [.sendCmd 0x10, .sendData 1] [true, true] [] []
    commandByte s.par.cmds (.cmdDeepSleep 1) = some 0x10 ∧ s.NoReset ∧ s.HostWaits ∧ s.sq.reqActive = true ∧
    s.pending = .sendCmd 0x10 :: (commandRest (.cmdDeepSleep 1) ++ []) ∧
    s.env.xferIn = List.replicate (1 + (commandData s.mem (.cmdDeepSleep 1)).length) true ++ [] :=
  ⟨rfl, noReset_nil rfl, hostWaits_nil rfl, by decide⟩
theorem test_witness_WireCommandsArePlaced :
    let s := running .idle [.sendCmd 0x3C, .sendData 5, .waitIdle] [] [] []
    commandByte s.par.cmds (.cmdBorder 5) = some 0x3C ∧ s.sq.mpc ≤ s.sq.seq.length ∧ s.sq.reqActive = true ∧
    s.pending = .sendCmd 0x3C :: (commandRest (.cmdBorder 5) ++ [.waitIdle]) := by decide

/-- A request in progress that meets the protocol invariant. -/
theorem busy_protocolInv : (running .busy [.waitIdleTimed 2000, .setState .idle] [] [false] [0]).ProtocolInv where
  ready h := by cases h
  rests h := by cases h
  runs _ := by decide
  waits h := by cases h
  haltResult h := by cases h
  haltNoFault h := by cases h
  trace b h := by cases h

/-- A sleeping block about to be woken that meets the protocol invariant. -/
theorem asleep_protocolInv :
    ({ rest .sleeping [] [] [] with env := { Env.initial with host := [.issue 0x20] } } : State).ProtocolInv where
  ready _ := by decide
  rests _ _ := by decide
  runs h := by cases h
  waits h := by cases h
  haltResult h := by cases h
  haltNoFault h := by cases h
  trace b h := by cases h

theorem test_witness_StepKeepsMemoryCanonical :
    (withMem (offered [.writeMem 0x20 0]) [(0x20, 1), (0x30, 2)]).MemInv ∧
    ∃ t, step (withMem (offered [.writeMem 0x20 0]) [(0x20, 1), (0x30, 2)]) = .next t :=
  ⟨⟨by decide, by decide⟩, _, rfl⟩
theorem test_witness_StepKeepsCanvasAndRval :
    (withMem (offered [.issue 0x5A0003]) []).CanvasInv ∧ (offered [.issue 0x5A0003]).RvalInv ∧
    ∃ t, step (offered [.issue 0x5A0003]) = .next t :=
  ⟨⟨by decide, by decide⟩, by unfold State.RvalInv; decide, _, rfl⟩
theorem test_witness_StepKeepsProtocolInvariant :
    (running .busy [.waitIdleTimed 2000, .setState .idle] [] [false] [0]).ProtocolInv ∧
    ∃ t, step (running .busy [.waitIdleTimed 2000, .setState .idle] [] [false] [0]) = .next t :=
  ⟨busy_protocolInv, _, rfl⟩
theorem test_witness_StepNeverStops :
    (running .busy [.waitIdleTimed 2000, .setState .idle] [] [false] [0]).ProtocolInv ∧
    (running .busy [.waitIdleTimed 2000, .setState .idle] [] [false] [0]).sq.reqActive = true :=
  ⟨busy_protocolInv, rfl⟩
theorem test_witness_DisplayStateTransitions :
    (running .busy [.waitIdleTimed 2000, .setState .idle] [] [false] [0]).ProtocolInv ∧
    ∃ t, step (running .busy [.waitIdleTimed 2000, .setState .idle] [] [false] [0]) = .next t :=
  ⟨busy_protocolInv, _, rfl⟩
theorem test_witness_NoTrafficInSleep :
    let s : State := { rest .sleeping [] [] [] with env := { Env.initial with host := [.issue 0x20] } }
    s.ProtocolInv ∧ s.st.dstate = .sleeping ∧ s.resetAsserted = false ∧ ∃ t, step s = .next t :=
  ⟨asleep_protocolInv, rfl, rfl, _, rfl⟩
theorem test_witness_ProtocolRequestsIgnoreTheCanvas : isProtocolRequest .init = true ∧
    isProtocolRequest (.refreshPartial 0 0 8 1 0) = true ∧
    (running .busy [.waitIdle] [] [true] []).sq.reqActive = true ∧
    (running .busy [.waitIdle] [] [true] []).resetAsserted = false ∧
    (running .busy [.waitIdle] [] [true] []).HostWaits := ⟨rfl, rfl, rfl, rfl, hostWaits_nil rfl⟩

/-- The inputs of a block that draws the clock for ever. -/
def clockRun : Nat → Env
  | 0 => Env.initial
  | n + 1 => (clockRun n).drawClock.2

theorem test_witness_ClockNeverFalls :
    (∃ t, step (running .busy [.waitIdleTimed 2000, .setState .idle] [] [false] [5]) = .next t) ∧
    ({ Env.initial with clockRead := true } : Env).clockRead = true ∧
    (∀ n, clockRun (n + 1) = (clockRun n).drawClock.2 ∨ (∃ ms, clockRun (n + 1) = (clockRun n).delay ms) ∨
      (clockRun n).SameClock (clockRun (n + 1))) ∧
    ∀ n, ∃ m, n ≤ m ∧ clockRun (m + 1) = (clockRun m).drawClock.2 :=
  ⟨⟨_, rfl⟩, rfl, fun _ => .inl rfl, fun n => ⟨n, le_refl n, rfl⟩⟩

end Sys2Proof.Tests
end

section
/-! PROOFS. What a step can do, said once: what a canvas request may change, what a protocol request starts, and the
cases of a step. The statements about every step are read off these cases. -/

namespace Sys2Proof.Machine

/-! ### What a canvas request may change (40_canvas_config.md R165, 45_protocol_ops.md R333) -/

/-- `u` is `s` after some work of a canvas request: the parameters, the sequencer, the trace, the inputs, the
controller's registers and the fault and halt registers are as they were, and the log has only grown. -/
structure CanvasWork (s u : State) : Prop where
  par : u.par = s.par
  sq : u.sq = s.sq
  wt : u.wt = s.wt
  env : u.env = s.env
  el : ∃ ls, u.el = s.el ++ ls
  dstate : u.st.dstate = s.st.dstate
  rstLine : u.st.rstLine = s.st.rstLine
  maybeBusy : u.st.maybeBusy = s.st.maybeBusy
  fault : u.st.fault = s.st.fault
  halted : u.st.halted = s.st.halted

theorem CanvasWork.refl (s : State) : CanvasWork s s :=
  ⟨rfl, rfl, rfl, rfl, ⟨[], by simp⟩, rfl, rfl, rfl, rfl, rfl⟩

theorem CanvasWork.withCanvas {s u : State} (h : CanvasWork s u) (cv : Canvas) : CanvasWork s { u with cv := cv } :=
  ⟨h.par, h.sq, h.wt, h.env, h.el, h.dstate, h.rstLine, h.maybeBusy, h.fault, h.halted⟩

theorem CanvasWork.withMem {s u : State} (h : CanvasWork s u) (m : Memory) : CanvasWork s { u with mem := m } :=
  ⟨h.par, h.sq, h.wt, h.env, h.el, h.dstate, h.rstLine, h.maybeBusy, h.fault, h.halted⟩

theorem CanvasWork.setRval {s u : State} (h : CanvasWork s u) (v : Byte) : CanvasWork s (u.setRval v) :=
  ⟨h.par, h.sq, h.wt, h.env, h.el, h.dstate, h.rstLine, h.maybeBusy, h.fault, h.halted⟩

theorem CanvasWork.withWindow {s u : State} (h : CanvasWork s u) (w : Window) :
    CanvasWork s { u with st := u.st.withWindow w } :=
  ⟨h.par, h.sq, h.wt, h.env, h.el, h.dstate, h.rstLine, h.maybeBusy, h.fault, h.halted⟩

theorem CanvasWork.log {s u : State} (h : CanvasWork s u) (k : ErrorKind) : CanvasWork s (u.log k) := by
  obtain ⟨ls, hls⟩ := h.el
  exact ⟨h.par, h.sq, h.wt, h.env, ⟨ls ++ [(k, u.reqOpcode)], by simp [hls]⟩, h.dstate, h.rstLine, h.maybeBusy,
    h.fault, h.halted⟩

/-- How a canvas request ends: with a result, or in a fault (60_exceptions.md R341, R345). -/
inductive CanvasEnd (s : State) : State → Prop where
  | finishes {u : State} (h : CanvasWork s u) (r : ResultCode) : CanvasEnd s (u.finish r)
  | faults {u : State} (h : CanvasWork s u) {c : FaultCode} (hc : c ≠ .none) : CanvasEnd s (u.raiseFault c)

/-- A round of a canvas request's loop, or the whole of its body: more work, or an early end. `f` is where the round's
value holds the state. -/
def BodyWorks {σ : Type} (s : State) (f : σ → State) (r : Except State σ) : Prop :=
  (∃ y, r = .ok y ∧ CanvasWork s (f y)) ∨ (∃ t, r = .error t ∧ CanvasEnd s t)

theorem forRange_works {σ : Type} {s : State} {f : σ → State} {g : Nat → σ → Except State σ} (n a : Nat) {x : σ}
    (hx : CanvasWork s (f x)) (hg : ∀ i y, CanvasWork s (f y) → BodyWorks s f (g i y)) :
    BodyWorks s f (forRange n a g x) :=
  forRange_rule (P := fun _ y => CanvasWork s (f y)) (Q := CanvasEnd s) n a x hx fun i y _ _ hy => hg i y hy

theorem pack_works {s u : State} (h : CanvasWork s u) (xm ym : Nat) (c : Byte) :
    BodyWorks s id (u.pack xm ym c) := by
  cases hr : u.pixelInRegion xm ym with
  | true =>
    obtain ⟨m, hm, -⟩ := pack_ok c hr
    exact .inl ⟨_, hm, h.withMem m⟩
  | false => exact .inr ⟨_, pack_fault c hr, .faults h (by decide)⟩

theorem pack7_works {s u : State} (h : CanvasWork s u) (xm ym : Nat) (c : Byte) :
    BodyWorks s id (u.pack7 xm ym c) := by
  unfold State.pack7
  split
  · rw [writeGroup_eq]
    exact .inl ⟨_, rfl, h.withMem _⟩
  · exact .inr ⟨_, rfl, .faults h (by decide)⟩

theorem areaPoint_works {s : State} {a : State × ResultCode} (h : CanvasWork s a.1) (color : Byte) (x y : Nat) :
    BodyWorks s Prod.fst (areaPoint color x y a) := by
  unfold areaPoint
  split
  · rename_i xm ym _
    rcases pack_works h xm ym color with ⟨u, hu, hw⟩ | ⟨t, ht, he⟩
    · rw [hu]
      exact .inl ⟨_, rfl, hw⟩
    · rw [ht]
      exact .inr ⟨_, rfl, he⟩
  · exact .inl ⟨_, rfl, h.log _⟩

theorem endBody_ends {s : State} {r : Except State State} (h : BodyWorks s id r) (c : ResultCode) :
    CanvasEnd s (endBody r c) := by
  rcases h with ⟨u, rfl, hw⟩ | ⟨t, rfl, he⟩
  · exact .finishes hw c
  · exact he

theorem rejectParameter_ends {s u : State} (h : CanvasWork s u) : CanvasEnd s u.rejectParameter :=
  .finishes (h.log .invalidParameter) .invalidParameter

theorem clearBytes_ends (s : State) (f : Byte) : CanvasEnd s (s.clearBytes f) := by
  unfold State.clearBytes
  split
  · rw [fill_eq]
    exact .finishes ((CanvasWork.refl s).withMem _) _
  · exact .faults (.refl s) (by decide)

theorem clearPixels_ends (s : State) (c : Byte) : CanvasEnd s (s.clearPixels c) :=
  endBody_ends (forRange_works _ _ (.refl s) fun ym _ h1 =>
    forRange_works _ _ h1 fun xm _ h2 => pack7_works h2 xm ym c) _

theorem execConstruct_ends (color : Byte) (width height rot : Coord) (hasBuffer : Bool) (base : Addr) (s : State) :
    ∃ t, execConstruct color width height rot hasBuffer base s = .next t ∧ CanvasEnd s t := by
  unfold execConstruct
  split
  · exact ⟨_, rfl, .finishes ((CanvasWork.refl s).withCanvas _) _⟩
  · exact ⟨_, rfl, rejectParameter_ends ((CanvasWork.refl s).withCanvas _)⟩

theorem execSetRotation_ends (rot : Coord) (s : State) :
    ∃ t, execSetRotation rot s = .next t ∧ CanvasEnd s t := by
  unfold execSetRotation
  split
  · exact ⟨_, rfl, .finishes ((CanvasWork.refl s).withCanvas _) _⟩
  · exact ⟨_, rfl, rejectParameter_ends (.refl s)⟩

theorem execSetMirror_ends (mode : Byte) (s : State) : ∃ t, execSetMirror mode s = .next t ∧ CanvasEnd s t := by
  unfold execSetMirror
  split
  · exact ⟨_, rfl, .finishes ((CanvasWork.refl s).withCanvas _) _⟩
  · exact ⟨_, rfl, rejectParameter_ends (.refl s)⟩

theorem execSetDensity_ends (scale : Byte) (s : State) : ∃ t, execSetDensity scale s = .next t ∧ CanvasEnd s t := by
  unfold execSetDensity
  split
  · exact ⟨_, rfl, .finishes ((CanvasWork.refl s).withCanvas _) _⟩
  · exact ⟨_, rfl, rejectParameter_ends (.refl s)⟩

theorem execClear_ends (color : Byte) (s : State) : ∃ t, execClear color s = .next t ∧ CanvasEnd s t := by
  unfold execClear
  split
  · split
    · exact ⟨_, rfl, clearBytes_ends s _⟩
    · exact ⟨_, rfl, clearBytes_ends s _⟩
    · exact ⟨_, rfl, clearPixels_ends s color⟩
  · exact ⟨_, rfl, .faults (.refl s) (by decide)⟩

theorem execClearArea_ends (color : Byte) (x y w h : Coord) (s : State) :
    ∃ t, execClearArea color x y w h s = .next t ∧ CanvasEnd s t := by
  unfold execClearArea
  split
  · have hb : BodyWorks s Prod.fst (forRange h.toNat y.toNat
        (fun py a => forRange w.toNat x.toNat (fun px b => areaPoint color px py b) a) (s, ResultCode.ok)) :=
      forRange_works _ _ (.refl s) fun py _ h1 => forRange_works _ _ h1 fun px _ h2 => areaPoint_works h2 color px py
    rcases hb with ⟨a, ha, hw⟩ | ⟨t, ht, he⟩
    · rw [ha]
      exact ⟨_, rfl, .finishes hw _⟩
    · rw [ht]
      exact ⟨_, rfl, he⟩
  · exact ⟨_, rfl, .faults (.refl s) (by decide)⟩

theorem execDrawPixel_ends (color : Byte) (x y : Coord) (s : State) :
    ∃ t, execDrawPixel color x y s = .next t ∧ CanvasEnd s t := by
  unfold execDrawPixel
  split
  · split
    · exact ⟨_, rfl, endBody_ends (pack_works (.refl s) _ _ color) _⟩
    · exact ⟨_, rfl, .finishes ((CanvasWork.refl s).log _) _⟩
  · exact ⟨_, rfl, .faults (.refl s) (by decide)⟩

theorem execReadPixel_ends (x y : Coord) (s : State) : ∃ t, execReadPixel x y s = .next t ∧ CanvasEnd s t := by
  unfold execReadPixel
  split
  · split
    · unfold State.unpack
      split
      · rename_i heq
        exact ⟨_, rfl, .finishes ((CanvasWork.refl s).setRval _) _⟩
      · rename_i heq
        split at heq
        · cases heq
        · cases heq
          exact ⟨_, rfl, .faults (.refl s) (by decide)⟩
    · exact ⟨_, rfl, .finishes (((CanvasWork.refl s).setRval _).log _) _⟩
  · exact ⟨_, rfl, .faults (.refl s) (by decide)⟩

/-- A canvas request always ends in its one step, and touches nothing of the controller's (40_canvas_config.md R165,
45_protocol_ops.md R333, 70_reset_and_hazards.md R410). -/
theorem exec_canvasRequest {i : Instr} (hi : isCanvasRequest i = true) (s : State) :
    ∃ t, exec i s = .next t ∧ CanvasEnd s t := by
  cases i <;> try cases hi
  case construct color width height rot hasBuffer base => exact execConstruct_ends color width height rot hasBuffer base s
  case setBuffer base => exact ⟨_, rfl, .finishes ((CanvasWork.refl s).withCanvas _) _⟩
  case setRotation rot => exact execSetRotation_ends rot s
  case setMirror mode => exact execSetMirror_ends mode s
  case setDensity scale => exact execSetDensity_ends scale s
  case clear color => exact execClear_ends color s
  case clearArea color x y w h => exact execClearArea_ends color x y w h s
  case drawPixel color x y => exact execDrawPixel_ends color x y s
  case readPixel x y => exact execReadPixel_ends x y s
  case windowCalc x y w h => exact ⟨_, rfl, .finishes ((CanvasWork.refl s).withWindow _) _⟩

end Sys2Proof.Machine
end

section
/-! PROOFS. What a protocol request starts: a sequence that may run from the display states the block rests in. -/

namespace Sys2Proof.Machine

/-! ### The sequences of the protocol requests (45_protocol_ops.md R300 to R320) -/

/-- Each command byte of 30_encoding.md R111 is found. -/
theorem find_commands (c : Cmds) :
    (c.find c.swReset).isSome = true ∧ (c.find c.driverOutput).isSome = true ∧
    (c.find c.dataEntry).isSome = true ∧ (c.find c.ramXRange).isSome = true ∧
    (c.find c.ramYRange).isSome = true ∧ (c.find c.border).isSome = true ∧
    (c.find c.tempSensor).isSome = true ∧ (c.find c.ramXCounter).isSome = true ∧
    (c.find c.ramYCounter).isSome = true ∧ (c.find c.writeRam).isSome = true ∧
    (c.find c.updCtrl2).isSome = true ∧ (c.find c.masterAct).isSome = true ∧
    (c.find c.deepSleep).isSome = true :=
  ⟨find_byteOf_isSome c .swReset, find_byteOf_isSome c .driverOutput, find_byteOf_isSome c .dataEntry,
   find_byteOf_isSome c .ramXRange, find_byteOf_isSome c .ramYRange, find_byteOf_isSome c .border,
   find_byteOf_isSome c .tempSensor, find_byteOf_isSome c .ramXCounter, find_byteOf_isSome c .ramYCounter,
   find_byteOf_isSome c .writeRam, find_byteOf_isSome c .updCtrl2, find_byteOf_isSome c .masterAct,
   find_byteOf_isSome c .deepSleep⟩

/-- A wire command may run in every display state but `Sleeping`, its stream within memory, and changes neither the
display state nor the reset line (44_wire_commands.md R262, R265). -/
theorem seqOk_wire {p : Params} {d : DState} (l : Bool) {i : Instr} (ms : List Micro) (hd : d ≠ .sleeping)
    (hs : ∀ q n, i = .cmdWriteRam q n → streamFits p q n = true) :
    seqOk p d l (encodeWire p i ++ ms) = seqOk p d l ms := by
  have hne : (d != .sleeping) = true := bne_iff_ne.2 hd
  cases i with
  | cmdWriteRam q n => simp [encodeWire, seqOk, microOk, stateAfter, lineAfter, hne, find_commands, hs q n rfl]
  | _ => simp [encodeWire, seqOk, microOk, stateAfter, lineAfter, hne, find_commands]

/-- A wire command other than `CMD_WRITE_RAM` may run in every display state but `Sleeping`. -/
theorem seqOk_wire_noStream {p : Params} {d : DState} (l : Bool) {i : Instr} (ms : List Micro) (hd : d ≠ .sleeping)
    (hs : ∀ q n, i ≠ .cmdWriteRam q n) : seqOk p d l (encodeWire p i ++ ms) = seqOk p d l ms :=
  seqOk_wire l ms hd fun q n h => absurd h (hs q n)

/-- A reset pulse may run in every display state and leaves the reset line released (44_wire_commands.md R267). -/
theorem seqOk_resetPulse (p : Params) (d : DState) (l : Bool) (tl tw : Nat) (ms : List Micro) :
    seqOk p d l (resetPulse tl tw ++ ms) = seqOk p d true ms := by
  simp [resetPulse, seqOk, microOk, stateAfter, lineAfter]

theorem seqOk_initConfig {p : Params} {d : DState} (l : Bool) (ms : List Micro) (hd : d ≠ .sleeping) :
    seqOk p d l (initConfig p ++ ms) = seqOk p d l ms := by
  simp [initConfig, List.append_assoc, seqOk_wire_noStream, hd]

/-- INIT may run from every display state the block rests in (45_protocol_ops.md R291, R300). -/
theorem seqOk_initSeq {p : Params} {d : DState} (l : Bool) (hd : settled d = true) :
    seqOk p d l (initSeq p) = true := by
  have hreset : legalTransition d .resetting = true := by
    cases d with
    | poweredOff | idle | sleeping => rfl
    | resetting | initializing | busy | partialLocked => cases hd
  have hinit : legalTransition .resetting .initializing = true := rfl
  have hidle : legalTransition .initializing .idle = true := rfl
  simp [initSeq, List.append_assoc, seqOk_wire_noStream, seqOk_resetPulse, seqOk_initConfig, seqOk, microOk, stateAfter,
    lineAfter, hreset, hinit, hidle, settled]

/-- The end of a refresh may run from the display states from which `Busy` is reached, the reset line released. -/
theorem seqOk_refreshTail {p : Params} {d : DState} (upd : Byte) (budget : Nat)
    (hd : legalTransition d .busy = true) : seqOk p d true (refreshTail p upd budget) = true := by
  have hs : d ≠ .sleeping := by
    rintro rfl
    cases hd
  have hidle : legalTransition .busy .idle = true := rfl
  simp [refreshTail, List.append_assoc, seqOk_wire_noStream, hs, seqOk, microOk, stateAfter, lineAfter, hd, hidle,
    settled]

/-- The image stream before the end of a refresh. -/
theorem seqOk_writeRam_refreshTail {p : Params} {d : DState} {q : Addr} {n : Nat} (upd : Byte) (budget : Nat)
    (hd : legalTransition d .busy = true) (hf : streamFits p q n = true) :
    seqOk p d true (encodeWire p (.cmdWriteRam q n) ++ refreshTail p upd budget) = true := by
  have hs : d ≠ .sleeping := by
    rintro rfl
    cases hd
  rw [seqOk_wire _ _ hs fun q' n' h => by cases h; exact hf]
  exact seqOk_refreshTail upd budget hd

theorem seqOk_refreshFullSeq {p : Params} {image : Addr} (hf : streamFits p image p.panelBytes = true) :
    seqOk p .idle true (refreshFullSeq p image) = true := by
  have h := seqOk_writeRam_refreshTail p.upd2Full p.toFull (d := .idle) rfl hf
  unfold refreshFullSeq counterReset
  split <;> simpa [List.append_assoc, seqOk_wire_noStream] using h

theorem seqOk_windowCommands {p : Params} {d : DState} (l : Bool) (w : Window) (ms : List Micro)
    (hd : d ≠ .sleeping) : seqOk p d l (windowCommands p w ++ ms) = seqOk p d l ms := by
  simp [windowCommands, List.append_assoc, seqOk_wire_noStream, hd]

theorem seqOk_refreshPartialSeq {p : Params} {sub : Addr} (x y : Coord) {w h : Coord}
    (hf : streamFits p sub (subBufferBytes w h) = true) :
    seqOk p .idle true (refreshPartialSeq p x y w h sub) = true := by
  have h := seqOk_writeRam_refreshTail p.upd2Part p.toPart (d := .partialLocked) rfl hf
  simpa [refreshPartialSeq, List.append_assoc, seqOk, microOk, stateAfter, lineAfter, legalTransition,
    seqOk_resetPulse, seqOk_wire_noStream, seqOk_windowCommands] using h

theorem seqOk_refreshFastSeq {p : Params} {image : Addr}
    (hf : (!p.fastWritesRam || streamFits p image p.panelBytes) = true) :
    seqOk p .idle true (refreshFastSeq p image) = true := by
  unfold refreshFastSeq
  split
  · rename_i hw
    exact seqOk_writeRam_refreshTail _ _ rfl (by simpa [hw] using hf)
  · exact seqOk_refreshTail _ _ rfl

theorem seqOk_deepSleepSeq (p : Params) : seqOk p .idle true (deepSleepSeq p) = true := by
  simp [deepSleepSeq, seqOk_wire_noStream, seqOk, microOk, stateAfter, lineAfter, legalTransition, settled]

/-! ### What a request does in the step that takes it -/

/-- How the step that takes a request leaves the block: a canvas request has ended, a protocol request has faulted
before any work, or its sequence has started, which from a block at rest may run. -/
inductive RequestStep (s : State) : State → Prop where
  | ends {t : State} (h : CanvasEnd s t) : RequestStep s t
  | starts {ms : List Micro} (hms : ms ≠ [])
      (hok : settled s.st.dstate = true → s.st.rstLine = true → seqOk s.par s.st.dstate true ms = true) :
      RequestStep s (s.startSeq ms)

/-- A request that needs `Idle` faults, or starts its sequence there. -/
theorem admitIdle_requestStep {s t : State} {fits : Bool} {ms : List Micro} (h : s.admitIdle fits ms = .next t)
    (hms : ms ≠ []) (hok : fits = true → seqOk s.par .idle true ms = true) : RequestStep s t := by
  rcases admitIdle_cases s fits ms with ⟨hd, hf, he⟩ | ⟨c, hc, he⟩ | ⟨-, he⟩
  · obtain rfl := Host.Outcome.next.inj (he.symm.trans h)
    exact .starts hms fun _ _ => by rw [hd]; exact hok hf
  · obtain rfl := Host.Outcome.next.inj (he.symm.trans h)
    exact .ends (.faults (.refl s) hc)
  · rw [he] at h
    cases h

/-- A protocol request starts its sequence or faults (45_protocol_ops.md R290 to R292). -/
theorem exec_protocolRequest {i : Instr} {s t : State} (hi : isProtocolRequest i = true) (h : exec i s = .next t) :
    RequestStep s t := by
  cases i <;> try cases hi
  case init =>
    obtain rfl := Host.Outcome.next.inj h
    exact .starts (by simp [initSeq]) fun hd _ => seqOk_initSeq true hd
  case refreshFull image =>
    exact admitIdle_requestStep h (by simp [refreshFullSeq, encodeWire]) seqOk_refreshFullSeq
  case refreshPartial x y w hh sub =>
    exact admitIdle_requestStep h (by simp [refreshPartialSeq]) (seqOk_refreshPartialSeq x y)
  case refreshFast image =>
    exact admitIdle_requestStep h (by simp [refreshFastSeq, refreshTail]) seqOk_refreshFastSeq
  case deepSleep => exact admitIdle_requestStep h (by simp [deepSleepSeq]) fun _ => seqOk_deepSleepSeq s.par

/-- A word decodes to a canvas request or to a protocol request (30_encoding.md R102). -/
theorem decodeRequest_kind {w : ReqWord} {i : Instr} (h : decodeRequest w = .ok i) :
    isCanvasRequest i = true ∨ isProtocolRequest i = true := by
  obtain ⟨-, hw⟩ := decodeRequest_cases h
  cases hw with
  | init | refreshFull | refreshPartial | refreshFast | deepSleep => exact .inr rfl
  | _ => exact .inl rfl

theorem exec_decoded {w : ReqWord} {i : Instr} {s t : State} (hi : decodeRequest w = .ok i)
    (h : exec i s = .next t) : RequestStep s t := by
  rcases decodeRequest_kind hi with hc | hp
  · obtain ⟨t', ht', he⟩ := exec_canvasRequest hc s
    obtain rfl := Host.Outcome.next.inj (ht'.symm.trans h)
    exact .ends he
  · exact exec_protocolRequest hp h

end Sys2Proof.Machine
end

section
/-! PROOFS. The cases of a step, and what holds of every step by them: what it only adds to, and the clock's bound. -/

namespace Sys2Proof.Machine

/-! ### What the end of a micro-action leaves (10_state.md R37, 45_protocol_ops.md R293) -/

@[simp] theorem advance_fault (s : State) : s.advance.st.fault = s.st.fault := by
  unfold State.advance; split <;> rfl
@[simp] theorem advance_halted (s : State) : s.advance.st.halted = s.st.halted := by
  unfold State.advance; split <;> rfl

section
variable (s : State) (m : Micro) (mb : Bool) (wr : ResultCode) (es : List Event) (ls : List (ErrorKind × Byte))
  (e : Env) (mem : Memory)

@[simp] theorem afterMicro_par : (s.afterMicro m mb wr es ls e mem).par = s.par := rfl
@[simp] theorem afterMicro_wt : (s.afterMicro m mb wr es ls e mem).wt = s.wt ++ es := rfl
@[simp] theorem afterMicro_el : (s.afterMicro m mb wr es ls e mem).el = s.el ++ ls := rfl
@[simp] theorem afterMicro_env : (s.afterMicro m mb wr es ls e mem).env = e := rfl
@[simp] theorem afterMicro_reqActive : (s.afterMicro m mb wr es ls e mem).sq.reqActive = s.sq.reqActive := rfl
@[simp] theorem afterMicro_pending : (s.afterMicro m mb wr es ls e mem).pending = s.pending := rfl
@[simp] theorem afterMicro_fault : (s.afterMicro m mb wr es ls e mem).st.fault = s.st.fault := by
  cases m <;> rfl
@[simp] theorem afterMicro_halted : (s.afterMicro m mb wr es ls e mem).st.halted = s.st.halted := by
  cases m <;> rfl
@[simp] theorem afterMicro_dstate : (s.afterMicro m mb wr es ls e mem).st.dstate = stateAfter s.st.dstate m := by
  cases m <;> rfl
@[simp] theorem afterMicro_rstLine : (s.afterMicro m mb wr es ls e mem).st.rstLine = lineAfter s.st.rstLine m := by
  cases m <;> rfl

end

/-! ### The cases of a step -/

/-- `t` is `s` with this step's block-reset level used up, and otherwise as the host's move leaves it: memory and the
host's actions alone may differ (20_memory.md R87, 93_implementation_defined.md I13). -/
def State.HostMoved (s t : State) : Prop :=
  t = { s with mem := t.mem, env := { s.env with host := t.env.host, resetIn := s.env.resetIn.tail } }

section
variable {s t : State} (h : s.HostMoved t)
include h

theorem State.HostMoved.par : t.par = s.par := by rw [h]
theorem State.HostMoved.st : t.st = s.st := by rw [h]
theorem State.HostMoved.sq : t.sq = s.sq := by rw [h]
theorem State.HostMoved.wt : t.wt = s.wt := by rw [h]
theorem State.HostMoved.el : t.el = s.el := by rw [h]
theorem State.HostMoved.clockFloor : t.env.clockFloor = s.env.clockFloor := by rw [h]
theorem State.HostMoved.pending : t.pending = s.pending := by rw [State.pending, h.sq]; rfl

end

theorem hostMoved_meanwhile (s : State) : s.HostMoved s.tick.hostMeanwhile := by
  unfold State.HostMoved
  conv_lhs => rw [hostMeanwhile_eq]
  rw [hostMeanwhile_env]
  rfl

/-- Everything a step can do. -/
inductive StepCases (s : State) : State → Prop where
  /-- block reset is asserted -/
  | resets (hr : s.resetAsserted = true) : StepCases s s.tick.blockReset
  /-- the micro-action at `MPC` is performed, after the host's move -/
  | micro {u t : State} {m : Micro} {rest : List Micro} (ha : s.sq.reqActive = true) (hu : s.HostMoved u)
      (hp : s.pending = m :: rest) (hm : MicroStep u m t) : StepCases s t
  /-- a request with nothing left to run ends -/
  | runsOut {u : State} (ha : s.sq.reqActive = true) (hu : s.HostMoved u) (hp : s.pending = []) :
      StepCases s (u.finish u.sq.wr)
  /-- no request executes, and none is taken -/
  | rests {t : State} (ha : s.sq.reqActive = false) (ht : s.HostMoved t) : StepCases s t
  /-- a request is taken -/
  | takes {u t : State} {w : ReqWord} (ha : s.sq.reqActive = false) (hf : s.st.fault = .none)
      (hh : s.st.halted = false) (hu : s.HostMoved u) (ht : RequestStep (u.latch w) t) : StepCases s t

/-- A word on the request port is discarded, rejected as illegal, or its request is executed (60_exceptions.md R347,
30_encoding.md R104). -/
theorem takeRequest_cases {s t : State} {w : ReqWord} (h : s.takeRequest w = .next t) :
    t = s ∨ (s.st.fault = .none ∧ s.st.halted = false ∧ RequestStep (s.latch w) t) := by
  unfold State.takeRequest at h
  split at h
  · rename_i hacc
    simp only [State.accepts, Bool.and_eq_true, Bool.not_eq_true', beq_iff_eq] at hacc
    obtain ⟨⟨-, hf⟩, hh⟩ := hacc
    refine .inr ⟨hf, hh, ?_⟩
    cases hd : decodeRequest w with
    | ok i =>
      rw [hd] at h
      exact exec_decoded hd h
    | error e =>
      rw [hd] at h
      obtain rfl := Host.Outcome.next.inj h
      exact .ends (.faults (.refl _) (by decide))
  · exact .inl (Host.Outcome.next.inj h).symm

theorem hostMoved_tick (s : State) : s.HostMoved s.tick := rfl

theorem hostMoved_tick_popHost (s : State) : s.HostMoved s.tick.popHost := rfl

theorem hostMoved_hostWrite {s u : State} (h : s.HostMoved u) (a : Nat) (v : Byte) : s.HostMoved (u.hostWrite a v) := by
  unfold State.hostWrite
  split
  · unfold State.HostMoved
    conv_lhs => rw [h]
    rfl
  · exact h

/-- A step between requests: nothing but the host's move, or a request is taken. -/
theorem stepIdle_cases {s t : State} (h : s.tick.stepIdle = .next t) :
    s.HostMoved t ∨ ∃ u w, s.HostMoved u ∧ s.st.fault = .none ∧ s.st.halted = false ∧ RequestStep (u.latch w) t := by
  unfold State.stepIdle at h
  split at h
  · obtain rfl := Host.Outcome.next.inj h
    exact .inl (hostMoved_tick s)
  · obtain rfl := Host.Outcome.next.inj h
    exact .inl (hostMoved_tick_popHost s)
  · obtain rfl := Host.Outcome.next.inj h
    exact .inl (hostMoved_tick_popHost s)
  · rcases takeRequest_cases h with rfl | ⟨hf, hh, hr⟩
    · exact .inl (hostMoved_tick_popHost s)
    · exact .inr ⟨_, _, hostMoved_tick_popHost s, hf, hh, hr⟩
  · obtain rfl := Host.Outcome.next.inj h
    exact .inl (hostMoved_hostWrite (hostMoved_tick_popHost s) _ _)

/-- Every step that answers a next state is one of the five. -/
theorem step_cases {s t : State} (h : step s = .next t) : StepCases s t := by
  cases hr : s.resetAsserted with
  | true =>
    obtain rfl := Host.Outcome.next.inj ((step_of_reset hr).symm.trans h)
    exact .resets hr
  | false =>
    cases ha : s.sq.reqActive with
    | true =>
      have hu := hostMoved_meanwhile s
      cases hp : s.pending with
      | nil =>
        have hp' : s.tick.hostMeanwhile.pending = [] := hu.pending.trans hp
        rw [step_of_active hr ha, State.stepActive, hp'] at h
        obtain rfl := Host.Outcome.next.inj h
        exact .runsOut ha hu hp
      | cons m rest =>
        rw [step_micro_host hr ha hp] at h
        obtain rfl := Host.Outcome.next.inj h
        exact .micro ha hu hp (runMicro_cases _ m)
    | false =>
      rw [step_of_idle hr ha] at h
      rcases stepIdle_cases h with ht | ⟨u, w, hu, hf, hh, ht⟩
      · exact .rests ha ht
      · exact .takes ha hf hh hu ht

/-! ### A step only appends, and FAULT and HALTED stick (10_state.md R39, R45, 60_exceptions.md R343) -/

/-- From `s` to `t` the trace and the log have only grown, a fault or a halt has stayed, and the parameters are the
same. -/
structure Grows (s t : State) : Prop where
  wt : ∃ es, t.wt = s.wt ++ es
  el : ∃ ls, t.el = s.el ++ ls
  fault : s.st.fault ≠ .none → t.st.fault ≠ .none
  halted : s.st.halted = true → t.st.halted = true
  par : t.par = s.par

theorem Grows.trans {s t u : State} (h : Grows s t) (h' : Grows t u) : Grows s u := by
  obtain ⟨es, he⟩ := h.wt
  obtain ⟨es', he'⟩ := h'.wt
  obtain ⟨ls, hl⟩ := h.el
  obtain ⟨ls', hl'⟩ := h'.el
  exact ⟨⟨es ++ es', by rw [he', he, List.append_assoc]⟩, ⟨ls ++ ls', by rw [hl', hl, List.append_assoc]⟩,
    h'.fault ∘ h.fault, h'.halted ∘ h.halted, h'.par.trans h.par⟩

/-- What leaves trace, log, status and parameters alone. -/
theorem grows_of_eq {s t : State} (hw : t.wt = s.wt) (hl : t.el = s.el) (hf : t.st.fault = s.st.fault)
    (hh : t.st.halted = s.st.halted) (hp : t.par = s.par) : Grows s t :=
  ⟨⟨[], by simp [hw]⟩, ⟨[], by simp [hl]⟩, by simp [hf], by simp [hh], hp⟩

theorem hostMoved_grows {s t : State} (h : s.HostMoved t) : Grows s t :=
  grows_of_eq h.wt h.el (by rw [h.st]) (by rw [h.st]) h.par

theorem latch_grows (s : State) (w : ReqWord) : Grows s (s.latch w) := grows_of_eq rfl rfl rfl rfl rfl

theorem microStep_grows {s t : State} {m : Micro} (h : MicroStep s m t) : Grows s t := by
  cases h with
  | stays t0 es e hm hes he => exact ⟨⟨es, rfl⟩, ⟨[], by simp⟩, id, id, rfl⟩
  | completes mb wr es ls e mem hmb hwr hes he =>
    exact ⟨⟨es, by simp⟩, ⟨ls, by simp⟩, by simp, by simp, by simp⟩
  | fails k b es e mem hm hes he =>
    exact ⟨⟨es ++ [.xferFail k b], by simp⟩, ⟨_, rfl⟩, id, fun _ => rfl, rfl⟩
  | overruns q n hm hf => exact ⟨⟨[], by simp⟩, ⟨[], by simp⟩, by simp, id, rfl⟩

theorem canvasEnd_grows {s t : State} (h : CanvasEnd s t) : Grows s t := by
  cases h with
  | finishes hw r =>
    exact ⟨⟨[], by simp [hw.wt]⟩, hw.el, by simp [hw.fault], by simp [hw.halted], hw.par⟩
  | faults hw hc => exact ⟨⟨[], by simp [hw.wt]⟩, hw.el, fun _ => hc, by simp [hw.halted], hw.par⟩

theorem requestStep_grows {s t : State} (h : RequestStep s t) : Grows s t := by
  cases h with
  | ends he => exact canvasEnd_grows he
  | starts hms hok => exact grows_of_eq rfl rfl rfl rfl rfl

/-- Settles O15, over the cases of a step. -/
theorem stepsOnlyAppendAndStick : Obligations.StepsOnlyAppendAndStick := by
  intro s t h hr
  have hg : Grows s t := by
    cases step_cases h with
    | resets hr' => exact absurd hr' (by simp [hr])
    | micro ha hu hp hm => exact (hostMoved_grows hu).trans (microStep_grows hm)
    | runsOut ha hu hp => exact (hostMoved_grows hu).trans (grows_of_eq rfl rfl rfl rfl rfl)
    | rests ha ht => exact hostMoved_grows ht
    | takes ha hf hh hu ht =>
      exact ((hostMoved_grows hu).trans (latch_grows _ _)).trans (requestStep_grows ht)
  exact ⟨hg.wt, hg.el, hg.fault, hg.halted, hg.par⟩

/-! ### The clock (10_state.md R34) -/

theorem microStep_clock {s t : State} {m : Micro} (h : MicroStep s m t) : s.env.clockFloor ≤ t.env.clockFloor := by
  cases h with
  | stays t0 es e hm hes he => exact he.clock
  | completes mb wr es ls e mem hmb hwr hes he => simpa using he.clock
  | fails k b es e mem hm hes he => exact he.clock
  | overruns q n hm hf => exact le_refl _

/-- The step that takes a request draws nothing. -/
theorem requestStep_env {s t : State} (h : RequestStep s t) : t.env = s.env := by
  cases h with
  | ends he =>
    cases he with
    | finishes hw r => exact hw.env
    | faults hw hc => exact hw.env
  | starts hms hok => rfl

/-- No step, block reset included, lowers the least value of the next clock draw (10_state.md R34 (a)). -/
theorem step_clockFloor {s t : State} (h : step s = .next t) : s.env.clockFloor ≤ t.env.clockFloor := by
  cases step_cases h with
  | resets hr => exact le_refl _
  | micro ha hu hp hm => exact hu.clockFloor ▸ microStep_clock hm
  | runsOut ha hu hp => exact hu.clockFloor.ge
  | rests ha ht => exact ht.clockFloor.ge
  | takes ha hf hh hu ht =>
    rw [requestStep_env ht]
    exact hu.clockFloor.ge

/-- The inputs at which the clock stands: the least value of the next draw, and below it, turned round, how many more
draws may stand still. A draw moves it up, and nothing moves it down. -/
def Env.clockRank (e : Env) : ℕ ×ₗ ℕᵒᵈ := toLex (e.clockFloor, OrderDual.toDual e.patience)

theorem clockRank_le_iff (e e' : Env) : e.clockRank ≤ e'.clockRank ↔
    e.clockFloor < e'.clockFloor ∨ e.clockFloor = e'.clockFloor ∧ e'.patience ≤ e.patience := by
  simp [Env.clockRank, Prod.Lex.toLex_le_toLex]

theorem clockRank_lt_drawClock (e : Env) : e.clockRank < e.drawClock.2.clockRank := by
  rw [Env.clockRank, Env.clockRank, Prod.Lex.toLex_lt_toLex]
  rcases drawClock_progress e with h | ⟨h, h'⟩
  · exact .inl h
  · exact .inr ⟨h.symm, h'⟩

theorem clockRank_le_delay (e : Env) (ms : Nat) : e.clockRank ≤ (e.delay ms).clockRank := by
  obtain ⟨-, -, -, h | h⟩ := delay_clock e ms
  · exact (clockRank_le_iff _ _).2 (.inl h)
  · rw [h]

theorem clockRank_sameClock {e e' : Env} (h : e.SameClock e') : e'.clockRank = e.clockRank := by
  obtain ⟨hin, hn, hs, hf, -⟩ := h
  simp [Env.clockRank, Env.patience, hin, hn, hs, hf]

/-- The inputs go on in any way that draws no clock, or draw it. -/
theorem clockRank_monotone {E : Nat → Env} (h : ∀ n, E (n + 1) = (E n).drawClock.2 ∨
    (∃ ms, E (n + 1) = (E n).delay ms) ∨ (E n).SameClock (E (n + 1))) : Monotone fun n => (E n).clockRank := by
  refine monotone_nat_of_le_succ fun n => ?_
  rcases h n with h | ⟨ms, h⟩ | h
  · rw [h]
    exact (clockRank_lt_drawClock _).le
  · rw [h]
    exact clockRank_le_delay _ ms
  · exact (clockRank_sameClock h).ge

/-- A clock drawn again and again rises: its patience runs out (10_state.md R34 (c)). -/
theorem exists_clockFloor_lt {E : Nat → Env} (hmono : Monotone fun n => (E n).clockRank)
    (hdraw : ∀ n, ∃ m, n ≤ m ∧ E (m + 1) = (E m).drawClock.2) (n : Nat) :
    ∃ k, (E n).clockFloor < (E k).clockFloor := by
  induction hk : (E n).patience using Nat.strong_induction_on generalizing n with
  | _ k ih =>
    obtain ⟨m, hnm, hm⟩ := hdraw n
    have hlt : (E n).clockRank < (E (m + 1)).clockRank :=
      (hmono hnm).trans_lt (hm ▸ clockRank_lt_drawClock (E m))
    rw [Env.clockRank, Env.clockRank, Prod.Lex.toLex_lt_toLex] at hlt
    rcases hlt with hf | ⟨hf, hp⟩
    · exact ⟨_, hf⟩
    · obtain ⟨j, hj⟩ := ih _ (hk ▸ hp) (m + 1) rfl
      exact ⟨j, hf.trans_lt hj⟩

theorem clockFloor_unbounded {E : Nat → Env} (hmono : Monotone fun n => (E n).clockRank)
    (hdraw : ∀ n, ∃ m, n ≤ m ∧ E (m + 1) = (E m).drawClock.2) (bound : Nat) :
    ∃ n, bound ≤ (E n).clockFloor := by
  induction bound with
  | zero => exact ⟨0, Nat.zero_le _⟩
  | succ b ih =>
    obtain ⟨n, hn⟩ := ih
    obtain ⟨k, hk⟩ := exists_clockFloor_lt hmono hdraw n
    exact ⟨k, hn.trans_lt hk⟩

/-- Settles O60: (a) over the cases of a step, (b) by the clause of a delay, (c) because between two advances the
patience of the clock runs out. -/
theorem clockNeverFalls : Obligations.ClockNeverFalls := by
  refine ⟨fun s t => step_clockFloor, fun e => ⟨(drawClock_keeps e).1, rfl, rfl⟩, fun e ms hr => ?_,
    fun E hE hdraw bound => ?_⟩
  · obtain ⟨hread, -, hfloor, -⟩ := delay_clock e ms
    exact ⟨hfloor hr, hread.trans hr⟩
  · obtain ⟨n, hn⟩ := clockFloor_unbounded (clockRank_monotone hE) hdraw (bound + 1)
    exact ⟨n, hn.trans (drawClock_keeps _).1⟩

end Sys2Proof.Machine
end

section
/-! PROOFS. The protocol invariant: the reset state meets it, and every step keeps it. -/

namespace Sys2Proof.Machine

/-! ### The trace holds only commands of the table (30_encoding.md R112) -/

theorem traceInTable_append {p : Params} {wt es : List Event} (h : traceInTable p wt)
    (hes : ∀ b, Event.cmd b ∈ es → (p.cmds.find b).isSome = true) : traceInTable p (wt ++ es) := by
  intro b hb
  rcases List.mem_append.1 hb with hb | hb
  · exact h b hb
  · exact hes b hb

/-- A micro-action that may run sends only command bytes of the table. -/
theorem commands_of_mayEmit {p : Params} {d : DState} {m : Micro} {es : List Event} (hok : microOk p d m = true)
    (hes : ∀ x ∈ es, mayEmit m x = true) : ∀ b, Event.cmd b ∈ es → (p.cmds.find b).isSome = true := by
  intro b hb
  have he := hes _ hb
  cases m with
  | sendCmd b' =>
    obtain rfl : b' = b := by simpa [mayEmit] using he
    exact (Bool.and_eq_true_iff.1 hok).2
  | _ => cases he

/-! ### The two ways to meet the invariant -/

/-- A block whose request has ended meets the invariant, if it rests where it is not halted, and a halt is a failed
send's. -/
theorem protocolInv_of_ended {t : State} {q : Sequencer} (hq : t.sq = q.ended)
    (hrest : t.st.halted = false → settled t.st.dstate = true ∧ t.st.rstLine = true)
    (hhalt : t.st.halted = true → t.st.result = .transportFailure ∧ t.st.fault = .none)
    (htrace : traceInTable t.par t.wt) : t.ProtocolInv where
  ready _ := by simp [hq]
  rests _ := hrest
  runs h := by simp [hq] at h
  waits h := by simp [hq] at h
  haltResult h := (hhalt h).1
  haltNoFault h := (hhalt h).2
  trace := htrace

/-- A block whose request goes on meets the invariant, if what is left of the request may run. -/
theorem protocolInv_of_running {t : State} (ha : t.sq.reqActive = true) (hf : t.st.fault = .none)
    (hh : t.st.halted = false) (hp : t.pending ≠ []) (hok : seqOk t.par t.st.dstate t.st.rstLine t.pending = true)
    (hw : t.sq.waiting = true → ∃ m ms, t.pending = m :: ms ∧ isWait m = true) (htrace : traceInTable t.par t.wt) :
    t.ProtocolInv where
  ready h := by simp [ha] at h
  rests h := by simp [ha] at h
  runs _ := ⟨hf, hh, hp, hok⟩
  waits := hw
  haltResult h := by simp [hh] at h
  haltNoFault h := by simp [hh] at h
  trace := htrace

/-- The invariant speaks of parameters, status registers, sequencer and trace alone. -/
theorem State.ProtocolInv.congr {s t : State} (h : s.ProtocolInv) (hp : t.par = s.par) (hst : t.st = s.st)
    (hsq : t.sq = s.sq) (hw : t.wt = s.wt) : t.ProtocolInv := by
  have hpend : t.pending = s.pending := by rw [State.pending, hsq]; rfl
  obtain ⟨ready, rests, runs, waits, haltResult, haltNoFault, trace⟩ := h
  constructor <;> simpa only [hp, hst, hsq, hw, hpend]

theorem State.HostMoved.protocolInv {s t : State} (h : s.HostMoved t) (hi : s.ProtocolInv) : t.ProtocolInv :=
  hi.congr h.par h.st h.sq h.wt

/-- The registers of block reset meet the invariant, with any parameters (10_state.md R46). -/
theorem blockReset_protocolInv (s : State) : s.blockReset.ProtocolInv :=
  protocolInv_of_ended (q := Sequencer.reset) rfl (fun _ => ⟨rfl, rfl⟩) (fun h => by cases h) fun b hb => by cases hb

/-! ### The cases of a step keep the invariant -/

/-- The parts of a sequence that may run: its first micro-action, and what follows it. -/
theorem seqOk_cons {p : Params} {d : DState} {l : Bool} {m : Micro} {ms : List Micro} :
    seqOk p d l (m :: ms) = true ↔
      microOk p d m = true ∧ seqOk p (stateAfter d m) (lineAfter l m) ms = true := Bool.and_eq_true_iff

/-- A completed micro-action moves on to the next, which may run, or was the last and leaves the block at rest. -/
theorem advance_protocolInv {u : State} {m : Micro} {rest : List Micro} (ha : u.sq.reqActive = true)
    (hp : u.pending = m :: rest) (hf : u.st.fault = .none) (hh : u.st.halted = false)
    (hok : seqOk u.par u.st.dstate u.st.rstLine rest = true) (htrace : traceInTable u.par u.wt) :
    u.advance.ProtocolInv := by
  cases rest with
  | nil =>
    rw [advance_last hp]
    exact protocolInv_of_ended rfl (fun _ => Bool.and_eq_true_iff.1 hok) (fun h => absurd h (by simp [hh])) htrace
  | cons m' ms =>
    obtain ⟨hadv, hpend⟩ := advance_more hp
    rw [hadv] at hpend ⊢
    refine protocolInv_of_running ha hf hh (by simp [hpend]) ?_ (fun h => by cases h) htrace
    rw [hpend]
    exact hok

theorem microStep_protocolInv {s t : State} {m : Micro} {rest : List Micro} (hi : s.ProtocolInv)
    (ha : s.sq.reqActive = true) (hp : s.pending = m :: rest) (h : MicroStep s m t) : t.ProtocolInv := by
  obtain ⟨hf, hh, -, hok⟩ := hi.runs ha
  obtain ⟨hm, hrest⟩ := seqOk_cons.1 (hp ▸ hok)
  cases h with
  | stays t0 es e hw hes he =>
    exact protocolInv_of_running ha hf hh (fun h => by cases hp.symm.trans h) hok (fun _ => ⟨m, rest, hp, hw⟩)
      (traceInTable_append hi.trace (commands_of_mayEmit hm hes))
  | completes mb wr es ls e mem hmb hwr hes he =>
    refine advance_protocolInv (m := m) (rest := rest) (by simpa) (by simpa) (by simpa) (by simpa) (by simpa) ?_
    exact traceInTable_append hi.trace (commands_of_mayEmit hm hes)
  | fails k b es e mem hsend hes he =>
    refine protocolInv_of_ended rfl (fun h => by cases h) (fun _ => ⟨rfl, hf⟩) ?_
    refine traceInTable_append (traceInTable_append hi.trace (commands_of_mayEmit hm hes)) ?_
    simp
  | overruns q n hq hover =>
    subst hq
    simp [microOk, hover] at hm

/-- A block at rest that latches a word and takes its request meets the invariant. -/
theorem requestStep_protocolInv {s t : State} {w : ReqWord} (hf : s.st.fault = .none) (hh : s.st.halted = false)
    (hd : settled s.st.dstate = true) (hl : s.st.rstLine = true) (hw : traceInTable s.par s.wt)
    (h : RequestStep (s.latch w) t) : t.ProtocolInv := by
  cases h with
  | ends he =>
    cases he with
    | finishes hu r =>
      exact protocolInv_of_ended rfl (fun _ => by simp [hu.dstate, hu.rstLine, hd, hl])
        (fun h => absurd h (by simp [hu.halted, hh])) (by simpa [hu.par, hu.wt])
    | faults hu hc =>
      exact protocolInv_of_ended rfl (fun _ => by simp [hu.dstate, hu.rstLine, hd, hl])
        (fun h => absurd h (by simp [hu.halted, hh])) (by simpa [hu.par, hu.wt])
  | starts hms hok =>
    exact protocolInv_of_running rfl hf hh hms (by simpa [hl, State.pending] using hok hd hl) (fun h => by cases h) hw

/-- Settles O54, over the cases of a step. -/
theorem stepKeepsProtocolInvariant : Obligations.StepKeepsProtocolInvariant := by
  intro s t hi h
  cases step_cases h with
  | resets hr => exact blockReset_protocolInv _
  | micro ha hu hp hm =>
    exact microStep_protocolInv (hu.protocolInv hi) (hu.sq ▸ ha) (hu.pending.trans hp) hm
  | runsOut ha hu hp =>
    obtain ⟨-, -, hne, -⟩ := hi.runs ha
    exact absurd hp hne
  | rests ha ht => exact ht.protocolInv hi
  | takes ha hf hh hu ht =>
    obtain ⟨hd, hl⟩ := hi.rests ha hh
    exact requestStep_protocolInv (by simpa [hu.st]) (by simpa [hu.st]) (by simpa [hu.st]) (by simpa [hu.st])
      (hu.protocolInv hi).trace ht

/-- Settles O55. -/
theorem resetMeetsTheInvariants : Obligations.ResetMeetsTheInvariants :=
  ⟨⟨reset_mem_wf, fun c hc => by cases hc⟩, ⟨fun _ => rfl, fun _ => rfl⟩, Nat.zero_le 7,
    blockReset_protocolInv State.reset⟩

end Sys2Proof.Machine
end

section
/-! PROOFS. The step of an executing request, and what the host reads: the register file after reset, and each register
by its number. -/

namespace Sys2Proof.Machine

/-! ### The step of an executing request (10_state.md R37, 93_implementation_defined.md I13) -/

/-- The host's move in a step leaves the state its micro-action meets. -/
theorem met_meanwhile (s : State) : s.Met s.tick.hostMeanwhile where
  rest := hostMoved_meanwhile s
  host := by
    rw [hostMeanwhile_env]
    show hostAfter s.env.host = _
    cases s.env.host with
    | nil => rfl
    | cons x acts => cases x <;> rfl
  held a := afterMoves_read 1 s.tick a
  noWrite h := by
    unfold State.hostMeanwhile
    split
    · rfl
    · rfl
    · rfl
    · rfl
    · rename_i a v acts hh
      exact absurd hh (h a v acts)

/-- Settles O7: the state met is the one the host's move leaves. -/
theorem stepRunsTheWireCommand : Obligations.StepRunsTheWireCommand := by
  intro s m rest ha hr hp
  have hu := hostMoved_meanwhile s
  have hstep := step_micro_host hr ha hp
  refine ⟨s.tick.hostMeanwhile, met_meanwhile s, hstep, fun i hi => hstep.trans ?_⟩
  exact (exec_fetched (hu.sq ▸ ha) (hu.pending.trans hp) (hu.par ▸ hi)).symm

/-! ### The registers by their numbers (10_state.md R38, R39) -/

/-- A number reads if it is one of 10_state.md R38 and R39 (log 22). -/
theorem register_ne_none_iff (s : State) (n : Nat) :
    s.register n ≠ none ↔ n ≤ 0x09 ∨ (0x10 ≤ n ∧ n ≤ 0x12) ∨ (0x20 ≤ n ∧ n ≤ 0x29) := by
  unfold State.register
  split
  case h_24 =>
    simp only [ne_eq, not_true_eq_false, false_iff, imp_false] at *
    omega
  all_goals simp

/-- Settles O13: a number that reads is one of 10_state.md R38 and R39, each of which has its reset value. -/
theorem resetState : Obligations.ResetState := by
  refine ⟨fun n => ?_, rfl, rfl, rfl, rfl, rfl⟩
  by_cases hn : n < 0x2A
  · interval_cases n <;> rfl
  · have hnone : State.reset.register n = none := by
      by_contra h
      have := (register_ne_none_iff _ n).1 h
      omega
    rw [hnone]
    unfold resetRegister
    rw [if_neg (by omega), if_neg (by omega), if_neg (by omega)]

/-! ### What the host reads (10_state.md R39, 60_exceptions.md R344) -/

theorem hostRead_active {s : State} (h : s.sq.reqActive = true) (n : Nat) : s.hostRead n = none := by
  simp [State.hostRead, h]

theorem hostRead_idle {s : State} (h : s.sq.reqActive = false) (n : Nat) : s.hostRead n = s.register n := by
  simp [State.hostRead, h]

/-- A one-bit register reads 1 or 0. -/
theorem bitCode_setWidth (b : Bool) : (bitCode b).setWidth 32 = if b then 1 else 0 := by cases b <;> rfl

/-- Settles O14: the registers that hold a number read it, the others the code of what they hold. -/
theorem hostReadsRegisters : Obligations.HostReadsRegisters := by
  intro s
  refine ⟨fun ha n => hostRead_active ha n, fun ha => ?_⟩
  refine ⟨fun n => ⟨hostRead_idle ha n, by rw [hostRead_idle ha, register_ne_none_iff]⟩, ?_⟩
  simp only [hostRead_idle ha]
  refine ⟨rfl, congrArg some (bitCode_setWidth _), rfl, rfl, rfl, rfl,
    congrArg some ?dens, congrArg some ?rot, congrArg some ?mir, rfl, congrArg some ?dstate,
    congrArg some (bitCode_setWidth _), congrArg some (bitCode_setWidth _), congrArg some ?result, rfl, rfl, rfl, rfl,
    rfl, rfl, rfl, congrArg some ?fault, congrArg some (bitCode_setWidth _)⟩
  case dens => cases s.cv.dens <;> rfl
  case rot => cases s.cv.rot <;> rfl
  case mir => cases s.cv.mir <;> rfl
  case dstate => cases s.st.dstate <;> rfl
  case result => cases s.st.result <;> rfl
  case fault => cases s.st.fault <;> rfl

end Sys2Proof.Machine
end

section
/-! PROOFS. What a pixel request leaves: the memory it may write, and how it ends. -/

namespace Sys2Proof.Machine

/-! ### Writes inside the canvas region (20_memory.md R72, R73, 42_pixel.md R202) -/

/-- `m` is the memory of `s` after writes to bytes that lie both in the canvas region and in host memory. -/
structure RegionWritten (s : State) (m : Memory) : Prop where
  frame : ∀ a, ¬ (s.inRegion a ∧ a < s.par.memSize) → Memory.read m a = Memory.read s.mem a
  canonical : Memory.wf s.mem = true → Memory.wf m = true
  cells : ∀ k ∈ m, k.1 < s.par.memSize ∨ k ∈ s.mem

theorem RegionWritten.refl (s : State) : RegionWritten s s.mem := ⟨fun _ _ => rfl, id, fun _ h => .inr h⟩

theorem inRegion_iff (s : State) (a : Nat) :
    s.inRegion a ↔ s.cv.base.toNat ≤ a ∧ a < s.cv.base.toNat + s.cv.regionBytes := by
  unfold State.inRegion
  rw [rowLength_eq]
  rfl

/-- Drawn pixels that all pass the region check write inside the region. -/
theorem regionWritten_of_drawnAll {s : State} {pts : List (Nat × Nat)} {c : Byte} {m : Memory}
    (h : DrawnAll s pts c m) (hr : ∀ p ∈ pts, s.pixelInRegion p.1 p.2 = true) : RegionWritten s m where
  frame a ha := h.frame a fun p hp hm => ha (pixelInRegion_addr (hr p hp) hm)
  canonical := h.canonical
  cells k hk := (h.cells k hk).imp_left fun ⟨p, hp, hm⟩ => (pixelInRegion_addr (hr p hp) hm).2

/-- A fill of a region that lies in host memory writes inside the region. -/
theorem regionWritten_fill {s : State} (f : Byte) (h : s.cv.base.toNat + s.cv.regionBytes ≤ s.par.memSize) :
    RegionWritten s (State.fill s.cv.regionBytes s.cv.base.toNat f s).mem where
  frame a ha := by
    rw [inRegion_iff] at ha
    rw [fill_read, if_neg (by omega)]
  canonical := fill_wf _ _ _ _
  cells k hk := (fill_cells _ _ _ _ _ hk).imp_left fun hk => by omega

/-! ### How a pixel request ends (60_exceptions.md R341, R345) -/

/-- A pixel request that started in `s` ended, with a result or in a fault: it left `RVAL = v` and memory `m`, and
besides `RESULT`, `FAULT` and the log touched nothing. -/
inductive PixelEnd (s : State) (v : Byte) (m : Memory) : State → Prop where
  | finishes (el : List (ErrorKind × Byte)) (r : ResultCode) :
      PixelEnd s v m (State.finish { s with st := { s.st with rval := v }, mem := m, el := el } r)
  | faults (el : List (ErrorKind × Byte)) (c : FaultCode) :
      PixelEnd s v m (State.raiseFault { s with st := { s.st with rval := v }, mem := m, el := el } c)

/-- How a pixel request that draws ends: it wrote inside the region only, and kept `RVAL`. -/
def DrawEnd (s t : State) : Prop := ∃ m, RegionWritten s m ∧ PixelEnd s s.st.rval m t

theorem DrawEnd.fault (s : State) (c : FaultCode) : DrawEnd s (s.raiseFault c) :=
  ⟨s.mem, .refl s, .faults s.el c⟩

/-- Drawing a list of pixels, up to the first that fails the region check. -/
theorem packList_drawEnd (s : State) (c : Byte) (pts : List (Nat × Nat)) (r : ResultCode) :
    DrawEnd s (endBody (pts.foldlM (fun (u : State) p => u.pack p.1 p.2 c) s) r) := by
  by_cases h : ∃ p ∈ pts, s.pixelInRegion p.1 p.2 = false
  · obtain ⟨m, hm, hd⟩ := draw_list_fault c pts h
    rw [hm]
    exact ⟨m, regionWritten_of_drawnAll hd fun p hp =>
      List.mem_takeWhile_imp (p := fun q : Nat × Nat => s.pixelInRegion q.1 q.2) hp, .faults s.el _⟩
  · have hr : ∀ p ∈ pts, s.pixelInRegion p.1 p.2 = true := by simpa using h
    obtain ⟨m, hm, hd⟩ := draw_list c pts hr
    rw [hm]
    exact ⟨m, regionWritten_of_drawnAll hd hr, .finishes s.el _⟩

theorem pack_drawEnd (s : State) (xm ym : Nat) (c : Byte) (r : ResultCode) :
    DrawEnd s (endBody (s.pack xm ym c) r) := by
  simpa using packList_drawEnd s c [(xm, ym)] r

theorem pack_ok_cv {s u : State} {xm ym : Nat} {c : Byte} (h : s.pack xm ym c = .ok u) : u.cv = s.cv := by
  cases hr : s.pixelInRegion xm ym with
  | true =>
    obtain ⟨m, hm, -⟩ := pack_ok c hr
    obtain rfl := Except.ok.inj (hm.symm.trans h)
    rfl
  | false => cases (pack_fault c hr).symm.trans h

theorem pack_eq_pack7 {s : State} (h : s.cv.dens = .d7) (xm ym : Nat) (c : Byte) :
    s.pack xm ym c = s.pack7 xm ym c := by simp [State.pack, h]

/-- At density 7 a list of `pack7` is a list of `pack`, since a drawn pixel leaves the density alone. -/
theorem foldlM_pack7 {s : State} (h : s.cv.dens = .d7) (c : Byte) (pts : List (Nat × Nat)) :
    pts.foldlM (fun (u : State) p => u.pack7 p.1 p.2 c) s = pts.foldlM (fun (u : State) p => u.pack p.1 p.2 c) s := by
  induction pts generalizing s with
  | nil => rfl
  | cons p pts ih =>
    rw [List.foldlM_cons, List.foldlM_cons, ← pack_eq_pack7 h]
    cases hp : s.pack p.1 p.2 c with
    | error t => rfl
    | ok u => exact ih (by rw [pack_ok_cv hp, h])

theorem clearPixels_drawEnd {s : State} (h : s.cv.dens = .d7) (c : Byte) : DrawEnd s (s.clearPixels c) := by
  unfold State.clearPixels
  rw [forRange_nested 0 0 s.cv.wm.toNat s.cv.hm.toNat (fun xm ym (u : State) => u.pack7 xm ym c), foldlM_pack7 h]
  exact packList_drawEnd s c _ _

theorem clearBytes_drawEnd (s : State) (f : Byte) : DrawEnd s (s.clearBytes f) := by
  unfold State.clearBytes
  split
  · rename_i h
    rw [fill_eq]
    exact ⟨_, regionWritten_fill f h, .finishes s.el _⟩
  · exact .fault s _

theorem execClear_drawEnd (color : Byte) (s : State) : ∃ t, execClear color s = .next t ∧ DrawEnd s t := by
  unfold execClear
  split
  · split
    · exact ⟨_, rfl, clearBytes_drawEnd s _⟩
    · exact ⟨_, rfl, clearBytes_drawEnd s _⟩
    · rename_i h
      exact ⟨_, rfl, clearPixels_drawEnd h color⟩
  · exact ⟨_, rfl, .fault s _⟩

theorem pointPasses_pixelInRegion {s : State} {q p : Nat × Nat} (hq : s.pointPasses q.1 q.2 = true)
    (hp : s.transformed q.1 q.2 = some p) : s.pixelInRegion p.1 p.2 = true := by
  simpa [State.pointPasses, hp] using hq

/-- Of points that pass, the pixels of the in-bounds ones pass the region check. -/
theorem transformed_inRegion {s : State} {pts : List (Nat × Nat)} (h : ∀ q ∈ pts, s.pointPasses q.1 q.2 = true) :
    ∀ p ∈ pts.filterMap fun q => s.transformed q.1 q.2, s.pixelInRegion p.1 p.2 = true := by
  intro p hp
  obtain ⟨q, hq, ht⟩ := List.mem_filterMap.1 hp
  exact pointPasses_pixelInRegion (h q hq) ht

theorem execClearArea_drawEnd (color : Byte) (x y w h : Coord) (s : State) :
    ∃ t, execClearArea color x y w h s = .next t ∧ DrawEnd s t := by
  unfold execClearArea
  split
  · rw [forRange_nested x.toNat y.toNat w.toNat h.toNat fun px py a => areaPoint color px py a]
    by_cases hf : ∃ q ∈ windowPoints x.toNat y.toNat w.toNat h.toNat, s.pointPasses q.1 q.2 = false
    · obtain ⟨m, hm, hd⟩ := area_list_fault color .ok _ hf
      rw [hm]
      exact ⟨_, rfl, m, regionWritten_of_drawnAll hd (transformed_inRegion fun q hq =>
        List.mem_takeWhile_imp (p := fun q : Nat × Nat => s.pointPasses q.1 q.2) hq), .faults _ _⟩
    · have hp : ∀ q ∈ windowPoints x.toNat y.toNat w.toNat h.toNat, s.pointPasses q.1 q.2 = true := by
        simpa using hf
      obtain ⟨m, hm, hd⟩ := area_list color .ok _ fun q hq xm ym => pointPasses_pixelInRegion (hp q hq)
      rw [hm]
      exact ⟨_, rfl, m, regionWritten_of_drawnAll hd (transformed_inRegion hp), .finishes _ _⟩
  · exact ⟨_, rfl, .fault s _⟩

theorem execDrawPixel_drawEnd (color : Byte) (x y : Coord) (s : State) :
    ∃ t, execDrawPixel color x y s = .next t ∧ DrawEnd s t := by
  unfold execDrawPixel
  split
  · split
    · exact ⟨_, rfl, pack_drawEnd s _ _ color _⟩
    · exact ⟨_, rfl, s.mem, .refl s, .finishes _ _⟩
  · exact ⟨_, rfl, .fault s _⟩

/-- READ_PIXEL ends with `RVAL` written or in a fault, and writes no memory (42_pixel.md R210). -/
theorem execReadPixel_pixelEnd (x y : Coord) (s : State) :
    ∃ v t, execReadPixel x y s = .next t ∧ PixelEnd s v s.mem t := by
  unfold execReadPixel State.unpack
  split
  · split
    · split
      · exact ⟨_, _, rfl, .finishes s.el _⟩
      · rename_i heq
        split at heq
        · cases heq
        · cases heq
          exact ⟨s.st.rval, _, rfl, .faults s.el _⟩
    · exact ⟨0, _, rfl, .finishes _ _⟩
  · exact ⟨s.st.rval, _, rfl, .faults s.el _⟩

/-- Everything the pixel request `i` can do in `s`: it ends in its one step; READ_PIXEL keeps memory, and the others
write inside the region and keep `RVAL`. -/
def PixelRequestEnds (i : Instr) (s : State) : Prop :=
  ∃ v m t, exec i s = .next t ∧ PixelEnd s v m t ∧ RegionWritten s m ∧
    ((∃ x y, i = .readPixel x y) → m = s.mem) ∧ ((∀ x y, i ≠ .readPixel x y) → v = s.st.rval)

theorem pixelRequestEnds_of_draws {i : Instr} {s : State} (hr : ∀ x y, i ≠ .readPixel x y)
    (h : ∃ t, exec i s = .next t ∧ DrawEnd s t) : PixelRequestEnds i s := by
  obtain ⟨t, ht, m, hm, he⟩ := h
  exact ⟨_, m, t, ht, he, hm, fun ⟨x, y, hxy⟩ => absurd hxy (hr x y), fun _ => rfl⟩

theorem exec_pixelRequest {i : Instr} (hi : isPixelRequest i = true) (s : State) : PixelRequestEnds i s := by
  cases i <;> try cases hi
  case clear color => exact pixelRequestEnds_of_draws (by simp) (execClear_drawEnd color s)
  case clearArea color x y w h => exact pixelRequestEnds_of_draws (by simp) (execClearArea_drawEnd color x y w h s)
  case drawPixel color x y => exact pixelRequestEnds_of_draws (by simp) (execDrawPixel_drawEnd color x y s)
  case readPixel x y =>
    obtain ⟨v, t, ht, he⟩ := execReadPixel_pixelEnd x y s
    exact ⟨v, s.mem, t, ht, he, .refl s, fun _ => rfl, fun hr => absurd rfl (hr x y)⟩

theorem PixelEnd.mem {s t : State} {v : Byte} {m : Memory} (h : PixelEnd s v m t) : t.mem = m := by
  cases h <;> rfl

theorem PixelEnd.par {s t : State} {v : Byte} {m : Memory} (h : PixelEnd s v m t) : t.par = s.par := by
  cases h <;> rfl

/-- Settles O34, by the one way a pixel request ends. -/
theorem pixelRequestsFrame : Obligations.PixelRequestsFrame := by
  intro i s hi
  obtain ⟨v, m, t, ht, he, hm, hread, hdraw⟩ := exec_pixelRequest hi s
  refine ⟨t, ht, he.par, ?_⟩
  cases he with
  | finishes el r => exact ⟨rfl, rfl, rfl, rfl, rfl, hm.frame, hread, hdraw⟩
  | faults el c => exact ⟨rfl, rfl, rfl, rfl, rfl, hm.frame, hread, hdraw⟩

end Sys2Proof.Machine
end

section
/-! PROOFS. Memory in its canonical form, inside host memory: every step keeps it so. -/

namespace Sys2Proof.Machine

/-! ### What keeps memory canonical and inside (20_memory.md R70, R72) -/

/-- Memory that is canonical where it was, with no new cell outside host memory. -/
theorem State.MemInv.of_cells {s t : State} (h : s.MemInv) (hp : t.par = s.par)
    (hw : Memory.wf s.mem = true → Memory.wf t.mem = true)
    (hc : ∀ c ∈ t.mem, c.1 < s.par.memSize ∨ c ∈ s.mem) : t.MemInv where
  canonical := hw h.canonical
  inside c hm := by
    rw [hp]
    exact (hc c hm).elim id (h.inside c)

/-- The form speaks of parameters and memory alone. -/
theorem State.MemInv.congr {s t : State} (h : s.MemInv) (hp : t.par = s.par) (hm : t.mem = s.mem) : t.MemInv :=
  h.of_cells hp (by rw [hm]; exact id) (by rw [hm]; exact fun _ => .inr)

/-- Passing time, in which only the host writes, keeps the form. -/
theorem State.MemInv.elapsed {s t : State} {e : Env} (h : s.MemInv) (hp : t.par = s.par)
    (he : Elapsed s.par s.env s.mem e t.mem) : t.MemInv := h.of_cells hp he.canonical he.cells

theorem hostWrite_memInv {s : State} (h : s.MemInv) (a : Nat) (v : Byte) : (s.hostWrite a v).MemInv := by
  refine h.of_cells (hostWrite_par s a v) ?_ ?_ <;> rw [hostWrite_mem] <;> split
  · exact write_wf _ _ _
  · exact id
  · rename_i ha
    exact fun c hc => (mem_write hc).imp_left fun he => by rw [he]; exact ha
  · exact fun c => .inr

/-! ### The requests -/

theorem admitIdle_mem {s t : State} {fits : Bool} {ms : List Micro} (h : s.admitIdle fits ms = .next t) :
    t.mem = s.mem := by
  rcases admitIdle_cases s fits ms with ⟨-, -, he⟩ | ⟨c, -, he⟩ | ⟨-, he⟩
  · obtain rfl := Host.Outcome.next.inj (he.symm.trans h)
    rfl
  · obtain rfl := Host.Outcome.next.inj (he.symm.trans h)
    rfl
  · cases he.symm.trans h

/-- Taking a protocol request writes no memory (45_protocol_ops.md R290). -/
theorem exec_protocolRequest_mem {i : Instr} {s t : State} (hi : isProtocolRequest i = true)
    (h : exec i s = .next t) : t.mem = s.mem := by
  by_cases hn : needsIdle i = true
  · obtain ⟨fits, ms, he, -⟩ := exec_needsIdle (s := s) hn
    exact admitIdle_mem (he.symm.trans h)
  · obtain rfl : i = .init := by
      cases i with
      | init => rfl
      | _ => exact absurd hi hn
    obtain rfl := Host.Outcome.next.inj h
    rfl

/-- The configuration requests and WINDOW_CALC write no memory (40_canvas_config.md R165, 43_windowing.md R236). -/
theorem exec_configRequest_mem {i : Instr} (hi : isCanvasRequest i = true) (hp : isPixelRequest i = false)
    (s : State) : ∃ t, exec i s = .next t ∧ t.mem = s.mem := by
  cases i <;> try cases hi
  case construct color width height rot hasBuffer base =>
    simp only [exec, execConstruct]
    split <;> exact ⟨_, rfl, rfl⟩
  case setBuffer base => exact ⟨_, rfl, rfl⟩
  case setRotation rot =>
    simp only [exec, execSetRotation]
    split <;> exact ⟨_, rfl, rfl⟩
  case setMirror mode =>
    simp only [exec, execSetMirror]
    split <;> exact ⟨_, rfl, rfl⟩
  case setDensity scale =>
    simp only [exec, execSetDensity]
    split <;> exact ⟨_, rfl, rfl⟩
  case windowCalc x y w h => exact ⟨_, rfl, rfl⟩
  all_goals cases hp

/-- A request keeps the form: only a pixel request writes, and that inside host memory. -/
theorem exec_decoded_memInv {w : ReqWord} {i : Instr} {s t : State} (hi : decodeRequest w = .ok i)
    (h : exec i s = .next t) (hs : s.MemInv) : t.MemInv := by
  have hpar : t.par = s.par := (requestStep_grows (exec_decoded hi h)).par
  cases hp : isPixelRequest i with
  | true =>
    obtain ⟨v, m, t', ht', he, hm, -⟩ := exec_pixelRequest hp s
    obtain rfl := Host.Outcome.next.inj (ht'.symm.trans h)
    exact hs.of_cells hpar (he.mem ▸ hm.canonical) (he.mem ▸ hm.cells)
  | false =>
    rcases decodeRequest_kind hi with hc | hq
    · obtain ⟨t', ht', hm⟩ := exec_configRequest_mem hc hp s
      obtain rfl := Host.Outcome.next.inj (ht'.symm.trans h)
      exact hs.congr hpar hm
    · exact hs.congr hpar (exec_protocolRequest_mem hq h)

theorem takeRequest_memInv {s t : State} {w : ReqWord} (h : s.takeRequest w = .next t) (hs : s.MemInv) :
    t.MemInv := by
  unfold State.takeRequest at h
  split at h
  · split at h
    · rename_i i hi
      exact exec_decoded_memInv hi h (hs.congr rfl rfl)
    · obtain rfl := Host.Outcome.next.inj h
      exact hs.congr rfl rfl
  · obtain rfl := Host.Outcome.next.inj h
    exact hs

/-! ### The cases of a step -/

theorem stepIdle_memInv {s t : State} (h : s.stepIdle = .next t) (hs : s.MemInv) : t.MemInv := by
  unfold State.stepIdle at h
  split at h
  · obtain rfl := Host.Outcome.next.inj h
    exact hs
  · obtain rfl := Host.Outcome.next.inj h
    exact hs.congr rfl rfl
  · obtain rfl := Host.Outcome.next.inj h
    exact hs.congr rfl rfl
  · exact takeRequest_memInv h (hs.congr rfl rfl)
  · obtain rfl := Host.Outcome.next.inj h
    exact hostWrite_memInv (s := s.popHost) (hs.congr rfl rfl) _ _

theorem runMicro_memInv {s : State} (h : s.MemInv) (m : Micro) : (s.runMicro m).MemInv := by
  obtain ⟨hp, -, e, he⟩ := runMicro_frame s m
  exact h.elapsed hp he

/-- Settles O52, over what a step may do: block reset, a micro-action after the host's move, or a step between
requests. -/
theorem stepKeepsMemoryCanonical : Obligations.StepKeepsMemoryCanonical := by
  intro s t hs h
  have htick : s.tick.MemInv := hs.congr rfl rfl
  cases hr : s.resetAsserted with
  | true =>
    obtain rfl := Host.Outcome.next.inj ((step_of_reset hr).symm.trans h)
    exact htick.congr rfl rfl
  | false =>
    cases ha : s.sq.reqActive with
    | true =>
      have hmet : s.tick.hostMeanwhile.MemInv := htick.elapsed (hostMeanwhile_par _) (hostMeanwhile_elapsed _)
      rw [step_of_active hr ha] at h
      cases hp : s.tick.hostMeanwhile.pending with
      | nil =>
        rw [State.stepActive, hp] at h
        obtain rfl := Host.Outcome.next.inj h
        exact hmet.congr rfl rfl
      | cons m rest =>
        rw [stepActive_eq (by simpa using ha) hp] at h
        obtain rfl := Host.Outcome.next.inj h
        exact runMicro_memInv hmet m
    | false => exact stepIdle_memInv ((step_of_idle hr ha).symm.trans h) htick

/-! ### A step between requests (20_memory.md R87, 70_reset_and_hazards.md R380) -/

theorem hostWrite_eq (s : State) (a : Nat) (v : Byte) : s.hostWrite a v = { s with mem := (s.hostWrite a v).mem } := by
  unfold State.hostWrite
  split <;> rfl

theorem stepIdle_silent {s : State} (h : s.env.host = []) : s.stepIdle = .next s := by
  simp [State.stepIdle, h]

/-- A host that lets a step pass, or awaits a block that is ready, has made its move. -/
theorem stepIdle_waits {s : State} {rest : List HostAct}
    (h : s.env.host = .pass :: rest ∨ s.env.host = .await :: rest) :
    s.stepIdle = .next { s with env := { s.env with host := rest } } := by
  rcases h with h | h <;> simp [State.stepIdle, State.popHost, h]

theorem stepIdle_writes {s : State} {a : Nat} {v : Byte} {rest : List HostAct}
    (h : s.env.host = .writeMem a v :: rest) :
    s.stepIdle = .next { s with mem := (s.hostWrite a v).mem, env := { s.env with host := rest } } := by
  simp only [State.stepIdle, h]
  rw [hostWrite_eq, hostWrite_mem, hostWrite_mem, popHost_env, h]
  rfl

/-- Settles O10: one case for each move of the host, and for a write the bytes memory then reads. -/
theorem idleStepsFollowTheHost : Obligations.IdleStepsFollowTheHost := by
  intro s ha hr
  rw [step_of_idle hr ha]
  refine ⟨fun h => stepIdle_silent h, fun rest h => stepIdle_waits h, fun a v rest h => ?_⟩
  refine ⟨(s.tick.hostWrite a v).mem, stepIdle_writes h, fun c hc => ?_, fun hin => ?_, fun hout => ?_⟩
  · rw [hostWrite_read, if_neg fun hb => hc hb.2.symm]
    rfl
  · rw [hostWrite_read, if_pos ⟨hin, rfl⟩]
  · exact (hostWrite_mem s.tick a v).trans (if_neg hout)

end Sys2Proof.Machine
end

section
/-! PROOFS. Encoding: the words and the micro-actions the decoder accepts are the encodings of well-formed instructions,
and the words it accepts are those the opcode table calls legal. -/

namespace Sys2Proof.Machine

/-! ### Decode after encode (30_encoding.md R102, R110, R122) -/

/-- The word of a well-formed request decodes to it: each field reads back what was put in. -/
theorem decodeRequest_encodeRequest {i : Instr} {w : ReqWord} (hwf : i.wf = true) (h : encodeRequest i = some w) :
    decodeRequest w = .ok i := by
  cases i <;> try cases h
  case construct color width height rot hasBuffer base =>
    cases hasBuffer with
    | true => simp [decodeRequest, decodeOpcode, decodeConstruct]
    | false =>
      have hbase : base = 0 := by simpa [Instr.wf] using hwf
      simp [decodeRequest, decodeOpcode, decodeConstruct, hbase]
  all_goals simp [decodeRequest, decodeOpcode, unlessUsed]

/-- With distinct command bytes, a command byte decodes as its own command, from the micro-actions after it. -/
theorem decodeWire_byteOf {p : Params} (hd : p.cmds.distinct = true) (op : WireOp) (ms : List Micro) :
    decodeWire p (.sendCmd (p.cmds.byteOf op) :: ms) = decodeData op ms := by
  simp [decodeWire, find_byteOf hd]

/-- The micro-actions of a wire command decode to it, whatever follows them. -/
theorem decodeWire_encodeWire {p : Params} {i : Instr} (hd : p.cmds.distinct = true) (h : encodeRequest i = none)
    (rest : List Micro) : decodeWire p (encodeWire p i ++ rest) = some i := by
  cases i <;> try cases h
  case cmdSwReset => exact decodeWire_byteOf hd .swReset _
  case cmdDriverOutput => exact decodeWire_byteOf hd .driverOutput _
  case cmdDataEntry => exact decodeWire_byteOf hd .dataEntry _
  case cmdRamXRange => exact decodeWire_byteOf hd .ramXRange _
  case cmdRamYRange => exact decodeWire_byteOf hd .ramYRange _
  case cmdBorder => exact decodeWire_byteOf hd .border _
  case cmdTempSensor => exact decodeWire_byteOf hd .tempSensor _
  case cmdRamXCounter => exact decodeWire_byteOf hd .ramXCounter _
  case cmdRamYCounter => exact decodeWire_byteOf hd .ramYCounter _
  case cmdWriteRam => exact decodeWire_byteOf hd .writeRam _
  case cmdUpdCtrl2 => exact decodeWire_byteOf hd .updCtrl2 _
  case cmdMasterAct => exact decodeWire_byteOf hd .masterAct _
  case cmdDeepSleep => exact decodeWire_byteOf hd .deepSleep _

/-- Settles O1: a request by its word's fields, a wire command by its byte. -/
theorem encodedInstructionsDecode : Obligations.EncodedInstructionsDecode := by
  intro p i hd hwf
  refine ⟨?_, decodeWire_encodeWire hd⟩
  unfold encode
  cases h : encodeRequest i with
  | some w => simp [decode, decodeRequest_encodeRequest hwf h, Except.toOption]
  | none => simpa [decode] using decodeWire_encodeWire hd h []

/-! ### Encode after decode (30_encoding.md R102 to R104) -/

/-- The word at a bit of one of its fields. -/
theorem extractLsb'_bit (w : ReqWord) {o n i : Nat} (ho : o ≤ i) (hi : i < o + n) :
    (w.extractLsb' o n).getLsbD (i - o) = w.getLsbD i := by
  rw [BitVec.getLsbD_extractLsb', show o + (i - o) = i by omega]
  simp [show i - o < n by omega]

/-- Two words with the same fields are the same word (30_encoding.md R100). -/
theorem reqWord_ext {v w : ReqWord} (hop : reqOp v = reqOp w) (hk : reqK v = reqK w) (ha : reqA v = reqA w)
    (hb : reqB v = reqB w) (hc : reqC v = reqC w) (hd : reqD v = reqD w) (hp : reqP v = reqP w)
    (hz : reqZ v = reqZ w) : v = w := by
  refine BitVec.eq_of_getLsbD_eq fun i hi => ?_
  have field {o n : Nat} (h : v.extractLsb' o n = w.extractLsb' o n) (ho : o ≤ i) (hn : i < o + n) :
      v.getLsbD i = w.getLsbD i := by
    rw [← extractLsb'_bit v ho hn, h, extractLsb'_bit w ho hn]
  rcases Nat.lt_or_ge i 8 with h8 | h8
  · exact field hop (Nat.zero_le i) (by omega)
  rcases Nat.lt_or_ge i 16 with h16 | h16
  · exact field hk h8 h16
  rcases Nat.lt_or_ge i 32 with h32 | h32
  · exact field ha h16 h32
  rcases Nat.lt_or_ge i 48 with h48 | h48
  · exact field hb h32 h48
  rcases Nat.lt_or_ge i 64 with h64 | h64
  · exact field hc h48 h64
  rcases Nat.lt_or_ge i 80 with h80 | h80
  · exact field hd h64 h80
  rcases Nat.lt_or_ge i 112 with h112 | h112
  · exact field hp h80 h112
  · exact field hz h112 hi

/-- A word whose fields are known, its `Z` field zero, is the assembled word of these fields (30_encoding.md R122). -/
theorem reqWord_eq {w : ReqWord} {op k : Byte} {a b c d : Coord} {p : Addr} (hz : reqZ w = 0)
    (hop : (reqOp w).toNat = op.toNat) (hk : reqK w = k) (ha : reqA w = a) (hb : reqB w = b) (hc : reqC w = c)
    (hd : reqD w = d) (hp : reqP w = p) : reqWord op k a b c d p = w := by
  have hop : reqOp w = op := BitVec.eq_of_toNat_eq hop
  apply reqWord_ext <;> simp [*]

/-- The instruction of a decoded word is well formed and encodes as the word. -/
theorem encodeRequest_decodedWord {w : ReqWord} {i : Instr} (hz : reqZ w = 0) (h : DecodedWord w i) :
    encodeRequest i = some w ∧ i.wf = true := by
  cases h with
  | construct hop hd => exact ⟨congrArg some (reqWord_eq hz hop rfl rfl rfl rfl hd rfl), rfl⟩
  | constructDeferred hop hd hp => exact ⟨congrArg some (reqWord_eq hz hop rfl rfl rfl rfl hd hp), rfl⟩
  | setBuffer hop hk ha hb hc hd => exact ⟨congrArg some (reqWord_eq hz hop hk ha hb hc hd rfl), rfl⟩
  | setRotation hop hk hb hc hd hp => exact ⟨congrArg some (reqWord_eq hz hop hk rfl hb hc hd hp), rfl⟩
  | setMirror hop ha hb hc hd hp => exact ⟨congrArg some (reqWord_eq hz hop rfl ha hb hc hd hp), rfl⟩
  | setDensity hop ha hb hc hd hp => exact ⟨congrArg some (reqWord_eq hz hop rfl ha hb hc hd hp), rfl⟩
  | clear hop ha hb hc hd hp => exact ⟨congrArg some (reqWord_eq hz hop rfl ha hb hc hd hp), rfl⟩
  | clearArea hop hp => exact ⟨congrArg some (reqWord_eq hz hop rfl rfl rfl rfl rfl hp), rfl⟩
  | drawPixel hop hc hd hp => exact ⟨congrArg some (reqWord_eq hz hop rfl rfl rfl hc hd hp), rfl⟩
  | readPixel hop hk hc hd hp => exact ⟨congrArg some (reqWord_eq hz hop hk rfl rfl hc hd hp), rfl⟩
  | windowCalc hop hk hp => exact ⟨congrArg some (reqWord_eq hz hop hk rfl rfl rfl rfl hp), rfl⟩
  | init hop hk ha hb hc hd hp => exact ⟨congrArg some (reqWord_eq hz hop hk ha hb hc hd hp), rfl⟩
  | refreshFull hop hk ha hb hc hd => exact ⟨congrArg some (reqWord_eq hz hop hk ha hb hc hd rfl), rfl⟩
  | refreshPartial hop hk => exact ⟨congrArg some (reqWord_eq hz hop hk rfl rfl rfl rfl rfl), rfl⟩
  | refreshFast hop hk ha hb hc hd => exact ⟨congrArg some (reqWord_eq hz hop hk ha hb hc hd rfl), rfl⟩
  | deepSleep hop hk ha hb hc hd hp => exact ⟨congrArg some (reqWord_eq hz hop hk ha hb hc hd hp), rfl⟩

/-- Settles O2, over everything the decoder can accept. -/
theorem decodedWordsAreTheirEncodings : Obligations.DecodedWordsAreTheirEncodings := by
  intro w i h
  obtain ⟨hz, hw⟩ := decodeRequest_cases h
  exact encodeRequest_decodedWord hz hw

/-! ### The opcode table (30_encoding.md R102 to R105) -/

/-- A word matches a row of the opcode table if, under the row's mask, its `OP` is the row's opcode and every other field
is zero. -/
theorem matchesRow_iff (w m : ReqWord) (op : Byte) :
    w &&& m = op.setWidth 128 ↔
      reqZ w &&& m.extractLsb' 112 16 = 0 ∧ reqOp w &&& m.extractLsb' 0 8 = op ∧ reqK w &&& m.extractLsb' 8 8 = 0 ∧
      reqA w &&& m.extractLsb' 16 16 = 0 ∧ reqB w &&& m.extractLsb' 32 16 = 0 ∧ reqC w &&& m.extractLsb' 48 16 = 0 ∧
      reqD w &&& m.extractLsb' 64 16 = 0 ∧ reqP w &&& m.extractLsb' 80 32 = 0 := by
  have hrow : op.setWidth 128 = reqWord op 0 0 0 0 0 0 := by simp [reqWord]
  have hmask {o n : Nat} : (w &&& m).extractLsb' o n = w.extractLsb' o n &&& m.extractLsb' o n :=
    BitVec.extractLsb'_and
  rw [hrow]
  constructor
  · intro h
    refine ⟨?_, ?_, ?_, ?_, ?_, ?_, ?_, ?_⟩
    · exact hmask.symm.trans ((congrArg reqZ h).trans (reqZ_reqWord ..))
    · exact hmask.symm.trans ((congrArg reqOp h).trans (reqOp_reqWord ..))
    · exact hmask.symm.trans ((congrArg reqK h).trans (reqK_reqWord ..))
    · exact hmask.symm.trans ((congrArg reqA h).trans (reqA_reqWord ..))
    · exact hmask.symm.trans ((congrArg reqB h).trans (reqB_reqWord ..))
    · exact hmask.symm.trans ((congrArg reqC h).trans (reqC_reqWord ..))
    · exact hmask.symm.trans ((congrArg reqD h).trans (reqD_reqWord ..))
    · exact hmask.symm.trans ((congrArg reqP h).trans (reqP_reqWord ..))
  · rintro ⟨hz, hop, hk, ha, hb, hc, hd, hp⟩
    exact (reqWord_eq (hmask.trans hz) (congrArg BitVec.toNat (hmask.trans hop)) (hmask.trans hk) (hmask.trans ha)
      (hmask.trans hb) (hmask.trans hc) (hmask.trans hd) (hmask.trans hp)).symm

/-- A mask that covers a field keeps it. -/
theorem and_fullMask {n : Nat} (x : BitVec n) : x &&& BitVec.ofNat n (2 ^ n - 1) = x := by
  rw [show BitVec.ofNat n (2 ^ n - 1) = BitVec.allOnes n from BitVec.eq_of_toNat_eq (by simp), BitVec.and_allOnes]

/-- A field that is zero but for its lowest bit is that bit. -/
theorem and_upperMask_iff (d : Coord) : d &&& 0xFFFE#16 = 0#16 ↔ d = 0#16 ∨ d = 1#16 := by
  constructor
  · intro h
    have hlow : d = d &&& 1#16 := by
      calc d = (d &&& 0xFFFE#16) ||| (d &&& 1#16) := by
            rw [← BitVec.and_or_distrib_left]
            exact (and_fullMask d).symm
        _ = d &&& 1#16 := by rw [h, BitVec.zero_or]
    rw [hlow, BitVec.and_one_eq_setWidth_ofBool_getLsbD]
    cases d.getLsbD 0 <;> decide
  · rintro (rfl | rfl) <;> decide

/-- The flags of `CONSTRUCT` by its fields (30_encoding.md R104 (d)). -/
theorem constructFlags_iff (w : ReqWord) :
    (reqD w &&& 0xFFFE#16 = 0#16 ∧ (w[64] = false → w.extractLsb' 80 32 = 0#32)) ↔
      reqD w = 1 ∨ (reqD w = 0 ∧ reqP w = 0) := by
  have hbit : w[64] = (reqD w).getLsbD 0 := by simp [reqD]
  rw [and_upperMask_iff, hbit]
  constructor
  · rintro ⟨hd | hd, hp⟩
    · exact .inr ⟨hd, hp (by rw [hd]; rfl)⟩
    · exact .inl hd
  · rintro (hd | ⟨hd, hp⟩)
    · exact ⟨.inr hd, fun h => by rw [hd] at h; cases h⟩
    · exact ⟨.inl hd, fun _ => hp⟩

/-- The legal words by their fields: the rows of 30_encoding.md R102 with the fields R104 wants zero. -/
theorem legalWord_iff (w : ReqWord) : legalWord w ↔ reqZ w = 0 ∧
    (((reqOp w).toNat = 0x01 ∧ (reqD w = 1 ∨ (reqD w = 0 ∧ reqP w = 0))) ∨
     ((reqOp w).toNat = 0x02 ∧ reqK w = 0 ∧ reqA w = 0 ∧ reqB w = 0 ∧ reqC w = 0 ∧ reqD w = 0) ∨
     ((reqOp w).toNat = 0x03 ∧ reqK w = 0 ∧ reqB w = 0 ∧ reqC w = 0 ∧ reqD w = 0 ∧ reqP w = 0) ∨
     ((reqOp w).toNat = 0x04 ∧ reqA w = 0 ∧ reqB w = 0 ∧ reqC w = 0 ∧ reqD w = 0 ∧ reqP w = 0) ∨
     ((reqOp w).toNat = 0x05 ∧ reqA w = 0 ∧ reqB w = 0 ∧ reqC w = 0 ∧ reqD w = 0 ∧ reqP w = 0) ∨
     ((reqOp w).toNat = 0x06 ∧ reqA w = 0 ∧ reqB w = 0 ∧ reqC w = 0 ∧ reqD w = 0 ∧ reqP w = 0) ∨
     ((reqOp w).toNat = 0x07 ∧ reqP w = 0) ∨
     ((reqOp w).toNat = 0x08 ∧ reqC w = 0 ∧ reqD w = 0 ∧ reqP w = 0) ∨
     ((reqOp w).toNat = 0x09 ∧ reqK w = 0 ∧ reqC w = 0 ∧ reqD w = 0 ∧ reqP w = 0) ∨
     ((reqOp w).toNat = 0x10 ∧ reqK w = 0 ∧ reqP w = 0) ∨
     ((reqOp w).toNat = 0x20 ∧ reqK w = 0 ∧ reqA w = 0 ∧ reqB w = 0 ∧ reqC w = 0 ∧ reqD w = 0 ∧ reqP w = 0) ∨
     ((reqOp w).toNat = 0x21 ∧ reqK w = 0 ∧ reqA w = 0 ∧ reqB w = 0 ∧ reqC w = 0 ∧ reqD w = 0) ∨
     ((reqOp w).toNat = 0x22 ∧ reqK w = 0) ∨
     ((reqOp w).toNat = 0x23 ∧ reqK w = 0 ∧ reqA w = 0 ∧ reqB w = 0 ∧ reqC w = 0 ∧ reqD w = 0) ∨
     ((reqOp w).toNat = 0x24 ∧ reqK w = 0 ∧ reqA w = 0 ∧ reqB w = 0 ∧ reqC w = 0 ∧ reqD w = 0 ∧ reqP w = 0)) := by
  have full8 (x : Byte) : x &&& 0xFF#8 = x := and_fullMask x
  have full16 (x : Coord) : x &&& 0xFFFF#16 = x := and_fullMask x
  have full32 (x : Addr) : x &&& 0xFFFFFFFF#32 = x := and_fullMask x
  have hop (n : Nat) (hn : n < 256) : reqOp w = BitVec.ofNat 8 n ↔ (reqOp w).toNat = n := by
    rw [← BitVec.toNat_inj, BitVec.toNat_ofNat, Nat.mod_eq_of_lt hn]
  simp [legalWord, requestRows, matchesRow_iff, full8, full16, full32, hop, and_assoc, ← and_or_left, constructFlags_iff]


theorem requestOpcode_encodeRequest {i : Instr} {w : ReqWord} (h : encodeRequest i = some w) :
    requestOpcode i = some (reqOp w) := by
  cases i <;> cases h
  all_goals simp [requestOpcode]

/-- A word decodes exactly if its fields are those of an instruction. -/
theorem decodeRequest_ok_iff {w : ReqWord} {i : Instr} :
    decodeRequest w = .ok i ↔ reqZ w = 0 ∧ DecodedWord w i := by
  refine ⟨decodeRequest_cases, fun ⟨hz, h⟩ => ?_⟩
  obtain ⟨he, hwf⟩ := encodeRequest_decodedWord hz h
  exact decodeRequest_encodeRequest hwf he

theorem legalWord_of_decodes {w : ReqWord} {i : Instr} (h : decodeRequest w = .ok i) : legalWord w := by
  obtain ⟨hz, hw⟩ := decodeRequest_cases h
  rw [legalWord_iff]
  cases hw
  all_goals simp [*]

theorem decodes_of_legalWord {w : ReqWord} (h : legalWord w) : ∃ i, decodeRequest w = .ok i := by
  obtain ⟨hz, hrow⟩ := (legalWord_iff w).1 h
  have decodes {i : Instr} (hw : DecodedWord w i) : ∃ i, decodeRequest w = .ok i :=
    ⟨i, decodeRequest_ok_iff.2 ⟨hz, hw⟩⟩
  rcases hrow with ⟨hop, hd | ⟨hd, hp⟩⟩ | ⟨hop, hk, ha, hb, hc, hd⟩ | ⟨hop, hk, hb, hc, hd, hp⟩ |
    ⟨hop, ha, hb, hc, hd, hp⟩ | ⟨hop, ha, hb, hc, hd, hp⟩ | ⟨hop, ha, hb, hc, hd, hp⟩ | ⟨hop, hp⟩ |
    ⟨hop, hc, hd, hp⟩ | ⟨hop, hk, hc, hd, hp⟩ | ⟨hop, hk, hp⟩ | ⟨hop, hk, ha, hb, hc, hd, hp⟩ |
    ⟨hop, hk, ha, hb, hc, hd⟩ | ⟨hop, hk⟩ | ⟨hop, hk, ha, hb, hc, hd⟩ | ⟨hop, hk, ha, hb, hc, hd, hp⟩
  · exact decodes (.construct hop hd)
  · exact decodes (.constructDeferred hop hd hp)
  · exact decodes (.setBuffer hop hk ha hb hc hd)
  · exact decodes (.setRotation hop hk hb hc hd hp)
  · exact decodes (.setMirror hop ha hb hc hd hp)
  · exact decodes (.setDensity hop ha hb hc hd hp)
  · exact decodes (.clear hop ha hb hc hd hp)
  · exact decodes (.clearArea hop hp)
  · exact decodes (.drawPixel hop hc hd hp)
  · exact decodes (.readPixel hop hk hc hd hp)
  · exact decodes (.windowCalc hop hk hp)
  · exact decodes (.init hop hk ha hb hc hd hp)
  · exact decodes (.refreshFull hop hk ha hb hc hd)
  · exact decodes (.refreshPartial hop hk)
  · exact decodes (.refreshFast hop hk ha hb hc hd)
  · exact decodes (.deepSleep hop hk ha hb hc hd hp)

/-- A word that is not legal is rejected (30_encoding.md R104, R105). -/
theorem decodeRequest_illegal {w : ReqWord} (h : ¬ legalWord w) : ∃ e, decodeRequest w = .error e := by
  cases hd : decodeRequest w with
  | ok i => exact absurd (legalWord_of_decodes hd) h
  | error e => exact ⟨e, rfl⟩

/-- Settles O3: by the fields of a word, its row of the opcode table and its instruction are the same. -/
theorem everyWordIsLegalOrRejected : Obligations.EveryWordIsLegalOrRejected := by
  intro w
  by_cases h : legalWord w
  · obtain ⟨i, hi⟩ := decodes_of_legalWord h
    exact .inl ⟨h, i, hi, requestOpcode_encodeRequest (decodedWordsAreTheirEncodings w i hi).1⟩
  · exact .inr ⟨h, decodeRequest_illegal h⟩

end Sys2Proof.Machine
end

section
/-! PROOFS. The assembler's words, the sample words, and what the block does with an illegal word. -/

namespace Sys2Proof.Machine

/-! ### The assembler (30_encoding.md R120 to R122) -/

/-- An instruction with a request word that decodes back to it. -/
def HasWord (i : Instr) : Prop := ∃ w, encodeRequest i = some w ∧ decodeRequest w = .ok i

/-- An absent buffer's operand is written as zero. -/
theorem operand_absent {buf : Option Nat} {base : Addr} (h : operand 32 (buf.getD 0) = some base) :
    (buf.isSome || base == 0) = true := by
  cases buf with
  | none =>
    obtain rfl := Option.some.inj h
    rfl
  | some b => rfl

/-- Every request a line stands for has a word. -/
theorem requests_hasWord {p : Params} {l : AsmLine} {is : List Instr} (h : l.requests p = some is) :
    ∀ i ∈ is, HasWord i := by
  have one {i : Instr} {w : ReqWord} (he : encodeRequest i = some w) (hwf : i.wf = true) : ∀ j ∈ [i], HasWord j :=
    List.forall_mem_singleton.2 ⟨w, he, decodeRequest_encodeRequest hwf he⟩
  cases l
  all_goals
    simp only [AsmLine.requests, Option.bind_eq_bind, Option.bind_eq_some_iff, Option.pure_def, Option.some.injEq] at h
  case construct =>
    obtain ⟨base, hbase, _, -, _, -, _, -, _, -, rfl⟩ := h
    exact one rfl (operand_absent hbase)
  case setBuffer | setRotation | setMirror | setDensity | clear | refreshFull | refreshFast =>
    obtain ⟨_, -, rfl⟩ := h
    exact one rfl rfl
  case readPixel | pset | pclr | windowFull =>
    obtain ⟨_, -, _, -, rfl⟩ := h
    exact one rfl rfl
  case drawPixel =>
    obtain ⟨_, -, _, -, _, -, rfl⟩ := h
    exact one rfl rfl
  case windowCalc =>
    obtain ⟨_, -, _, -, _, -, _, -, rfl⟩ := h
    exact one rfl rfl
  case clearArea | refreshPartial =>
    obtain ⟨_, -, _, -, _, -, _, -, _, -, rfl⟩ := h
    exact one rfl rfl
  case init | deepSleep | rewake =>
    subst h
    exact one rfl rfl
  case showImage =>
    obtain ⟨_, -, rfl⟩ := h
    exact List.forall_mem_cons.2 ⟨one rfl rfl _ List.mem_cons_self, one rfl rfl⟩

/-- The words of requests decode to these requests, in order. -/
theorem decode_words {is : List Instr} (h : ∀ i ∈ is, HasWord i) :
    (is.filterMap encodeRequest).map (fun w => (decodeRequest w).toOption) = is.map some := by
  induction is with
  | nil => rfl
  | cons i is ih =>
    obtain ⟨⟨w, he, hd⟩, his⟩ := List.forall_mem_cons.1 h
    rw [List.filterMap_cons_some he, List.map_cons, List.map_cons, hd, ih his]
    rfl

/-- Settles O5: every request of a line has a word, and the words keep their order. -/
theorem assembledWordsDecode : Obligations.AssembledWordsDecode := by
  intro p l is h
  exact ⟨is.filterMap encodeRequest, by rw [AsmLine.assemble, h]; rfl, decode_words (requests_hasWord h)⟩

/-- Settles O4: the decoder's answer to each fixed word. -/
theorem sampleWordsDecode : Obligations.SampleWordsDecode := by
  unfold Obligations.SampleWordsDecode
  decide

/-! ### An illegal word (30_encoding.md R104, 60_exceptions.md R345, R347) -/

/-- A block that is ready takes the word the host issues. -/
theorem step_issue {s : State} {w : ReqWord} {rest : List HostAct} (hr : s.Ready) (hh : s.env.host = .issue w :: rest) :
    step s = s.tick.popHost.takeRequest w := by
  rw [step_of_idle hr.noReset hr.idle, State.stepIdle, tick_env, hh]

/-- A block that is ready ends the request of an illegal word in `IllegalRequest`. -/
theorem takeRequest_illegal {s : State} {w : ReqWord} {e : Illegal} (ha : s.accepts = true)
    (hw : decodeRequest w = .error e) : s.takeRequest w = .next ((s.latch w).raiseFault .illegalRequest) := by
  rw [State.takeRequest, if_pos ha, hw]

/-- Settles O8: an illegal word is rejected, and rejecting it raises the fault. -/
theorem illegalWordFaults : Obligations.IllegalWordFaults := by
  intro s w rest hr hh hw
  obtain ⟨e, he⟩ := decodeRequest_illegal hw
  have ha : s.tick.popHost.accepts = true := by simp [State.accepts, hr.idle, hr.noFault, hr.running]
  rw [step_issue hr hh, takeRequest_illegal ha he]
  simp [State.raiseFault, State.latch, State.popHost, State.tick, Sequencer.ended, hh]

end Sys2Proof.Machine
end

section
/-! PROOFS. The wire commands: where one is placed, and what it and its data put on the wire. -/

namespace Sys2Proof.Machine

/-! ### Placing a wire command (30_encoding.md R110; log 9) -/

/-- The meaning of a wire command: its micro-actions are placed at `MPC`, and its command byte is sent. -/
theorem exec_wire {s : State} {i : Instr} {b : Byte} (h : commandByte s.par.cmds i = some b) :
    exec i s = .next ((s.placeWire (.sendCmd b :: commandRest i)).runMicro (.sendCmd b)) := by
  cases i <;> cases h
  all_goals rfl

/-- Placed micro-actions stand at `MPC`, before what was there after them. -/
theorem placeWire_pending {s : State} (h : s.sq.mpc ≤ s.sq.seq.length) (ms : List Micro) :
    (s.placeWire ms).pending = ms ++ s.sq.seq.drop (s.sq.mpc + ms.length) := by
  rw [State.pending, placeWire_sq, List.append_assoc]
  exact List.drop_left' (List.length_take_of_le h)

/-- Settles O51: placing a command a second time changes nothing. -/
theorem wireCommandsArePlaced : Obligations.WireCommandsArePlaced := by
  intro s i b hb hlen placed
  have hp := placeWire_pending hlen (.sendCmd b :: commandRest i)
  refine ⟨?_, ⟨_, hp⟩, fun ha ⟨rest, hrest⟩ => placeWire_fetched ha hrest⟩
  rw [exec_wire hb, exec_wire (s := placed) hb, placeWire_fetched (s := placed) rfl hp]

/-! ### What a wire command puts on the wire (30_encoding.md R110, R111, 44_wire_commands.md R262, R265) -/

/-- What follows a command byte: the stream of `CMD_WRITE_RAM`, or the data bytes one by one. -/
theorem commandRest_cases (i : Instr) :
    (∃ q n, i = .cmdWriteRam q n) ∨ ∀ m, commandRest i = (commandData m i).map .sendData := by
  cases i
  case cmdWriteRam q n => exact .inl ⟨q, n, rfl⟩
  all_goals exact .inr fun _ => rfl

theorem sendData_events (m : Memory) (ds : List Byte) :
    (ds.map Micro.sendData).flatMap (microEvents m) = ds.map .data := by
  induction ds with
  | nil => rfl
  | cons d ds ih => rw [List.map_cons, List.flatMap_cons, ih]; rfl

theorem sendData_sends (ds : List Byte) : ((ds.map Micro.sendData).map microSends).sum = ds.length := by
  induction ds with
  | nil => rfl
  | cons d ds ih => rw [List.map_cons, List.map_cons, List.sum_cons, ih, List.length_cons, Nat.add_comm]; rfl

theorem sendData_status (st : Status) (ds : List Byte) : (ds.map Micro.sendData).foldl microStatus st = st := by
  induction ds with
  | nil => rfl
  | cons d ds ih => exact ih

/-- A wire command's data are plain sends of its data bytes, if its stream stays in memory. -/
theorem commandRest_plain {p : Params} {i : Instr} (m : Memory) (st : Status)
    (hfit : ∀ q n, i = .cmdWriteRam q n → n = 0 ∨ q.toNat + n ≤ p.memSize) :
    (commandRest i).all (microPlain p) = true ∧
    (commandRest i).flatMap (microEvents m) = (commandData m i).map .data ∧
    ((commandRest i).map microSends).sum = (commandData m i).length ∧
    (commandRest i).foldl microStatus st = st := by
  rcases commandRest_cases i with ⟨q, n, rfl⟩ | h
  · have hf := (streamFits_iff p q n).2 (hfit q n rfl)
    simp [commandRest, commandData, microPlain, microEvents, microSends, microStatus, imageBytes, hf]
  · rw [h m]
    exact ⟨by simp [microPlain], sendData_events m _, sendData_sends _, sendData_status st _⟩

/-- A stretch of plain micro-actions: it leaves the rest of the sequence to run or, where nothing is left, ends the
request with the result of its timed wait (10_state.md R37, 45_protocol_ops.md R293). -/
theorem run_plain_rest {s : State} {m : Micro} {rest : List Micro} {xs : List Bool} (ms : List Micro) (hr : s.NoReset)
    (hh : s.HostWaits) (ha : s.sq.reqActive = true) (hp : s.pending = m :: (ms ++ rest))
    (hm : (m :: ms).all (microPlain s.par) = true)
    (hx : s.env.xferIn = List.replicate ((m :: ms).map microSends).sum true ++ xs) :
    ∃ t st, runSteps (ms.length + 1) s = .next t ∧ Moved s t ((m :: ms).flatMap (microEvents s.mem)) st ∧
      SentOnly s t xs ∧
      (rest ≠ [] → t.pending = rest ∧ t.sq.reqActive = true ∧ st = (m :: ms).foldl microStatus s.st) ∧
      (rest = [] → t.sq.reqActive = false ∧ st = { (m :: ms).foldl microStatus s.st with result := s.sq.wr }) := by
  induction ms generalizing s m with
  | nil =>
    have hplain : microPlain s.par m = true := by simpa using hm
    have hsends : s.env.xferIn = List.replicate (microSends m) true ++ xs := by simpa using hx
    cases rest with
    | nil =>
      obtain ⟨t, hstep, hmoved, hsent, hend, -, -⟩ := step_plain_last hr hh ha hp hplain hsends
      refine ⟨t, _, runSteps_succ 0 hstep, by simpa using hmoved, hsent, fun h => absurd rfl h, fun _ => ⟨hend, rfl⟩⟩
    | cons m' rest =>
      obtain ⟨t, hstep, hmoved, hsent, hpend, hact, -, -⟩ := step_plain hr hh ha hp hplain hsends
      exact ⟨t, _, runSteps_succ 0 hstep, by simpa using hmoved, hsent, fun _ => ⟨hpend, hact, rfl⟩,
        fun h => by cases h⟩
  | cons m' ms ih =>
    obtain ⟨hplain, hms⟩ := Bool.and_eq_true_iff.1 (List.all_cons ▸ hm)
    have hsends : s.env.xferIn = List.replicate (microSends m) true ++
        (List.replicate ((m' :: ms).map microSends).sum true ++ xs) := by
      rw [hx, List.map_cons, List.sum_cons, List.replicate_add, List.append_assoc]
    obtain ⟨u, hstep, hmoved, hsent, hpend, hact, hwr, -⟩ := step_plain hr hh ha hp hplain hsends
    obtain ⟨t, st, hrun, hmoved', hsent', hmore, hlast⟩ :=
      ih hmoved.noReset (hmoved.waits hh) hact hpend (by rw [hmoved.par]; exact hms) hsent.xferIn
    rw [hmoved.mem] at hmoved'
    rw [hmoved.st] at hmore hlast
    rw [hwr] at hlast
    exact ⟨t, st, (runSteps_succ _ hstep).trans hrun, hmoved.trans hmoved', hsent.trans hsent', hmore, hlast⟩

/-- `s` one step earlier, as far as block reset goes: no reset comes at that step. -/
def State.untick (s : State) : State := { s with env := { s.env with resetIn := false :: s.env.resetIn } }

theorem tick_untick (s : State) : s.untick.tick = s := rfl

theorem untick_noReset {s : State} (h : s.NoReset) : s.untick.NoReset :=
  List.forall_mem_cons.2 ⟨rfl, h⟩

/-- Executing a wire command that stands at `MPC` is a step of the block, its block-reset level apart. -/
theorem exec_wire_step {s : State} {i : Instr} {b : Byte} {rest : List Micro}
    (hb : commandByte s.par.cmds i = some b) (hr : s.NoReset) (hh : s.HostWaits) (ha : s.sq.reqActive = true)
    (hp : s.pending = .sendCmd b :: (commandRest i ++ rest)) : ∃ u, exec i s = .next u ∧ step s.untick = .next u := by
  refine ⟨s.runMicro (.sendCmd b), ?_, ?_⟩
  · rw [exec_wire hb, placeWire_fetched ha hp]
  · rw [step_micro (s := s.untick) (untick_noReset hr) hh ha hp, tick_untick]

/-- Settles O50: the command and its data are a stretch of plain micro-actions whose events are the wire's. -/
theorem wireCommandsSendTheirBytes : Obligations.WireCommandsSendTheirBytes := by
  intro s i b rest xs hb hr hh ha hp hfit hx
  obtain ⟨hplain, hevents, hsends, hstatus⟩ := commandRest_plain s.mem s.st hfit
  obtain ⟨u, hexec, hstep⟩ := exec_wire_step hb hr hh ha hp
  obtain ⟨t, st, hrun, hmoved, hsent, hmore, hlast⟩ :=
    run_plain_rest (s := s.untick) (commandRest i) (untick_noReset hr) hh ha hp hplain (xs := xs)
      (by rw [List.map_cons, List.sum_cons, hsends]; exact hx)
  have hst : (Micro.sendCmd b :: commandRest i).foldl microStatus s.st = s.st := hstatus
  have hev : (Micro.sendCmd b :: commandRest i).flatMap (microEvents s.mem) = wireEvents b (commandData s.mem i) := by
    rw [List.flatMap_cons, hevents]
    rfl
  refine ⟨u, t, hexec, (runSteps_succ _ hstep).symm.trans hrun, hev ▸ hmoved.wt, hmoved.el, hmoved.cv, hmoved.mem,
    hmoved.par, hsent.xferIn, fun h => ?_, fun h => ?_⟩
  · obtain ⟨hpend, hact, rfl⟩ := hmore h
    exact ⟨hpend, hact, hmoved.st.trans hst⟩
  · obtain ⟨hend, rfl⟩ := hlast h
    exact ⟨hend, by rw [hmoved.st]; exact congrArg (fun st => { st with result := s.sq.wr }) hst⟩

end Sys2Proof.Machine
end

section
/-! PROOFS. Progress: from a state of the protocol invariant a step always answers a next state (30_encoding.md R105,
45_protocol_ops.md R291, 44_wire_commands.md R265). -/

namespace Sys2Proof.Machine

/-- From a display state the block rests in, a protocol request always answers a next state. -/
theorem exec_protocolRequest_next {i : Instr} {s : State} (hi : isProtocolRequest i = true)
    (hd : settled s.st.dstate = true) : ∃ t, exec i s = .next t := by
  have idle (h : needsIdle i = true) : ∃ t, exec i s = .next t := by
    obtain ⟨fits, ms, he, -, -⟩ := exec_needsIdle (s := s) h
    rw [he]
    rcases admitIdle_cases s fits ms with ⟨-, -, h⟩ | ⟨c, -, h⟩ | ⟨hns, -⟩
    · exact ⟨_, h⟩
    · exact ⟨_, h⟩
    · exact absurd hd (by simp [hns])
  cases i
  case init => exact ⟨_, rfl⟩
  all_goals exact idle hi

/-- Whatever the word, a block at rest takes it, rejects it or discards it. -/
theorem takeRequest_next {s : State} (hrest : s.st.halted = false → settled s.st.dstate = true) (w : ReqWord) :
    ∃ t, s.takeRequest w = .next t := by
  unfold State.takeRequest
  split
  · rename_i hacc
    simp only [State.accepts, Bool.and_eq_true, Bool.not_eq_true', beq_iff_eq] at hacc
    obtain ⟨-, hh⟩ := hacc
    cases hw : decodeRequest w with
    | error e => exact ⟨_, rfl⟩
    | ok i =>
      rcases decodeRequest_kind hw with hc | hp
      · obtain ⟨t, ht, -⟩ := exec_canvasRequest hc (s.latch w)
        exact ⟨t, ht⟩
      · exact exec_protocolRequest_next hp (hrest hh)
  · exact ⟨s, rfl⟩

theorem stepIdle_next {s : State} (hrest : s.st.halted = false → settled s.st.dstate = true) :
    ∃ t, s.stepIdle = .next t := by
  unfold State.stepIdle
  split
  · exact ⟨_, rfl⟩
  · exact ⟨_, rfl⟩
  · exact ⟨_, rfl⟩
  · exact takeRequest_next (s := s.popHost) hrest _
  · exact ⟨_, rfl⟩

/-- A micro-action that may run raises no fault. -/
theorem microStep_fault {s t : State} {m : Micro} (h : MicroStep s m t) (hf : s.st.fault = .none)
    (hm : microOk s.par s.st.dstate m = true) : t.st.fault = .none := by
  cases h with
  | stays t0 es e hw hes he => exact hf
  | completes mb wr es ls e mem hmb hwr hes he => simpa using hf
  | fails k b es e mem hsend hes he => exact hf
  | overruns q n hq hover =>
    subst hq
    simp [microOk, hover] at hm

/-- Settles O56: by block reset, an executing request, or the host's action on a block at rest. -/
theorem stepNeverStops : Obligations.StepNeverStops := by
  intro s hi
  cases hr : s.resetAsserted with
  | true => exact ⟨_, step_of_reset hr, fun _ => rfl⟩
  | false =>
    cases ha : s.sq.reqActive with
    | true =>
      obtain ⟨hf, -, hne, hok⟩ := hi.runs ha
      obtain ⟨m, rest, hp⟩ := List.exists_cons_of_ne_nil hne
      obtain ⟨hm, -⟩ := seqOk_cons.1 (hp ▸ hok)
      refine ⟨_, step_micro_host hr ha hp, fun _ => microStep_fault (runMicro_cases _ m) ?_ ?_⟩
      · simpa using hf
      · simpa using hm
    | false =>
      obtain ⟨t, ht⟩ := stepIdle_next (s := s.tick) fun hh => (hi.rests ha hh).1
      exact ⟨t, (step_of_idle hr ha).trans ht, fun h => by cases h⟩

end Sys2Proof.Machine
end

section
/-! PROOFS. The canvas configuration requests, each in its cases. -/

namespace Sys2Proof.Machine

/-! ### The configuration requests by their operands (40_canvas_config.md R140 to R160) -/

theorem exec_construct_code (s : State) (color : Byte) (width height : Coord) (r : Rotation) (hasBuffer : Bool)
    (base : Addr) :
    exec (.construct color width height r.code hasBuffer base) s =
      .next ({ s with cv := constructed color width height hasBuffer base r }.completed .ok) := by
  simp only [exec, execConstruct, ofDegrees_code]
  rfl

/-- The canvas `SET_ROTATION` leaves at a supported rotation: the logical dimensions follow it if they swap at all
(40_canvas_config.md R150). -/
def Canvas.rotated (cv : Canvas) (swaps : Bool) (r : Rotation) : Canvas :=
  if swaps then Canvas.logicalFromMemory { cv with rot := r } r else { cv with rot := r }

theorem exec_setRotation_code (s : State) (r : Rotation) :
    exec (.setRotation r.code) s =
      .next ({ s with cv := s.cv.rotated s.par.setrotSwapsDims r }.completed .ok) := by
  simp only [exec, execSetRotation, ofDegrees_code]
  rfl

theorem exec_setMirror_code (s : State) (m : Mirror) :
    exec (.setMirror (m.code.setWidth 8)) s = .next ({ s with cv := { s.cv with mir := m } }.completed .ok) := by
  simp only [exec, execSetMirror, ofCode_code]
  rfl

theorem exec_setDensity_code (s : State) (d : Density) :
    exec (.setDensity d.code) s = .next ({ s with cv := { s.cv with dens := d } }.completed .ok) := by
  simp only [exec, execSetDensity, ofScale_code]
  rfl

theorem exec_construct_unsupported (s : State) {rot : Coord} (h : ∀ r : Rotation, r.code ≠ rot) (color : Byte)
    (width height : Coord) (hasBuffer : Bool) (base : Addr) :
    exec (.construct color width height rot hasBuffer base) s =
      .next (State.rejectParameter { s with cv := constructed color width height hasBuffer base s.cv.rot }) := by
  simp only [exec, execConstruct, ofDegrees_none h]

theorem exec_setRotation_unsupported (s : State) {rot : Coord} (h : ∀ r : Rotation, r.code ≠ rot) :
    exec (.setRotation rot) s = .next s.rejectParameter := by
  simp only [exec, execSetRotation, ofDegrees_none h]

theorem exec_setMirror_unsupported (s : State) {mode : Byte} (h : ∀ m : Mirror, m.code.setWidth 8 ≠ mode) :
    exec (.setMirror mode) s = .next s.rejectParameter := by
  simp only [exec, execSetMirror, ofCode_none h]

theorem exec_setDensity_unsupported (s : State) {scale : Byte} (h : ∀ d : Density, d.code ≠ scale) :
    exec (.setDensity scale) s = .next s.rejectParameter := by
  simp only [exec, execSetDensity, ofScale_none h]

/-- The rotations whose logical dimensions are the memory dimensions unswapped (40_canvas_config.md R141). -/
theorem swapsDims_eq_false_iff (r : Rotation) : r.swapsDims = false ↔ r = .r0 ∨ r = .r180 := by
  cases r <;> decide

theorem swapsDims_eq_true_iff (r : Rotation) : r.swapsDims = true ↔ r = .r90 ∨ r = .r270 := by
  cases r <;> decide

/-- Settles O16: the ten registers by whether the rotation swaps the dimensions. -/
theorem construct : Obligations.Construct := by
  intro s color width height rot hasBuffer base cv
  have hcv (r : Rotation) : constructed color width height hasBuffer base r = cv r := by
    cases r <;> rfl
  constructor
  · rintro r rfl
    rw [exec_construct_code, hcv]
  · intro h
    rw [exec_construct_unsupported s h, hcv]
    rfl

/-- Settles O17: the request has one case. -/
theorem setBuffer : Obligations.SetBuffer := fun _ _ => rfl

/-- Settles O18, by the operand, the parameter `SETROT_SWAPS_DIMS` and whether the rotation swaps. -/
theorem setRotation : Obligations.SetRotation := by
  intro s rot
  refine ⟨?_, ?_, ?_, fun h => exec_setRotation_unsupported s h⟩
  · rintro r rfl hp hr
    rw [exec_setRotation_code, Canvas.rotated, if_pos hp, Canvas.logicalFromMemory, (swapsDims_eq_false_iff r).2 hr]
    rfl
  · rintro r rfl hp hr
    rw [exec_setRotation_code, Canvas.rotated, if_pos hp, Canvas.logicalFromMemory, (swapsDims_eq_true_iff r).2 hr]
    rfl
  · rintro r rfl hp
    rw [exec_setRotation_code, hp]
    rfl

/-- Settles O19, by whether the operand is a mirror code. -/
theorem setMirror : Obligations.SetMirror := by
  intro s mode
  refine ⟨?_, fun h => exec_setMirror_unsupported s h⟩
  rintro m rfl
  exact exec_setMirror_code s m

/-- Settles O20, by whether the operand is a scale id. -/
theorem setDensity : Obligations.SetDensity := by
  intro s scale
  refine ⟨?_, fun h => exec_setDensity_unsupported s h⟩
  rintro d rfl
  exact exec_setDensity_code s d

end Sys2Proof.Machine
end

section
/-! PROOFS. What a canvas request sees of the controller: nothing. With its registers replaced, each does the same. -/

namespace Sys2Proof.Machine

/-! ### The bodies of the pixel requests (40_canvas_config.md R165, 45_protocol_ops.md R333) -/

/-- The outcome of a body with `f` applied to its value where it goes through, and `g` to the state where it ends the
request. -/
def mapBody {σ : Type} (f : σ → σ) (g : State → State) : Except State σ → Except State σ
  | .ok x => .ok (f x)
  | .error t => .error (g t)

/-- A loop whose rounds commute with a change of its value commutes with it. -/
theorem forRange_mapBody {σ : Type} {f : σ → σ} {g : State → State} {round : Nat → σ → Except State σ}
    (h : ∀ i x, round i (f x) = mapBody f g (round i x)) (n a : Nat) (x : σ) :
    forRange n a round (f x) = mapBody f g (forRange n a round x) := by
  induction n generalizing a x with
  | zero => rfl
  | succ n ih =>
    simp only [forRange, h]
    cases round a x with
    | ok y => exact ih (a + 1) y
    | error t => rfl

section
variable (d : DState) (line busy : Bool)

@[simp] theorem withController_par (s : State) : (s.withController d line busy).par = s.par := rfl
@[simp] theorem withController_cv (s : State) : (s.withController d line busy).cv = s.cv := rfl
@[simp] theorem withController_transformed (s : State) (x y : Nat) :
    (s.withController d line busy).transformed x y = s.transformed x y := rfl
@[simp] theorem withController_slotAt (s : State) (xm ym : Nat) :
    (s.withController d line busy).slotAt xm ym = s.slotAt xm ym := rfl
@[simp] theorem withController_addrs7 (s : State) (xm ym : Nat) :
    (s.withController d line busy).addrs7 xm ym = s.addrs7 xm ym := rfl

theorem fill_withController (n a : Nat) (v : Byte) (s : State) :
    State.fill n a v (s.withController d line busy) = (State.fill n a v s).withController d line busy := by
  induction n generalizing a s with
  | zero => rfl
  | succ n ih => exact ih (a + 1) (s.writeMem a v)

theorem writeGroup_withController (g : Nat) (sl : D7Slot) (c : Byte) (os : List Nat) (s : State) :
    State.writeGroup g sl c os (s.withController d line busy) =
      (State.writeGroup g sl c os s).withController d line busy := by
  induction os generalizing s with
  | nil => rfl
  | cons o os ih => exact ih (s.writeMem (g + o) (newByte7 sl o c (Memory.read s.mem (g + o))))

/-- The outcome of a body made of states alone, with the controller's registers replaced. -/
abbrev bodyWithController : Except State State → Except State State :=
  mapBody (State.withController · d line busy) (State.withController · d line busy)

theorem pack2_withController (s : State) (xm ym : Nat) (c : Byte) :
    (s.withController d line busy).pack2 xm ym c = bodyWithController d line busy (s.pack2 xm ym c) := by
  unfold State.pack2
  rw [apply_ite (bodyWithController d line busy)]
  rfl

theorem pack4_withController (s : State) (xm ym : Nat) (c : Byte) :
    (s.withController d line busy).pack4 xm ym c = bodyWithController d line busy (s.pack4 xm ym c) := by
  unfold State.pack4
  rw [apply_ite (bodyWithController d line busy)]
  rfl

theorem pack7_withController (s : State) (xm ym : Nat) (c : Byte) :
    (s.withController d line busy).pack7 xm ym c = bodyWithController d line busy (s.pack7 xm ym c) := by
  simp only [State.pack7, withController_par, withController_cv, withController_slotAt, withController_addrs7,
    writeGroup_withController]
  rw [apply_ite (bodyWithController d line busy)]
  rfl

theorem pack_withController (s : State) (xm ym : Nat) (c : Byte) :
    (s.withController d line busy).pack xm ym c = bodyWithController d line busy (s.pack xm ym c) := by
  simp only [State.pack, withController_cv]
  cases s.cv.dens with
  | d2 => exact pack2_withController d line busy s xm ym c
  | d4 => exact pack4_withController d line busy s xm ym c
  | d7 => exact pack7_withController d line busy s xm ym c

theorem endBody_withController (r : Except State State) (c : ResultCode) :
    endBody (bodyWithController d line busy r) c = (endBody r c).withController d line busy := by
  cases r <;> rfl

/-- The value of CLEAR_AREA's loop with the controller's registers replaced in its state. -/
def areaWithController (a : State × ResultCode) : State × ResultCode := (a.1.withController d line busy, a.2)

theorem areaPoint_withController (color : Byte) (x y : Nat) (a : State × ResultCode) :
    areaPoint color x y (areaWithController d line busy a) =
      mapBody (areaWithController d line busy) (State.withController · d line busy) (areaPoint color x y a) := by
  simp only [areaPoint, areaWithController, withController_transformed, pack_withController]
  cases a.1.transformed x y with
  | none => rfl
  | some q =>
    dsimp only
    cases a.1.pack q.1 q.2 color <;> rfl

theorem clearBytes_withController (s : State) (f : Byte) :
    (s.withController d line busy).clearBytes f = (s.clearBytes f).withController d line busy := by
  simp only [State.clearBytes, withController_par, withController_cv, fill_withController]
  split <;> rfl

theorem clearPixels_withController (s : State) (c : Byte) :
    (s.withController d line busy).clearPixels c = (s.clearPixels c).withController d line busy := by
  have hrow (ym : Nat) := forRange_mapBody (round := fun xm (u : State) => u.pack7 xm ym c)
    (fun xm u => pack7_withController d line busy u xm ym c) s.cv.wm.toNat 0
  simp only [State.clearPixels, withController_cv, forRange_mapBody hrow, endBody_withController]

/-! ### The canvas requests with the controller's registers replaced -/

/-- The request `i` in `s` neither sees nor writes the controller's registers. -/
def IgnoresController (i : Instr) (s : State) : Prop :=
  exec i (s.withController d line busy) = mapNext (State.withController · d line busy) (exec i s)

theorem construct_ignoresController (color : Byte) (width height rot : Coord) (hasBuffer : Bool) (base : Addr)
    (s : State) : IgnoresController d line busy (.construct color width height rot hasBuffer base) s := by
  simp only [IgnoresController, exec, execConstruct]
  cases Rotation.ofDegrees rot <;> rfl

theorem setRotation_ignoresController (rot : Coord) (s : State) :
    IgnoresController d line busy (.setRotation rot) s := by
  simp only [IgnoresController, exec, execSetRotation]
  cases Rotation.ofDegrees rot <;> rfl

theorem setMirror_ignoresController (mode : Byte) (s : State) :
    IgnoresController d line busy (.setMirror mode) s := by
  simp only [IgnoresController, exec, execSetMirror]
  cases Mirror.ofCode mode <;> rfl

theorem setDensity_ignoresController (scale : Byte) (s : State) :
    IgnoresController d line busy (.setDensity scale) s := by
  simp only [IgnoresController, exec, execSetDensity]
  cases Density.ofScale scale <;> rfl

theorem clear_ignoresController (color : Byte) (s : State) : IgnoresController d line busy (.clear color) s := by
  simp only [IgnoresController, exec, execClear, withController_par, withController_cv, clearBytes_withController,
    clearPixels_withController]
  cases s.cv.valid with
  | false => rfl
  | true => cases s.cv.dens <;> rfl

theorem clearArea_ignoresController (color : Byte) (x y w h : Coord) (s : State) :
    IgnoresController d line busy (.clearArea color x y w h) s := by
  have hloop := forRange_mapBody (f := areaWithController d line busy) (g := (State.withController · d line busy))
    (fun py => forRange_mapBody (areaPoint_withController d line busy color · py) w.toNat x.toNat)
    h.toNat y.toNat (s, .ok)
  simp only [areaWithController] at hloop
  simp only [IgnoresController, exec, execClearArea, withController_cv, hloop]
  cases s.cv.valid with
  | false => rfl
  | true =>
    simp only [if_true]
    cases forRange h.toNat y.toNat
      (fun py a => forRange w.toNat x.toNat (fun px b => areaPoint color px py b) a) (s, ResultCode.ok) <;> rfl

theorem drawPixel_ignoresController (color : Byte) (x y : Coord) (s : State) :
    IgnoresController d line busy (.drawPixel color x y) s := by
  simp only [IgnoresController, exec, execDrawPixel, withController_cv, withController_transformed,
    pack_withController, endBody_withController]
  cases s.cv.valid with
  | false => rfl
  | true => cases s.transformed x.toNat y.toNat <;> rfl

theorem unpack_withController (s : State) (xm ym : Nat) :
    (s.withController d line busy).unpack xm ym =
      mapBody id (State.withController · d line busy) (s.unpack xm ym) := by
  unfold State.unpack
  rw [apply_ite (mapBody id (State.withController · d line busy))]
  rfl

theorem readPixel_ignoresController (x y : Coord) (s : State) :
    IgnoresController d line busy (.readPixel x y) s := by
  simp only [IgnoresController, exec, execReadPixel, withController_cv, withController_transformed,
    unpack_withController]
  cases s.cv.valid with
  | false => rfl
  | true =>
    cases s.transformed x.toNat y.toNat with
    | none => rfl
    | some q =>
      simp only [if_true]
      cases s.unpack q.1 q.2 <;> rfl

theorem canvasRequest_ignoresController {i : Instr} (hi : isCanvasRequest i = true) (s : State) :
    IgnoresController d line busy i s := by
  cases i <;> try cases hi
  case construct color width height rot hasBuffer base =>
    exact construct_ignoresController d line busy color width height rot hasBuffer base s
  case setBuffer base => rfl
  case setRotation rot => exact setRotation_ignoresController d line busy rot s
  case setMirror mode => exact setMirror_ignoresController d line busy mode s
  case setDensity scale => exact setDensity_ignoresController d line busy scale s
  case clear color => exact clear_ignoresController d line busy color s
  case clearArea color x y w h => exact clearArea_ignoresController d line busy color x y w h s
  case drawPixel color x y => exact drawPixel_ignoresController d line busy color x y s
  case readPixel x y => exact readPixel_ignoresController d line busy x y s
  case windowCalc x y w h => rfl

end

/-- A canvas request emits nothing and uses no input (40_canvas_config.md R165, 43_windowing.md R239). -/
theorem CanvasEnd.silent {s t : State} (h : CanvasEnd s t) : t.wt = s.wt ∧ t.env = s.env := by
  cases h with
  | finishes hw r => exact ⟨hw.wt, hw.env⟩
  | faults hw hc => exact ⟨hw.wt, hw.env⟩

/-- Settles O21, request by request; that each ends in its one step is `exec_canvasRequest`. -/
theorem canvasRequestsIgnoreTheController : Obligations.CanvasRequestsIgnoreTheController := by
  intro i s d line busy hi
  obtain ⟨t, ht, he⟩ := exec_canvasRequest hi s
  exact ⟨canvasRequest_ignoresController d line busy hi s, t, ht, he.silent⟩

end Sys2Proof.Machine
end

section
/-! PROOFS. The canvas registers in step with the rotation, and `RVAL` within its range: every step keeps them so. -/

namespace Sys2Proof.Machine

/-! ### What the two invariants depend on -/

/-- Both invariants: the canvas registers agree, and `RVAL` holds 0 to 7 (40_canvas_config.md R141, 10_state.md R39). -/
def State.RegistersInv (s : State) : Prop := s.CanvasInv ∧ s.RvalInv

/-- Of what the invariants speak of, nothing differs in `t` but that `RVAL` may have a new value within its range. -/
structure KeepsRegisters (s t : State) : Prop where
  par : t.par = s.par
  cv : t.cv = s.cv
  rval : t.st.rval = s.st.rval ∨ t.st.rval.toNat ≤ 7

theorem KeepsRegisters.registersInv {s t : State} (h : KeepsRegisters s t) (hs : s.RegistersInv) : t.RegistersInv := by
  obtain ⟨hcv, hrval⟩ := hs
  refine ⟨⟨?_, ?_⟩, ?_⟩
  · rw [h.par, h.cv]
    exact hcv.dims
  · rw [h.cv]
    exact hcv.noBuffer
  · unfold State.RvalInv
    rcases h.rval with he | hle
    · rw [he]
      exact hrval
    · exact hle

/-- The invariants speak of the parameters, the canvas registers and `RVAL` alone. -/
theorem State.RegistersInv.congr {s t : State} (hs : s.RegistersInv) (hpar : t.par = s.par) (hcv : t.cv = s.cv)
    (hrval : t.st.rval = s.st.rval) : t.RegistersInv := KeepsRegisters.registersInv ⟨hpar, hcv, .inl hrval⟩ hs

theorem hostMoved_keepsRegisters {s t : State} (h : s.HostMoved t) : KeepsRegisters s t where
  par := h.par
  cv := by rw [h]
  rval := .inl (by rw [h.st])

theorem blockReset_registersInv (s : State) : s.blockReset.RegistersInv :=
  ⟨⟨fun _ => rfl, fun _ => rfl⟩, Nat.zero_le 7⟩

/-! ### A micro-action (44_wire_commands.md R260) -/

@[simp] theorem advance_rval (s : State) : s.advance.st.rval = s.st.rval := by
  unfold State.advance; split <;> rfl

/-- A micro-action writes no canvas register and no `RVAL` (45_protocol_ops.md R333). -/
theorem microStep_keepsRegisters {s t : State} {m : Micro} (h : MicroStep s m t) : KeepsRegisters s t := by
  cases h with
  | stays t0 es e hw hes he => exact ⟨rfl, rfl, .inl rfl⟩
  | completes mb wr es ls e mem hmb hwr hes he =>
    refine ⟨by simp, by simp [State.afterMicro], .inl ?_⟩
    rw [advance_rval]
    cases m <;> rfl
  | fails k b es e mem hsend hes he => exact ⟨rfl, rfl, .inl rfl⟩
  | overruns q n hq hover => exact ⟨rfl, rfl, .inl rfl⟩

/-! ### The pixel requests and the protocol requests -/

/-- Bits per pixel are at most three, so a pixel's value is within the range of `RVAL` (42_pixel.md R190, R201). -/
theorem pixelValue_le (s : State) (xm ym : Nat) : (s.pixelValue xm ym).toNat ≤ 7 := by
  have hlt := pixelValue_lt s xm ym
  have hbits : 2 ^ s.cv.dens.bits ≤ 8 := by cases s.cv.dens <;> decide
  omega

theorem unpack_cases (s : State) (xm ym : Nat) :
    s.unpack xm ym = .ok (s.pixelValue xm ym) ∨ s.unpack xm ym = .error (s.raiseFault .bufferOverrun) := by
  unfold State.unpack
  split
  · exact .inl rfl
  · exact .inr rfl

theorem execReadPixel_keepsRegisters (x y : Coord) (s : State) :
    ∃ t, execReadPixel x y s = .next t ∧ KeepsRegisters s t := by
  unfold execReadPixel
  split
  · split
    · rename_i xm ym _
      rcases unpack_cases s xm ym with hu | hu <;> rw [hu]
      · exact ⟨_, rfl, rfl, rfl, .inr (pixelValue_le s xm ym)⟩
      · exact ⟨_, rfl, rfl, rfl, .inl rfl⟩
    · exact ⟨_, rfl, rfl, rfl, .inr (Nat.zero_le 7)⟩
  · exact ⟨_, rfl, rfl, rfl, .inl rfl⟩

/-- A pixel request writes no canvas register, and `RVAL` only READ_PIXEL, with a pixel's value or 0. -/
theorem exec_pixelRequest_keepsRegisters {i : Instr} {s t : State} (hi : isPixelRequest i = true)
    (h : exec i s = .next t) : KeepsRegisters s t := by
  by_cases hread : ∃ x y, i = .readPixel x y
  · obtain ⟨x, y, rfl⟩ := hread
    obtain ⟨t', ht', hk⟩ := execReadPixel_keepsRegisters x y s
    obtain rfl := Host.Outcome.next.inj (ht'.symm.trans h)
    exact hk
  · obtain ⟨v, m, t', ht', he, -, -, hv⟩ := exec_pixelRequest hi s
    obtain rfl := Host.Outcome.next.inj (ht'.symm.trans h)
    obtain rfl := hv fun x y hxy => hread ⟨x, y, hxy⟩
    cases he with
    | finishes el r => exact ⟨rfl, rfl, .inl rfl⟩
    | faults el c => exact ⟨rfl, rfl, .inl rfl⟩

theorem admitIdle_keepsRegisters {s t : State} {fits : Bool} {ms : List Micro}
    (h : s.admitIdle fits ms = .next t) : KeepsRegisters s t := by
  rcases admitIdle_cases s fits ms with ⟨-, -, he⟩ | ⟨c, -, he⟩ | ⟨-, he⟩
  · obtain rfl := Host.Outcome.next.inj (he.symm.trans h)
    exact ⟨rfl, rfl, .inl rfl⟩
  · obtain rfl := Host.Outcome.next.inj (he.symm.trans h)
    exact ⟨rfl, rfl, .inl rfl⟩
  · cases he.symm.trans h

/-- Taking a protocol request writes no canvas register and no `RVAL` (45_protocol_ops.md R333). -/
theorem exec_protocolRequest_keepsRegisters {i : Instr} {s t : State} (hi : isProtocolRequest i = true)
    (h : exec i s = .next t) : KeepsRegisters s t := by
  cases i <;> try cases hi
  case init =>
    obtain rfl := Host.Outcome.next.inj h
    exact ⟨rfl, rfl, .inl rfl⟩
  all_goals exact admitIdle_keepsRegisters h

/-! ### The configuration requests (40_canvas_config.md R140 to R160) -/

/-- The logical dimensions `CONSTRUCT` leaves follow the rotation it ends with (40_canvas_config.md R141). -/
theorem canvasInv_of_constructed {t : State} {color : Byte} {width height : Coord} {hasBuffer : Bool} {base : Addr}
    {r : Rotation} (h : t.cv = constructed color width height hasBuffer base r) : t.CanvasInv where
  dims _ := by simpa [h, constructed] using logicalFromMemory_dims _ r
  noBuffer hv := by
    obtain rfl : hasBuffer = false := by simpa [h, constructed] using hv
    simp [h, constructed]

/-- The logical dimensions follow a new rotation where the parameter wants it (40_canvas_config.md R150). -/
theorem canvasInv_of_rotated {s t : State} {r : Rotation} (hs : s.CanvasInv) (hp : t.par = s.par)
    (h : t.cv = s.cv.rotated s.par.setrotSwapsDims r) : t.CanvasInv := by
  rw [← hp, Canvas.rotated] at h
  split at h
  · constructor
    · intro _
      simpa [h] using logicalFromMemory_dims { s.cv with rot := r } r
    · simpa [h] using hs.noBuffer
  · rename_i hswap
    constructor
    · exact fun ht => absurd ht hswap
    · simpa [h] using hs.noBuffer

/-- The configuration requests and WINDOW_CALC keep the invariants: an unsupported operand, a mirror mode, a density and
a window leave alone what they speak of. -/
theorem exec_configRequest_registersInv {i : Instr} {s : State} (hi : isCanvasRequest i = true)
    (hp : isPixelRequest i = false) (hs : s.RegistersInv) : ∃ t, exec i s = .next t ∧ t.RegistersInv := by
  have ⟨hcanvas, hrval⟩ := hs
  cases i <;> try cases hi
  case construct color width height rot hasBuffer base =>
    simp only [exec, execConstruct]
    split
    · exact ⟨_, rfl, canvasInv_of_constructed rfl, hrval⟩
    · exact ⟨_, rfl, canvasInv_of_constructed rfl, hrval⟩
  case setBuffer base => exact ⟨_, rfl, ⟨hcanvas.dims, fun hv => by cases hv⟩, hrval⟩
  case setRotation rot =>
    simp only [exec, execSetRotation]
    split
    · exact ⟨_, rfl, canvasInv_of_rotated hcanvas rfl rfl, hrval⟩
    · exact ⟨_, rfl, hs.congr rfl rfl rfl⟩
  case setMirror mode =>
    simp only [exec, execSetMirror]
    split
    · exact ⟨_, rfl, ⟨hcanvas.dims, hcanvas.noBuffer⟩, hrval⟩
    · exact ⟨_, rfl, hs.congr rfl rfl rfl⟩
  case setDensity scale =>
    simp only [exec, execSetDensity]
    split
    · exact ⟨_, rfl, ⟨hcanvas.dims, hcanvas.noBuffer⟩, hrval⟩
    · exact ⟨_, rfl, hs.congr rfl rfl rfl⟩
  case windowCalc x y w h => exact ⟨_, rfl, hs.congr rfl rfl rfl⟩
  all_goals cases hp

/-! ### A step -/

theorem exec_decoded_registersInv {w : ReqWord} {i : Instr} {s t : State} (hi : decodeRequest w = .ok i)
    (h : exec i s = .next t) (hs : s.RegistersInv) : t.RegistersInv := by
  cases hp : isPixelRequest i with
  | true => exact (exec_pixelRequest_keepsRegisters hp h).registersInv hs
  | false =>
    rcases decodeRequest_kind hi with hc | hq
    · obtain ⟨t', ht', hinv⟩ := exec_configRequest_registersInv hc hp hs
      obtain rfl := Host.Outcome.next.inj (ht'.symm.trans h)
      exact hinv
    · exact (exec_protocolRequest_keepsRegisters hq h).registersInv hs

theorem takeRequest_registersInv {s t : State} {w : ReqWord} (h : s.takeRequest w = .next t)
    (hs : s.RegistersInv) : t.RegistersInv := by
  have hlatch : (s.latch w).RegistersInv := hs.congr rfl rfl rfl
  unfold State.takeRequest at h
  split at h
  · split at h
    · rename_i i hi
      exact exec_decoded_registersInv hi h hlatch
    · obtain rfl := Host.Outcome.next.inj h
      exact hlatch.congr rfl rfl rfl
  · obtain rfl := Host.Outcome.next.inj h
    exact hs

theorem stepIdle_registersInv {s t : State} (h : s.tick.stepIdle = .next t) (hs : s.RegistersInv) :
    t.RegistersInv := by
  have moved {u : State} (hu : s.HostMoved u) : u.RegistersInv := (hostMoved_keepsRegisters hu).registersInv hs
  unfold State.stepIdle at h
  split at h
  · obtain rfl := Host.Outcome.next.inj h
    exact moved (hostMoved_tick s)
  · obtain rfl := Host.Outcome.next.inj h
    exact moved (hostMoved_tick_popHost s)
  · obtain rfl := Host.Outcome.next.inj h
    exact moved (hostMoved_tick_popHost s)
  · exact takeRequest_registersInv h (moved (hostMoved_tick_popHost s))
  · obtain rfl := Host.Outcome.next.inj h
    exact moved (hostMoved_hostWrite (hostMoved_tick_popHost s) _ _)

/-- Settles O53, over what a step may do: block reset, the executing request after the host's move, or a step between
requests. -/
theorem stepKeepsCanvasAndRval : Obligations.StepKeepsCanvasAndRval := by
  intro s t hcanvas hrval h
  have hs : s.RegistersInv := ⟨hcanvas, hrval⟩
  cases hr : s.resetAsserted with
  | true =>
    obtain rfl := Host.Outcome.next.inj ((step_of_reset hr).symm.trans h)
    exact blockReset_registersInv s.tick
  | false =>
    cases ha : s.sq.reqActive with
    | true =>
      have hu := hostMoved_meanwhile s
      have hmet : s.tick.hostMeanwhile.RegistersInv := (hostMoved_keepsRegisters hu).registersInv hs
      cases hp : s.pending with
      | nil =>
        rw [step_of_active hr ha, State.stepActive, hu.pending.trans hp] at h
        obtain rfl := Host.Outcome.next.inj h
        exact hmet.congr rfl rfl rfl
      | cons m rest =>
        obtain rfl := Host.Outcome.next.inj ((step_micro_host hr ha hp).symm.trans h)
        exact (microStep_keepsRegisters (runMicro_cases _ m)).registersInv hmet
    | false => exact stepIdle_registersInv ((step_of_idle hr ha).symm.trans h) hs

end Sys2Proof.Machine
end

section
/-! PROOFS. The coordinate transform: its two tables as equations, what the printed formulas do, and the bijection of
the indexed ones. -/

namespace Sys2Proof.Machine

/-! ### The two tables by rotation and mirror mode (41_transform.md R172, R174) -/

theorem rotate_of_r0 {cv : Canvas} (hr : cv.rot = .r0) (e : Edge) (x y : Int) : rotate e cv x y = (x, y) := by
  simp only [rotate, hr]

theorem rotate_of_r90 {cv : Canvas} (hr : cv.rot = .r90) (e : Edge) (x y : Int) :
    rotate e cv x y = (cv.hl.toNat - edgeTerm e - y, x) := by
  simp only [rotate, hr]

theorem rotate_of_r180 {cv : Canvas} (hr : cv.rot = .r180) (e : Edge) (x y : Int) :
    rotate e cv x y = (cv.wl.toNat - edgeTerm e - x, cv.hl.toNat - edgeTerm e - y) := by
  simp only [rotate, hr]

theorem rotate_of_r270 {cv : Canvas} (hr : cv.rot = .r270) (e : Edge) (x y : Int) :
    rotate e cv x y = (y, cv.wl.toNat - edgeTerm e - x) := by
  simp only [rotate, hr]

theorem mirror_of_none {cv : Canvas} (hm : cv.mir = .none) (e : Edge) (x y : Int) : mirror e cv x y = (x, y) := by
  simp only [mirror, hm]

theorem mirror_of_horizontal {cv : Canvas} (hm : cv.mir = .horizontal) (e : Edge) (x y : Int) :
    mirror e cv x y = (cv.wm.toNat - edgeTerm e - x, y) := by
  simp only [mirror, hm]

theorem mirror_of_vertical {cv : Canvas} (hm : cv.mir = .vertical) (e : Edge) (x y : Int) :
    mirror e cv x y = (x, cv.hm.toNat - edgeTerm e - y) := by
  simp only [mirror, hm]

theorem mirror_of_both {cv : Canvas} (hm : cv.mir = .both) (e : Edge) (x y : Int) :
    mirror e cv x y = (cv.wm.toNat - edgeTerm e - x, cv.hm.toNat - edgeTerm e - y) := by
  simp only [mirror, hm]

theorem rotate_eq_iff {e : Edge} {cv : Canvas} {x y xr yr : Int} :
    rotate e cv x y = (xr, yr) ↔
      (cv.rot = .r0 → xr = x ∧ yr = y) ∧
      (cv.rot = .r90 → xr = cv.hl.toNat - edgeTerm e - y ∧ yr = x) ∧
      (cv.rot = .r180 → xr = cv.wl.toNat - edgeTerm e - x ∧ yr = cv.hl.toNat - edgeTerm e - y) ∧
      (cv.rot = .r270 → xr = y ∧ yr = cv.wl.toNat - edgeTerm e - x) := by
  cases hr : cv.rot with
  | r0 => simp [rotate_of_r0 hr, eq_comm]
  | r90 => simp [rotate_of_r90 hr, eq_comm]
  | r180 => simp [rotate_of_r180 hr, eq_comm]
  | r270 => simp [rotate_of_r270 hr, eq_comm]

theorem mirror_eq_iff {e : Edge} {cv : Canvas} {xr yr xm ym : Int} :
    mirror e cv xr yr = (xm, ym) ↔
      (cv.mir = .none → xm = xr ∧ ym = yr) ∧
      (cv.mir = .horizontal → xm = cv.wm.toNat - edgeTerm e - xr ∧ ym = yr) ∧
      (cv.mir = .vertical → xm = xr ∧ ym = cv.hm.toNat - edgeTerm e - yr) ∧
      (cv.mir = .both → xm = cv.wm.toNat - edgeTerm e - xr ∧ ym = cv.hm.toNat - edgeTerm e - yr) := by
  cases hm : cv.mir with
  | none => simp [mirror_of_none hm, eq_comm]
  | horizontal => simp [mirror_of_horizontal hm, eq_comm]
  | vertical => simp [mirror_of_vertical hm, eq_comm]
  | both => simp [mirror_of_both hm, eq_comm]

/-- The edge term is the `k` of the statement: 0 under `RAW` and 1 under `INDEX` (00_scope.md R8). -/
theorem eq_edgeTerm_iff {e : Edge} {k : Int} : k = edgeTerm e ↔ (e = .raw → k = 0) ∧ (e = .index → k = 1) := by
  cases e <;> simp [edgeTerm]

/-! ### The pipeline (41_transform.md R170, R171, R175) -/

theorem inMemory_iff {cv : Canvas} {xm ym : Int} :
    inMemory cv xm ym = true ↔ (0 ≤ xm ∧ xm < cv.wm.toNat) ∧ 0 ≤ ym ∧ ym < cv.hm.toNat := by
  simp only [inMemory, Bool.and_eq_true, decide_eq_true_eq, and_assoc]

/-- What the formulas make of a point, between the two bounds checks. -/
def placed (e : Edge) (cv : Canvas) (x y : Int) : Int × Int :=
  mirror e cv (rotate e cv x y).1 (rotate e cv x y).2

/-- In the logical rectangle only the second bounds check decides. -/
theorem transform_of_inLogical {e : Edge} {cv : Canvas} {x y : Nat} (hx : x < cv.wl.toNat) (hy : y < cv.hl.toNat) :
    transform e cv x y =
      if inMemory cv (placed e cv x y).1 (placed e cv x y).2 then
        some ((placed e cv x y).1.toNat, (placed e cv x y).2.toNat)
      else none := by
  have h : inLogical cv x y = true := by simp [inLogical, hx, hy]
  rw [transform, if_pos h]
  rfl

theorem transform_of_not_inLogical {e : Edge} {cv : Canvas} {x y : Nat}
    (h : ¬ (x < cv.wl.toNat ∧ y < cv.hl.toNat)) : transform e cv x y = none := by
  have h : ¬ inLogical cv x y = true := by simpa [inLogical] using h
  rw [transform, if_neg h]

theorem transform_eq_some_iff {e : Edge} {cv : Canvas} {x y xm ym : Nat} :
    transform e cv x y = some (xm, ym) ↔
      x < cv.wl.toNat ∧ y < cv.hl.toNat ∧ xm < cv.wm.toNat ∧ ym < cv.hm.toNat ∧
      placed e cv x y = ((xm : Int), (ym : Int)) := by
  by_cases hl : x < cv.wl.toNat ∧ y < cv.hl.toNat
  · obtain ⟨hx, hy⟩ := hl
    rw [transform_of_inLogical hx hy]
    simp only [Option.ite_none_right_eq_some, inMemory_iff, Option.some.injEq, Prod.ext_iff]
    omega
  · rw [transform_of_not_inLogical hl]
    simp only [reduceCtorEq, false_iff]
    rintro ⟨hx, hy, -⟩
    exact hl ⟨hx, hy⟩

theorem transform_eq_none_of_outside {e : Edge} {cv : Canvas} {x y : Nat} {a b : Int}
    (hp : placed e cv x y = (a, b)) (h : ¬ ((0 ≤ a ∧ a < cv.wm.toNat) ∧ 0 ≤ b ∧ b < cv.hm.toNat)) :
    transform e cv x y = none := by
  by_cases hl : x < cv.wl.toNat ∧ y < cv.hl.toNat
  · rw [transform_of_inLogical hl.1 hl.2, hp, if_neg (mt inMemory_iff.1 h)]
  · exact transform_of_not_inLogical hl

/-- Settles O22: the formulas lead to the point the second check looks at, and the edge fixes the `k` they use. -/
theorem transformFollowsItsSteps : Obligations.TransformFollowsItsSteps := by
  intro e cv x y xm ym
  rw [transform_eq_some_iff]
  refine and_congr_right' (and_congr_right' (and_congr_right' (and_congr_right' ⟨fun h => ?_, ?_⟩)))
  · obtain ⟨hraw, hindex⟩ := eq_edgeTerm_iff.1 (rfl : edgeTerm e = edgeTerm e)
    obtain ⟨h0, h90, h180, h270⟩ := rotate_eq_iff.1 (rfl : rotate e cv x y = _)
    exact ⟨edgeTerm e, _, _, hraw, hindex, h0, h90, h180, h270, mirror_eq_iff.1 h⟩
  · rintro ⟨k, xr, yr, hraw, hindex, h0, h90, h180, h270, hmirror⟩
    obtain rfl := eq_edgeTerm_iff.2 ⟨hraw, hindex⟩
    rw [placed, rotate_eq_iff.2 ⟨h0, h90, h180, h270⟩]
    exact mirror_eq_iff.2 hmirror

/-! ### Logical dimensions that follow the rotation (40_canvas_config.md R141, R150) -/

/-- The logical dimensions are the memory dimensions, swapped at 90 and 270 degrees. -/
def Canvas.DimsFollow (cv : Canvas) : Prop :=
  (cv.wl, cv.hl) = if cv.rot.swapsDims then (cv.hm, cv.wm) else (cv.wm, cv.hm)

theorem Canvas.DimsFollow.straight {cv : Canvas} (h : cv.DimsFollow) (hr : cv.rot = .r0 ∨ cv.rot = .r180) :
    cv.wl.toNat = cv.wm.toNat ∧ cv.hl.toNat = cv.hm.toNat := by
  rw [Canvas.DimsFollow, (swapsDims_eq_false_iff _).2 hr] at h
  obtain ⟨hw, hh⟩ := Prod.mk.inj h
  exact ⟨congrArg _ hw, congrArg _ hh⟩

theorem Canvas.DimsFollow.crossed {cv : Canvas} (h : cv.DimsFollow) (hr : cv.rot = .r90 ∨ cv.rot = .r270) :
    cv.wl.toNat = cv.hm.toNat ∧ cv.hl.toNat = cv.wm.toNat := by
  rw [Canvas.DimsFollow, (swapsDims_eq_true_iff _).2 hr] at h
  obtain ⟨hw, hh⟩ := Prod.mk.inj h
  exact ⟨congrArg _ hw, congrArg _ hh⟩

/-! ### The printed formulas (41_transform.md R176) -/

section
variable {cv : Canvas} {x y : Nat}

theorem placed_of_none (hm : cv.mir = .none) (e : Edge) (x y : Int) : placed e cv x y = rotate e cv x y :=
  mirror_of_none hm ..

theorem transform_raw_r0 (hd : cv.DimsFollow) (hx : x < cv.wl.toNat) (hy : y < cv.hl.toNat)
    (hm : cv.mir = .none) (hr : cv.rot = .r0) : transform .raw cv x y = some (x, y) := by
  obtain ⟨hw, hh⟩ := hd.straight (.inl hr)
  have hp : placed .raw cv x y = ((x : Int), (y : Int)) := by rw [placed_of_none hm, rotate_of_r0 hr]
  exact transform_eq_some_iff.2 ⟨hx, hy, by omega, by omega, hp⟩

/-- Row 0 goes to column `WM`, just outside; row `y > 0` to column `WM - y`. -/
theorem transform_raw_r90 (hd : cv.DimsFollow) (hx : x < cv.wl.toNat) (hy : y < cv.hl.toNat)
    (hm : cv.mir = .none) (hr : cv.rot = .r90) :
    transform .raw cv x y = if y = 0 then none else some (cv.wm.toNat - y, x) := by
  obtain ⟨hw, hh⟩ := hd.crossed (.inl hr)
  have hp : placed .raw cv x y = ((cv.wm.toNat : Int) - y, (x : Int)) := by
    rw [placed_of_none hm, rotate_of_r90 hr, hh, edgeTerm, sub_zero]
  split
  · exact transform_eq_none_of_outside hp (by omega)
  · refine transform_eq_some_iff.2 ⟨hx, hy, by omega, by omega, hp.trans ?_⟩
    rw [Nat.cast_sub (by omega)]

theorem transform_raw_r180 (hd : cv.DimsFollow) (hx : x < cv.wl.toNat) (hy : y < cv.hl.toNat)
    (hm : cv.mir = .none) (hr : cv.rot = .r180) :
    transform .raw cv x y = if x = 0 ∨ y = 0 then none else some (cv.wm.toNat - x, cv.hm.toNat - y) := by
  obtain ⟨hw, hh⟩ := hd.straight (.inr hr)
  have hp : placed .raw cv x y = ((cv.wm.toNat : Int) - x, (cv.hm.toNat : Int) - y) := by
    rw [placed_of_none hm, rotate_of_r180 hr, hw, hh, edgeTerm, sub_zero, sub_zero]
  split
  · exact transform_eq_none_of_outside hp (by omega)
  · refine transform_eq_some_iff.2 ⟨hx, hy, by omega, by omega, hp.trans ?_⟩
    rw [Nat.cast_sub (by omega), Nat.cast_sub (by omega)]

theorem transform_raw_r270 (hd : cv.DimsFollow) (hx : x < cv.wl.toNat) (hy : y < cv.hl.toNat)
    (hm : cv.mir = .none) (hr : cv.rot = .r270) :
    transform .raw cv x y = if x = 0 then none else some (y, cv.hm.toNat - x) := by
  obtain ⟨hw, hh⟩ := hd.crossed (.inr hr)
  have hp : placed .raw cv x y = ((y : Int), (cv.hm.toNat : Int) - x) := by
    rw [placed_of_none hm, rotate_of_r270 hr, hw, edgeTerm, sub_zero]
  split
  · exact transform_eq_none_of_outside hp (by omega)
  · refine transform_eq_some_iff.2 ⟨hx, hy, by omega, by omega, hp.trans ?_⟩
    rw [Nat.cast_sub (by omega)]

/-- The printed formulas count `WM - y` and `HM - x` from a coordinate inside the rectangle, so a turned axis never
reaches 0. -/
theorem transform_raw_unreached (hd : cv.DimsFollow) (hx : x < cv.wl.toNat) (hy : y < cv.hl.toNat)
    (hm : cv.mir = .none) {q : Nat × Nat} (hq : transform .raw cv x y = some q) :
    (cv.rot = .r90 → q.1 ≠ 0) ∧ (cv.rot = .r180 → q.1 ≠ 0 ∧ q.2 ≠ 0) ∧ (cv.rot = .r270 → q.2 ≠ 0) := by
  refine ⟨fun hr => ?_, fun hr => ?_, fun hr => ?_⟩
  · obtain ⟨hw, hh⟩ := hd.crossed (.inl hr)
    rw [transform_raw_r90 hd hx hy hm hr, Option.ite_none_left_eq_some] at hq
    obtain ⟨-, hq⟩ := hq
    obtain rfl := Option.some.inj hq
    exact (Nat.sub_pos_of_lt (hh ▸ hy)).ne'
  · obtain ⟨hw, hh⟩ := hd.straight (.inr hr)
    rw [transform_raw_r180 hd hx hy hm hr, Option.ite_none_left_eq_some] at hq
    obtain ⟨-, hq⟩ := hq
    obtain rfl := Option.some.inj hq
    exact ⟨(Nat.sub_pos_of_lt (hw ▸ hx)).ne', (Nat.sub_pos_of_lt (hh ▸ hy)).ne'⟩
  · obtain ⟨hw, hh⟩ := hd.crossed (.inr hr)
    rw [transform_raw_r270 hd hx hy hm hr, Option.ite_none_left_eq_some] at hq
    obtain ⟨-, hq⟩ := hq
    obtain rfl := Option.some.inj hq
    exact (Nat.sub_pos_of_lt (hw ▸ hx)).ne'

/-- Column 0 mirrors to column `WM`, just outside. -/
theorem transform_raw_horizontal_column_zero (hm : cv.mir = .horizontal) (hr : cv.rot = .r0) :
    transform .raw cv 0 y = none := by
  have hp : placed .raw cv (0 : Nat) y = ((cv.wm.toNat : Int), (y : Int)) := by
    simp [placed, rotate_of_r0 hr, mirror_of_horizontal hm, edgeTerm]
  exact transform_eq_none_of_outside hp (by omega)

theorem transform_raw_vertical_row_zero (hm : cv.mir = .vertical) (hr : cv.rot = .r0) :
    transform .raw cv x 0 = none := by
  have hp : placed .raw cv x (0 : Nat) = ((x : Int), (cv.hm.toNat : Int)) := by
    simp [placed, rotate_of_r0 hr, mirror_of_vertical hm, edgeTerm]
  exact transform_eq_none_of_outside hp (by omega)

/-- The mirror undoes the half turn, since no bounds check stands between the two. -/
theorem transform_raw_r180_both (hd : cv.DimsFollow) (hx : x < cv.wl.toNat) (hy : y < cv.hl.toNat)
    (hm : cv.mir = .both) (hr : cv.rot = .r180) : transform .raw cv x y = some (x, y) := by
  obtain ⟨hw, hh⟩ := hd.straight (.inr hr)
  have hp : placed .raw cv x y = ((x : Int), (y : Int)) := by
    rw [placed, rotate_of_r180 hr, mirror_of_both hm, hw, hh, sub_sub_cancel, sub_sub_cancel]
  exact transform_eq_some_iff.2 ⟨hx, hy, by omega, by omega, hp⟩

end

/-- Settles O23, a clause for each lemma above. -/
theorem rawTransformConsequences : Obligations.RawTransformConsequences := by
  intro cv x y _ _ hdims hx hy point
  have hd : cv.DimsFollow := hdims
  refine ⟨transform_raw_r0 hd hx hy, transform_raw_r90 hd hx hy, transform_raw_r180 hd hx hy,
    transform_raw_r270 hd hx hy, fun hm q hq => transform_raw_unreached hd hx hy hm hq, ?_, ?_,
    transform_raw_r180_both hd hx hy⟩
  · rintro hm hr rfl
    exact transform_raw_horizontal_column_zero hm hr
  · rintro hm hr rfl
    exact transform_raw_vertical_row_zero hm hr

/-! ### The indexed formulas (41_transform.md R177) -/

/-- Mirroring twice gives the point back, under either edge. -/
theorem mirror_mirror (e : Edge) (cv : Canvas) (x y : Int) :
    mirror e cv (mirror e cv x y).1 (mirror e cv x y).2 = (x, y) := by
  cases hm : cv.mir with
  | none => simp only [mirror_of_none hm]
  | horizontal => simp only [mirror_of_horizontal hm, sub_sub_cancel]
  | vertical => simp only [mirror_of_vertical hm, sub_sub_cancel]
  | both => simp only [mirror_of_both hm, sub_sub_cancel]

theorem mirror_injective {e : Edge} {cv : Canvas} {x y x' y' : Int} (h : mirror e cv x y = mirror e cv x' y') :
    (x, y) = (x', y') := by
  rw [← mirror_mirror e cv x y, h, mirror_mirror]

theorem rotate_injective {e : Edge} {cv : Canvas} {x y x' y' : Int} (h : rotate e cv x y = rotate e cv x' y') :
    x = x' ∧ y = y' := by
  cases hr : cv.rot with
  | r0 => simpa only [rotate_of_r0 hr, Prod.mk.injEq] using h
  | r90 => simpa only [rotate_of_r90 hr, Prod.mk.injEq, sub_right_inj, and_comm] using h
  | r180 => simpa only [rotate_of_r180 hr, Prod.mk.injEq, sub_right_inj] using h
  | r270 => simpa only [rotate_of_r270 hr, Prod.mk.injEq, sub_right_inj, and_comm] using h

theorem placed_injective {e : Edge} {cv : Canvas} {x y x' y' : Int} (h : placed e cv x y = placed e cv x' y') :
    x = x' ∧ y = y' :=
  rotate_injective (mirror_injective h)

/-- `a ↦ n - 1 - a` keeps `[0, n)`, so the indexed mirror keeps the memory rectangle. -/
theorem inMemory_mirror_index {cv : Canvas} {x y : Int} (h : inMemory cv x y = true) :
    inMemory cv (mirror .index cv x y).1 (mirror .index cv x y).2 = true := by
  rw [inMemory_iff] at h ⊢
  cases hm : cv.mir with
  | none => simpa only [mirror_of_none hm] using h
  | horizontal =>
    simp only [mirror_of_horizontal hm, edgeTerm]
    omega
  | vertical =>
    simp only [mirror_of_vertical hm, edgeTerm]
    omega
  | both =>
    simp only [mirror_of_both hm, edgeTerm]
    omega

theorem inMemory_rotate_index {cv : Canvas} (hd : cv.DimsFollow) {x y : Nat} (hx : x < cv.wl.toNat)
    (hy : y < cv.hl.toNat) : inMemory cv (rotate .index cv x y).1 (rotate .index cv x y).2 = true := by
  rw [inMemory_iff]
  cases hr : cv.rot with
  | r0 =>
    obtain ⟨hw, hh⟩ := hd.straight (.inl hr)
    simp only [rotate_of_r0 hr]
    omega
  | r90 =>
    obtain ⟨hw, hh⟩ := hd.crossed (.inl hr)
    simp only [rotate_of_r90 hr, edgeTerm]
    omega
  | r180 =>
    obtain ⟨hw, hh⟩ := hd.straight (.inr hr)
    simp only [rotate_of_r180 hr, edgeTerm]
    omega
  | r270 =>
    obtain ⟨hw, hh⟩ := hd.crossed (.inr hr)
    simp only [rotate_of_r270 hr, edgeTerm]
    omega

/-- The logical point that the indexed rotation takes to a point of the memory rectangle: 90 and 270 degrees undo each
other, the half turn undoes itself. -/
def unrotateIndex (cv : Canvas) (xr yr : Int) : Int × Int :=
  match cv.rot with
  | .r0 => (xr, yr)
  | .r90 => (yr, cv.hl.toNat - 1 - xr)
  | .r180 => (cv.wl.toNat - 1 - xr, cv.hl.toNat - 1 - yr)
  | .r270 => (cv.wl.toNat - 1 - yr, xr)

theorem rotate_unrotateIndex (cv : Canvas) (xr yr : Int) :
    rotate .index cv (unrotateIndex cv xr yr).1 (unrotateIndex cv xr yr).2 = (xr, yr) := by
  cases hr : cv.rot with
  | r0 => simp only [unrotateIndex, hr, rotate_of_r0 hr]
  | r90 => simp only [unrotateIndex, hr, rotate_of_r90 hr, edgeTerm, sub_sub_cancel]
  | r180 => simp only [unrotateIndex, hr, rotate_of_r180 hr, edgeTerm, sub_sub_cancel]
  | r270 => simp only [unrotateIndex, hr, rotate_of_r270 hr, edgeTerm, sub_sub_cancel]

theorem unrotateIndex_inLogical {cv : Canvas} (hd : cv.DimsFollow) {xr yr : Int} (h : inMemory cv xr yr = true) :
    ∃ x y : Nat, x < cv.wl.toNat ∧ y < cv.hl.toNat ∧ unrotateIndex cv xr yr = ((x : Int), (y : Int)) := by
  obtain ⟨⟨hx, hxw⟩, hy, hyh⟩ := inMemory_iff.1 h
  lift xr to ℕ using hx
  lift yr to ℕ using hy
  cases hr : cv.rot with
  | r0 =>
    obtain ⟨hw, hh⟩ := hd.straight (.inl hr)
    refine ⟨xr, yr, by omega, by omega, ?_⟩
    simp only [unrotateIndex, hr]
  | r90 =>
    obtain ⟨hw, hh⟩ := hd.crossed (.inl hr)
    refine ⟨yr, cv.hl.toNat - 1 - xr, by omega, by omega, ?_⟩
    simp only [unrotateIndex, hr, Prod.mk.injEq, true_and]
    omega
  | r180 =>
    obtain ⟨hw, hh⟩ := hd.straight (.inr hr)
    refine ⟨cv.wl.toNat - 1 - xr, cv.hl.toNat - 1 - yr, by omega, by omega, ?_⟩
    simp only [unrotateIndex, hr, Prod.mk.injEq]
    omega
  | r270 =>
    obtain ⟨hw, hh⟩ := hd.crossed (.inr hr)
    refine ⟨cv.wl.toNat - 1 - yr, xr, by omega, by omega, ?_⟩
    simp only [unrotateIndex, hr, Prod.mk.injEq, and_true]
    omega

/-- No logical point is `Oob`: each table keeps it within the memory rectangle. -/
theorem transform_index_total {cv : Canvas} (hd : cv.DimsFollow) {x y : Nat} (hx : x < cv.wl.toNat)
    (hy : y < cv.hl.toNat) : ∃ xm ym, transform .index cv x y = some (xm, ym) := by
  have h : inMemory cv (placed .index cv x y).1 (placed .index cv x y).2 = true :=
    inMemory_mirror_index (inMemory_rotate_index hd hx hy)
  exact ⟨_, _, (transform_of_inLogical hx hy).trans (if_pos h)⟩

theorem transform_injective {e : Edge} {cv : Canvas} {x y x' y' : Nat} {q : Nat × Nat}
    (h : transform e cv x y = some q) (h' : transform e cv x' y' = some q) : x = x' ∧ y = y' := by
  obtain ⟨-, -, -, -, hp⟩ := transform_eq_some_iff.1 h
  obtain ⟨-, -, -, -, hp'⟩ := transform_eq_some_iff.1 h'
  obtain ⟨hx, hy⟩ := placed_injective (hp.trans hp'.symm)
  exact ⟨Int.ofNat_inj.1 hx, Int.ofNat_inj.1 hy⟩

/-- A memory point is the image of its mirror image turned back. -/
theorem transform_index_onto {cv : Canvas} (hd : cv.DimsFollow) {xm ym : Nat} (hx : xm < cv.wm.toNat)
    (hy : ym < cv.hm.toNat) :
    ∃ x y, x < cv.wl.toNat ∧ y < cv.hl.toNat ∧ transform .index cv x y = some (xm, ym) := by
  have hmem : inMemory cv xm ym = true := inMemory_iff.2 (by omega)
  obtain ⟨x, y, hxl, hyl, hu⟩ := unrotateIndex_inLogical hd (inMemory_mirror_index hmem)
  refine ⟨x, y, hxl, hyl, transform_eq_some_iff.2 ⟨hxl, hyl, hx, hy, ?_⟩⟩
  have hrot : rotate .index cv x y = mirror .index cv xm ym := by
    have := rotate_unrotateIndex cv (mirror .index cv xm ym).1 (mirror .index cv xm ym).2
    rwa [hu] at this
  rw [placed, hrot, mirror_mirror]

/-- Settles O24: the indexed tables stay within the rectangles, and each can be undone. -/
theorem indexTransformIsABijection : Obligations.IndexTransformIsABijection := by
  intro cv hdims
  have hd : cv.DimsFollow := hdims
  refine ⟨fun x y hx hy => ?_, fun x y x' y' q => transform_injective, fun xm ym => transform_index_onto hd⟩
  obtain ⟨xm, ym, h⟩ := transform_index_total hd hx hy
  exact ⟨xm, ym, h, transform_bounds h⟩

end Sys2Proof.Machine
end

section
/-! PROOFS. The two requests of one pixel: how each ends, and what drawing a pixel means for reading that pixel and the
others. -/

namespace Sys2Proof.Machine

/-! ### How a pixel request ends (42_pixel.md R202, R205, R210) -/

theorem faultedOnly_raiseFault (s : State) (c : FaultCode) : FaultedOnly s (s.raiseFault c) c := rfl

/-- Without a buffer every pixel request faults before it looks at a point. -/
theorem exec_pixelRequest_noBuffer {i : Instr} {s : State} (hi : isPixelRequest i = true) (hv : s.cv.valid = false) :
    exec i s = .next (s.raiseFault .noBuffer) := by
  cases i <;> try cases hi
  case clear => simp [exec, execClear, hv]
  case clearArea => simp [exec, execClearArea, hv]
  case drawPixel => simp [exec, execDrawPixel, hv]
  case readPixel => simp [exec, execReadPixel, hv]

section
variable {s : State} {x y : Coord} {xm ym : Nat}

theorem exec_drawPixel_oob (c : Byte) (hv : s.cv.valid = true) (ht : s.transformed x.toNat y.toNat = none) :
    exec (.drawPixel c x y) s = .next ({ s with el := s.el ++ [s.entry .boundsError] }.completed .boundsError) := by
  simp only [exec, execDrawPixel, hv, if_true, ht]
  rfl

theorem exec_drawPixel_fault (c : Byte) (hv : s.cv.valid = true)
    (ht : s.transformed x.toNat y.toNat = some (xm, ym)) (hr : s.pixelInRegion xm ym = false) :
    exec (.drawPixel c x y) s = .next (s.raiseFault .bufferOverrun) := by
  simp only [exec, execDrawPixel, hv, if_true, ht, pack_fault c hr, endBody]

theorem exec_drawPixel_draws (c : Byte) (hv : s.cv.valid = true)
    (ht : s.transformed x.toNat y.toNat = some (xm, ym)) (hr : s.pixelInRegion xm ym = true) :
    ∃ m, exec (.drawPixel c x y) s = .next ({ s with mem := m }.completed .ok) ∧ Drawn s xm ym c m := by
  obtain ⟨m, hm, hd⟩ := pack_ok c hr
  refine ⟨m, ?_, hd⟩
  simp only [exec, execDrawPixel, hv, if_true, ht, hm, endBody]
  rfl

theorem exec_readPixel_oob (hv : s.cv.valid = true) (ht : s.transformed x.toNat y.toNat = none) :
    exec (.readPixel x y) s = .next ({ s with
      st := { s.st with rval := 0 }
      el := s.el ++ [s.entry .boundsError] }.completed .boundsError) := by
  simp only [exec, execReadPixel, hv, if_true, ht]
  rfl

theorem exec_readPixel_fault (hv : s.cv.valid = true) (ht : s.transformed x.toNat y.toNat = some (xm, ym))
    (hr : s.pixelInRegion xm ym = false) : exec (.readPixel x y) s = .next (s.raiseFault .bufferOverrun) := by
  rw [pixelInRegion_eq] at hr
  simp [exec, execReadPixel, hv, ht, State.unpack, hr]

theorem exec_readPixel_reads (hv : s.cv.valid = true) (ht : s.transformed x.toNat y.toNat = some (xm, ym))
    (hr : s.pixelInRegion xm ym = true) :
    exec (.readPixel x y) s = .next ({ s with st := { s.st with rval := s.pixelValue xm ym } }.completed .ok) := by
  rw [pixelInRegion_eq] at hr
  simp only [exec, execReadPixel, hv, if_true, ht, State.unpack, hr]
  rfl

end

/-- Settles O25, a case for each way DRAW_PIXEL ends; the bits are those of `Drawn`. -/
theorem drawPixel : Obligations.DrawPixel := by
  intro s c x y
  refine ⟨fun hv => ?_, fun hv ht => exec_drawPixel_oob c hv ht, fun hv xm ym ht => ⟨fun hr => ?_, fun hr => ?_⟩⟩
  · exact ⟨_, exec_pixelRequest_noBuffer rfl hv, faultedOnly_raiseFault s _⟩
  · exact ⟨_, exec_drawPixel_fault c hv ht hr, faultedOnly_raiseFault s _⟩
  · obtain ⟨m, hm, hd⟩ := exec_drawPixel_draws c hv ht hr
    exact ⟨m, hm, hd.bits, fun a ha => hd.frame a (mt (mem_pixelBytes s xm ym a).2 ha)⟩

/-- Settles O26, a case for each way READ_PIXEL ends; where it reads, `RVAL` is `State.pixelValue`. -/
theorem readPixel : Obligations.ReadPixel := by
  intro s x y
  refine ⟨fun hv => ?_, fun hv ht => exec_readPixel_oob hv ht, fun hv xm ym ht => ⟨fun hr => ?_, fun hr => ?_⟩⟩
  · exact ⟨_, exec_pixelRequest_noBuffer rfl hv, faultedOnly_raiseFault s _⟩
  · exact ⟨_, exec_readPixel_fault hv ht hr, faultedOnly_raiseFault s _⟩
  · exact ⟨_, exec_readPixel_reads hv ht hr, pixelValue_lt s xm ym, fun j hj => pixelValue_bit s xm ym hj⟩

/-! ### A drawn pixel read back, and the other pixels (42_pixel.md R201, R203) -/

theorem slotPos_inj_of_distinct {sl : D7Slot} (hd : sl.distinct = true) {j k : Nat} (hj : j < 3) (hk : k < 3)
    (h : slotPos sl j = slotPos sl k) : j = k := by
  simp only [D7Slot.distinct, Bool.and_eq_true, bne_iff_ne, ne_eq, Fin.ext_iff] at hd
  obtain ⟨⟨h21, h20⟩, h10⟩ := hd
  rcases (by omega : j = 0 ∨ j = 1 ∨ j = 2) with rfl | rfl | rfl <;>
    rcases (by omega : k = 0 ∨ k = 1 ∨ k = 2) with rfl | rfl | rfl <;> simp only [slotPos] at h <;> omega

/-- A pixel's own bits are apart, at density 7 if the positions of its slot are. Unlike `pixelBit_inj` this asks nothing
of the width or of the other slots (42_pixel.md R201). -/
theorem pixelBit_inj_own {s : State} {xm ym j k : Nat}
    (hs : s.cv.dens = .d7 → (s.layoutEntry xm ym).distinct = true) (hj : j < s.cv.dens.bits)
    (hk : k < s.cv.dens.bits) (h : s.pixelBit xm ym j = s.pixelBit xm ym k) : j = k := by
  rw [pixelBit_eq, pixelBit_eq] at h
  cases hd : s.cv.dens with
  | d2 =>
    simp only [hd, Density.bits] at hj hk
    omega
  | d4 =>
    simp only [hd, Prod.mk.injEq] at h
    omega
  | d7 =>
    simp only [hd, Density.bits, Prod.mk.injEq] at hj hk h
    rw [layoutEntry_eq] at hs
    exact slotPos_inj_of_distinct (hs hd) hj hk (by omega)

/-- Settles O27: the read meets the same point in the same region, and finds the value the drawn bits spell. -/
theorem drawThenReadGivesTheColour : Obligations.DrawThenReadGivesTheColour := by
  intro s c x y xm ym hv ht hr hdist
  obtain ⟨m, hm, hd⟩ := exec_drawPixel_draws c hv ht hr
  refine ⟨_, _, hm, exec_readPixel_reads hv ht hr, rfl, rfl, ?_⟩
  have hval : ({ s with mem := m } : State).pixelValue xm ym = storedColor s.par s.cv.dens c :=
    drawn_value hd fun j k => pixelBit_inj_own hdist
  exact hval

/-- Settles O28: a fault leaves memory alone, and a drawn pixel shares no bit with another. -/
theorem drawLeavesOtherPixels : Obligations.DrawLeavesOtherPixels := by
  intro s t c x y xm ym xo yo hs ht hxo hyo hne hx
  cases hv : s.cv.valid with
  | false =>
    obtain rfl := Host.Outcome.next.inj ((exec_pixelRequest_noBuffer rfl hv).symm.trans hx)
    exact pixelValue_congr rfl rfl rfl xo yo
  | true =>
    cases hr : s.pixelInRegion xm ym with
    | false =>
      obtain rfl := Host.Outcome.next.inj ((exec_drawPixel_fault c hv ht hr).symm.trans hx)
      exact pixelValue_congr rfl rfl rfl xo yo
    | true =>
      obtain ⟨m, hm, hd⟩ := exec_drawPixel_draws c hv ht hr
      obtain rfl := Host.Outcome.next.inj (hm.symm.trans hx)
      have hxm := (transform_bounds ht).1
      refine drawn_other hd fun j k hj hk he => hne ?_
      obtain ⟨rfl, rfl, -⟩ := pixelBit_inj hs hxm hxo hj hk he
      rfl

end Sys2Proof.Machine
end

section
/-! PROOFS. CLEAR: the fill of densities 2 and 4, and the pixel-by-pixel loop of density 7. -/

namespace Sys2Proof.Machine

/-! ### CLEAR at densities 2 and 4 (42_pixel.md R215) -/

/-- The byte CLEAR fills the region with at densities 2 and 4 (42_pixel.md R215). -/
def fillByte (p : Params) (d : Density) (c : Byte) : Byte := if d = .d2 then fillByte2 p c else fillByte4 c

theorem lowTwoBits_eq (c : Byte) : c &&& 3#8 = BitVec.ofNat 8 (c.toNat % 4) := by
  apply BitVec.eq_of_toNat_eq
  have hand : c.toNat &&& 3 = c.toNat % 4 := Nat.and_two_pow_sub_one_eq_mod c.toNat 2
  simp only [BitVec.toNat_and, BitVec.toNat_ofNat, Nat.reducePow, Nat.reduceMod, hand]
  omega

theorem fillByte4_eq (c : Byte) : fillByte4 c = BitVec.ofNat 8 (c.toNat % 4 * 0x55) := by
  rw [fillByte4, lowTwoBits_eq c]
  exact (BitVec.ofNat_mul ..).symm

/-- `(K & 3) * 0x55` repeats the low two bits of the colour in each of the byte's four fields. -/
theorem fillByte4_field (c : Byte) (xm : Nat) : (fillByte4 c >>> shift4 xm) &&& 3#8 = c &&& 3#8 := by
  have fields : ∀ k < 4, ∀ v < 4, ((BitVec.ofNat 8 v * 0x55#8) >>> (6 - 2 * k)) &&& 3#8 = BitVec.ofNat 8 v := by decide
  rw [fillByte4, lowTwoBits_eq c]
  exact fields (xm % 4) (Nat.mod_lt _ (by omega)) (c.toNat % 4) (Nat.mod_lt _ (by omega))

theorem fillByte2_bit (p : Params) (c : Byte) (xm : Nat) :
    (fillByte2 p c >>> (7 - xm % 8)) &&& 1#8 = storedColor p .d2 c := by
  have bits : ∀ k < 8, (0x00#8 >>> (7 - k)) &&& 1#8 = 0#8 ∧ (0xFF#8 >>> (7 - k)) &&& 1#8 = 1#8 := by decide
  obtain ⟨hblack, hother⟩ := bits (xm % 8) (Nat.mod_lt _ (by omega))
  unfold fillByte2 storedColor
  split
  · exact hblack
  · exact hother

/-- A pixel whose bytes hold the fill byte has the stored colour. -/
theorem pixelValue_of_filled {s : State} {c : Byte} {xm ym : Nat} (hd : s.cv.dens ≠ .d7)
    (h : ∀ a ∈ s.pixelAddrs xm ym, Memory.read s.mem a = fillByte s.par s.cv.dens c) :
    s.pixelValue xm ym = storedColor s.par s.cv.dens c := by
  unfold State.pixelAddrs at h
  unfold State.pixelValue
  cases hc : s.cv.dens with
  | d2 =>
    simp only [hc, List.mem_singleton, forall_eq] at h ⊢
    rw [h]
    exact fillByte2_bit s.par c xm
  | d4 =>
    simp only [hc, List.mem_singleton, forall_eq] at h ⊢
    rw [h]
    exact fillByte4_field c xm
  | d7 => exact absurd hc hd

theorem exec_clear_bytes {s : State} (c : Byte) (hv : s.cv.valid = true) (hd : s.cv.dens ≠ .d7) :
    exec (.clear c) s = .next (s.clearBytes (fillByte s.par s.cv.dens c)) := by
  simp only [exec, execClear, hv, if_true]
  cases hc : s.cv.dens with
  | d2 => rfl
  | d4 => rfl
  | d7 => exact absurd hc hd

theorem regionInMemory_iff (s : State) :
    s.RegionInMemory ↔ s.cv.base.toNat + s.cv.regionBytes ≤ s.par.memSize := by
  unfold State.RegionInMemory
  rw [rowLength_eq]
  rfl

theorem RegionWritten.outside {s : State} {m : Memory} (h : RegionWritten s m) {a : Nat} (ha : ¬ s.inRegion a) :
    Memory.read m a = Memory.read s.mem a := h.frame a fun hin => ha hin.1

/-- Where the region passes the end of memory nothing is filled (42_pixel.md R215). -/
theorem exec_clear_bytes_fault {s : State} (c : Byte) (hv : s.cv.valid = true) (hd : s.cv.dens ≠ .d7)
    (hr : ¬ s.RegionInMemory) : exec (.clear c) s = .next (s.raiseFault .bufferOverrun) := by
  rw [exec_clear_bytes c hv hd, State.clearBytes, if_neg (mt (regionInMemory_iff s).2 hr)]

/-- The fill writes the whole region, padding included, and nothing else. -/
theorem exec_clear_fills {s : State} (c : Byte) (hv : s.cv.valid = true) (hd : s.cv.dens ≠ .d7)
    (hr : s.RegionInMemory) :
    ∃ m, exec (.clear c) s = .next ({ s with mem := m }.completed .ok) ∧
      (∀ a, s.inRegion a → Memory.read m a = fillByte s.par s.cv.dens c) ∧ RegionWritten s m := by
  rw [regionInMemory_iff] at hr
  refine ⟨_, ?_, fun a ha => ?_, regionWritten_fill (fillByte s.par s.cv.dens c) hr⟩
  · rw [exec_clear_bytes c hv hd, State.clearBytes, if_pos hr, fill_eq]
    rfl
  · rw [fill_read, if_pos ((inRegion_iff s a).1 ha)]

/-- Settles O29: the fill, its byte by density, and the faults before it. -/
theorem clearFillsBytes : Obligations.ClearFillsBytes := by
  intro s c
  refine ⟨fun hv => ?_, fun hv hd hr => ?_, fun hv hd hr => ?_⟩
  · exact ⟨_, exec_pixelRequest_noBuffer rfl hv, faultedOnly_raiseFault s _⟩
  · exact ⟨_, exec_clear_bytes_fault c hv hd hr, faultedOnly_raiseFault s _⟩
  · obtain ⟨m, hm, hin, hwr⟩ := exec_clear_fills c hv hd hr
    refine ⟨m, hm, fun a ha h2 => ?_, fun a ha h4 => ?_, fun a => hwr.outside⟩
    · rw [hin a ha, h2]
      rfl
    · rw [hin a ha, h4]
      exact fillByte4_eq c

/-! ### CLEAR at density 7 (42_pixel.md R215, R202) -/

/-- The memory points of the canvas, row by row (42_pixel.md R215). -/
def State.memoryPoints (s : State) : List (Nat × Nat) := windowPoints 0 0 s.cv.wm.toNat s.cv.hm.toNat

theorem mem_memoryPoints (s : State) (p : Nat × Nat) :
    p ∈ s.memoryPoints ↔ p.1 < s.cv.wm.toNat ∧ p.2 < s.cv.hm.toNat := by
  rw [State.memoryPoints, mem_windowPoints]
  omega

theorem exec_clear_pixels {s : State} (c : Byte) (hv : s.cv.valid = true) (hd : s.cv.dens = .d7) :
    exec (.clear c) s =
      .next (endBody (s.memoryPoints.foldlM (fun (u : State) p => u.pack p.1 p.2 c) s) .ok) := by
  simp only [exec, execClear, hv, if_true, hd, State.clearPixels, forRange_nested, foldlM_pack7 hd c,
    State.memoryPoints]

theorem exec_clear_draws {s : State} (c : Byte) (hv : s.cv.valid = true) (hd : s.cv.dens = .d7)
    (h : ∀ p ∈ s.memoryPoints, s.pixelInRegion p.1 p.2 = true) :
    ∃ m, exec (.clear c) s = .next ({ s with mem := m }.completed .ok) ∧ DrawnAll s s.memoryPoints c m := by
  obtain ⟨m, hm, hdraw⟩ := draw_list c _ h
  rw [exec_clear_pixels c hv hd, hm]
  exact ⟨m, rfl, hdraw⟩

theorem exec_clear_fault {s : State} (c : Byte) (hv : s.cv.valid = true) (hd : s.cv.dens = .d7)
    (h : ∃ p ∈ s.memoryPoints, s.pixelInRegion p.1 p.2 = false) :
    ∃ m, exec (.clear c) s = .next (({ s with mem := m } : State).raiseFault .bufferOverrun) ∧
      DrawnAll s (s.memoryPoints.takeWhile fun p => s.pixelInRegion p.1 p.2) c m := by
  obtain ⟨m, hm, hdraw⟩ := draw_list_fault c _ h
  rw [exec_clear_pixels c hv hd, hm]
  exact ⟨m, rfl, hdraw⟩

/-- Settles O30: at densities 2 and 4 by the fill byte, at density 7 by the pixels drawn, each of which passes the region
check as the rows are whole groups. -/
theorem clearSetsEveryPixel : Obligations.ClearSetsEveryPixel := by
  intro s c hv hr hs
  by_cases hd : s.cv.dens = .d7
  · have hall : ∀ p ∈ s.memoryPoints, s.pixelInRegion p.1 p.2 = true := fun p hp =>
      have ⟨hx, hy⟩ := (mem_memoryPoints s p).1 hp
      pixelInRegion_of_bounds hr (fun h7 => (hs h7).1) hx hy
    obtain ⟨m, hm, hdraw⟩ := exec_clear_draws c hv hd hall
    refine ⟨m, hm, fun xm ym hx hy => ?_, fun a => (regionWritten_of_drawnAll hdraw hall).outside⟩
    obtain ⟨hdrawn, -⟩ := hdraw.values hs (fun p => (mem_memoryPoints s p).1) xm ym hx
    exact hdrawn ((mem_memoryPoints s (xm, ym)).2 ⟨hx, hy⟩)
  · obtain ⟨m, hm, hin, hwr⟩ := exec_clear_fills c hv hd hr
    refine ⟨m, hm, fun xm ym hx hy => ?_, fun a => hwr.outside⟩
    have hreg : s.pixelInRegion xm ym = true := pixelInRegion_of_bounds hr (fun h7 => absurd h7 hd) hx hy
    exact pixelValue_of_filled (s := { s with mem := m }) hd fun a ha => hin a (pixelInRegion_addr hreg ha).1

/-- Settles O31: the loop either draws every point or stops at the first that fails, and `DrawnAll` gives the memory of
both. -/
theorem clearAtDensitySevenIsChecked : Obligations.ClearAtDensitySevenIsChecked := by
  intro s c hv hd points done
  by_cases hall : ∀ p ∈ points, s.pixelInRegion p.1 p.2 = true
  · obtain ⟨m, hm, hdraw⟩ := exec_clear_draws c hv hd hall
    have hdone : done = points := List.takeWhile_eq_self_iff.2 hall
    refine ⟨m, hdone ▸ hdraw.bits, fun a => (regionWritten_of_drawnAll hdraw hall).outside, fun _ => ⟨hdone, hm⟩, ?_⟩
    rintro ⟨xm, ym, hx, hy, hf⟩
    exact absurd (hall (xm, ym) ((mem_memoryPoints s _).2 ⟨hx, hy⟩)) (by simp [hf])
  · have hsome : ∃ p ∈ points, s.pixelInRegion p.1 p.2 = false := by simpa using hall
    obtain ⟨m, hm, hdraw⟩ := exec_clear_fault c hv hd hsome
    have hpass : ∀ p ∈ done, s.pixelInRegion p.1 p.2 = true := fun p => List.mem_takeWhile_imp
    refine ⟨m, hdraw.bits, fun a => (regionWritten_of_drawnAll hdraw hpass).outside, fun h => ?_, fun _ => ?_⟩
    · refine absurd (fun p hp => ?_) hall
      obtain ⟨hx, hy⟩ := (mem_memoryPoints s p).1 hp
      exact h p.1 p.2 hx hy
    · exact ⟨_, hm, faultedOnly_raiseFault _ _⟩

end Sys2Proof.Machine
end

section
/-! PROOFS. CLEAR_AREA: the window without a failing point, and the window cut short by one. -/

namespace Sys2Proof.Machine

/-! ### CLEAR_AREA over the points of its window (42_pixel.md R220, R202) -/

theorem pointPasses_eq_false_iff {s : State} {x y : Nat} :
    s.pointPasses x y = false ↔ ∃ xm ym, s.transformed x y = some (xm, ym) ∧ s.pixelInRegion xm ym = false := by
  unfold State.pointPasses
  cases s.transformed x y with
  | none => simp
  | some p => simp [Prod.ext_iff]

section
variable {s : State} {c : Byte} {x y w h : Coord} (hv : s.cv.valid = true)
include hv

theorem exec_clearArea_ok {a : State × ResultCode}
    (hl : (windowPoints x.toNat y.toNat w.toNat h.toNat).foldlM
      (fun (a : State × ResultCode) q => areaPoint c q.1 q.2 a) (s, .ok) = .ok (ε := State) a) :
    exec (.clearArea c x y w h) s = .next (a.1.finish a.2) := by
  simp only [exec, execClearArea, hv, if_true]
  rw [forRange_nested x.toNat y.toNat w.toNat h.toNat fun px py a => areaPoint c px py a, hl]

theorem exec_clearArea_error {t : State}
    (hl : (windowPoints x.toNat y.toNat w.toNat h.toNat).foldlM
      (fun (a : State × ResultCode) q => areaPoint c q.1 q.2 a) (s, .ok) = .error (ε := State) t) :
    exec (.clearArea c x y w h) s = .next t := by
  simp only [exec, execClearArea, hv, if_true]
  rw [forRange_nested x.toNat y.toNat w.toNat h.toNat fun px py a => areaPoint c px py a, hl]

end

/-- Settles O32: the points drawn are those the window hits, so what `DrawnAll` says of them is said of the window. -/
theorem clearAreaDrawsItsWindow : Obligations.ClearAreaDrawsItsWindow := by
  intro s c x y w h points hits missed hv hp
  obtain ⟨m, hm, hd⟩ := area_list c .ok points fun q hq xm ym ht => hp xm ym ⟨q, hq, ht⟩
  have hhits (xm ym : Nat) : (xm, ym) ∈ (points.filterMap fun q : Nat × Nat => s.transformed q.1 q.2) ↔ hits xm ym :=
    List.mem_filterMap
  refine ⟨m, exec_clearArea_ok hv hm, hd.bits, fun a ha => ?_, fun hs xm ym hx _ => ?_⟩
  · exact hd.frame a fun p hin => mt (mem_pixelBytes s p.1 p.2 a).2 (ha p.1 p.2 ((hhits p.1 p.2).1 hin))
  · have hbounds : ∀ p ∈ points.filterMap fun q : Nat × Nat => s.transformed q.1 q.2,
        p.1 < s.cv.wm.toNat ∧ p.2 < s.cv.hm.toNat := fun p hin => by
      obtain ⟨q, -, ht⟩ := (hhits p.1 p.2).1 hin
      exact transform_bounds ht
    obtain ⟨hdrawn, hkept⟩ := hd.values hs hbounds xm ym hx
    exact ⟨hdrawn ∘ (hhits xm ym).2, hkept ∘ mt (hhits xm ym).1⟩

/-- Settles O33: the loop stops at the first point that fails, and the points before it pass, so none is drawn outside
the region. -/
theorem clearAreaFaults : Obligations.ClearAreaFaults := by
  intro s c x y w h
  refine ⟨fun hv => ?_, fun hv hf => ?_⟩
  · exact ⟨_, exec_pixelRequest_noBuffer rfl hv, faultedOnly_raiseFault s _⟩
  · intro done missed
    obtain ⟨q, hq, hfail⟩ := hf
    obtain ⟨m, hm, hd⟩ := area_list_fault c .ok _ ⟨q, hq, pointPasses_eq_false_iff.2 hfail⟩
    have hpass : ∀ q ∈ done, s.pointPasses q.1 q.2 = true := fun q => List.mem_takeWhile_imp
    exact ⟨m, _, exec_clearArea_error hv hm, faultedOnly_raiseFault _ _, hd.bits, fun a =>
      (regionWritten_of_drawnAll hd (transformed_inRegion hpass)).outside⟩

end Sys2Proof.Machine
end

section
/-! PROOFS. WINDOW_CALC: the six integers of a window, and the window registers they leave. -/

namespace Sys2Proof.Machine

/-! ### The split of a Y value at 256 (43_windowing.md R233, R234) -/

theorem splitHi_splitLo_eq {v hi lo : Int} (above : 256 ≤ v → hi = v / 256 ∧ lo = v % 256)
    (below : v < 256 → hi = 0 ∧ lo = v) :
    splitHi v = hi ∧ splitLo v = lo := by
  unfold splitHi splitLo
  split
  case isTrue hv =>
    obtain ⟨hhi, hlo⟩ := above hv
    exact ⟨hhi.symm, hlo.symm⟩
  case isFalse hv =>
    obtain ⟨hhi, hlo⟩ := below (Int.not_le.1 hv)
    exact ⟨hhi.symm, hlo.symm⟩

/-! ### WINDOW_CALC -/

theorem exec_windowCalc (x y w h : Coord) (s : State) :
    exec (.windowCalc x y w h) s =
      .next ({ s with st := s.st.withWindow (window s.par.panelH x.toNat y.toNat w.toNat h.toNat) }.completed .ok) := rfl

/-- Settles O35: the end's Y value is taken from the low part of the start's (43_windowing.md R234), so the start is
split first. -/
theorem windowCalc : Obligations.WindowCalc := by
  intro s x y w h xs xe count ysl ysh raw yel yeh hxs hxe hcount startAbove startBelow hraw endAbove endBelow
  obtain ⟨hysh, hysl⟩ := splitHi_splitLo_eq startAbove startBelow
  obtain ⟨hyeh, hyel⟩ := splitHi_splitLo_eq endAbove endBelow
  have hwindow : window s.par.panelH x.toNat y.toNat w.toNat h.toNat = ⟨xs, xe, ysl, ysh, yel, yeh⟩ := by
    subst hxs hxe hcount hraw
    simp only [window, hysh, hysl, hyeh, hyel]
  rw [exec_windowCalc, hwindow]
  rfl

end Sys2Proof.Machine
end

section
/-! PROOFS. The micro-actions that are no waits, where the host may break its duty: what the end of a micro-action
leaves, a failed send, the line, delay and display-state actions, and the stream. -/

namespace Sys2Proof.Machine

/-! ### What the end of a micro-action leaves (10_state.md R37, 45_protocol_ops.md R293) -/

@[simp] theorem advance_req (s : State) : s.advance.sq.req = s.sq.req := by unfold State.advance; split <;> rfl
@[simp] theorem advance_waitT0 (s : State) : s.advance.sq.waitT0 = s.sq.waitT0 := by
  unfold State.advance; split <;> rfl

/-- The request goes on with what is left of its sequence or, with nothing left, ends with the result of its timed
wait. -/
theorem advance_rest {s : State} {m : Micro} {rest : List Micro} (ha : s.sq.reqActive = true)
    (hp : s.pending = m :: rest) :
    (rest ≠ [] → s.advance.pending = rest ∧ s.advance.sq.reqActive = true ∧ s.advance.sq.wr = s.sq.wr ∧
      s.advance.st = s.st) ∧
    (rest = [] → s.advance.sq.reqActive = false ∧ s.advance.st = { s.st with result := s.sq.wr }) := by
  cases rest with
  | nil =>
    refine ⟨fun h => absurd rfl h, fun _ => ?_⟩
    rw [advance_last hp]
    exact ⟨rfl, rfl⟩
  | cons m' rest =>
    obtain ⟨hadv, hpend⟩ := advance_more hp
    refine ⟨fun _ => ⟨hpend, ?_⟩, fun h => by cases h⟩
    rw [hadv]
    exact ⟨ha, rfl, rfl⟩

/-! ### A failed send (44_wire_commands.md R262, 60_exceptions.md R346) -/

theorem runMicro_send_fail {s : State} {m : Micro} {k : SendKind} {b : Byte} {xs : List Bool}
    (hm : m = .sendCmd b ∧ k = .cmd ∨ m = .sendData b ∧ k = .data) (hx : s.env.xferIn = false :: xs) :
    s.runMicro m = { s with env := { s.env with xferIn := xs } }.transportFail k b := by
  have hsend : completeSends (s.send k b) = { s with env := { s.env with xferIn := xs } }.transportFail k b := by
    rw [send_fail (drawXfer_fixed hx)]
    rfl
  rcases hm with ⟨rfl, rfl⟩ | ⟨rfl, rfl⟩
  · exact hsend
  · exact hsend

/-- A transport failure in the terms of the statements. -/
theorem transportFail_eq (s : State) (k : SendKind) (b : Byte) :
    s.transportFail k b = { s with
      st := { s.st with halted := true }
      wt := s.wt ++ [Event.xferFail k b]
      el := s.el ++ [s.entry .transportFailure] }.completed .transportFailure := rfl

/-- Settles O47: after the host's move the send draws the failure. -/
theorem sendFailureHalts : Obligations.SendFailureHalts := by
  intro s m k b rest xs hm ha hr hp hx
  have hu := hostMoved_meanwhile s
  have hxu : s.tick.hostMeanwhile.env.xferIn = false :: xs := by
    rw [hostMeanwhile_env]
    exact hx
  refine ⟨s.tick.hostMeanwhile, met_meanwhile s, ?_⟩
  rw [step_micro_host hr ha hp, runMicro_send_fail hm hxu, transportFail_eq]
  simp only [State.entry, hu.st, hu.wt, hu.el, hu.sq]

/-! ### Line, delay and display state (44_wire_commands.md R263, R264, R266) -/

/-- A delay changes at most the clock's bound and the counters of its free draws; the bound rises by the milliseconds
once a value has been read (10_state.md R34 (b)). -/
theorem delay_keeps (e : Env) (ms : Nat) :
    ∃ f k j, e.delay ms = { e with clockFloor := f, nClock := k, nStall := j } ∧
      (e.clockRead = true → f = e.clockFloor + ms) := by
  obtain ⟨-, -, hfloor, -⟩ := delay_clock e ms
  refine ⟨(e.delay ms).clockFloor, (e.delay ms).nClock, (e.delay ms).nStall, ?_, hfloor⟩
  unfold Env.delay
  split <;> rfl

/-- Settles O49: each of the three writes its own part of the state, and `MPC` moves on. -/
theorem lineDelayAndStateActions : Obligations.LineDelayAndStateActions := by
  intro s m m' rest ha hr hp sq'
  have hu := hostMoved_meanwhile s
  have hpu : s.tick.hostMeanwhile.pending = m :: m' :: rest := hu.pending.trans hp
  have hstep := step_micro_host hr ha hp
  refine ⟨s.tick.hostMeanwhile, met_meanwhile s, ?_, ?_, ?_⟩
  · rintro l rfl
    obtain ⟨hadv, -⟩ := advance_more (s := State.emit { s.tick.hostMeanwhile with
      st := { s.tick.hostMeanwhile.st with rstLine := l } } (.rst l)) hpu
    rw [hstep, State.runMicro, State.runRst, hadv]
    simp only [State.emit, hu.st, hu.wt, hu.sq, sq']
  · rintro ms rfl
    obtain ⟨f, k, j, hdelay, hfloor⟩ := delay_keeps s.tick.hostMeanwhile.env ms
    obtain ⟨hadv, -⟩ := advance_more (s := State.emit { s.tick.hostMeanwhile with
      env := s.tick.hostMeanwhile.env.delay ms } (.delay ms)) hpu
    refine ⟨f, k, j, ?_, fun hread => ?_⟩
    · rw [hstep, State.runMicro, State.runDelay, hadv, hdelay]
      simp only [State.emit, hu.wt, hu.sq, sq']
    · rw [hostMeanwhile_env] at hfloor
      exact hfloor hread
  · rintro d rfl
    obtain ⟨hadv, -⟩ := advance_more (s := { s.tick.hostMeanwhile with
      st := { s.tick.hostMeanwhile.st with dstate := d } }) hpu
    rw [hstep, State.runMicro, State.runSetState, hadv]
    simp only [hu.st, hu.sq, sq']

/-! ### The stream (44_wire_commands.md R265, 93_implementation_defined.md I13) -/

theorem afterMoves_add (j k : Nat) (s : State) :
    State.afterMoves (j + k) s = State.afterMoves k (State.afterMoves j s) := by
  induction j generalizing s with
  | zero => rw [Nat.zero_add]; rfl
  | succ j ih => rw [Nat.succ_add]; exact ih s.hostMeanwhile

@[simp] theorem afterMoves_par (k : Nat) (s : State) : (State.afterMoves k s).par = s.par := by
  induction k generalizing s with
  | zero => rfl
  | succ k ih => exact (ih _).trans (hostMeanwhile_par s)

/-- A state whose memory and host are those of `s` after `j` moves holds `k` moves on what `s` holds after `j + k`. -/
theorem heldAt_afterMoves {s u : State} {j : Nat} (hp : u.par = s.par) (hm : u.mem = (State.afterMoves j s).mem)
    (hh : u.env.host = (State.afterMoves j s).env.host) (k a : Nat) : u.heldAt k a = s.heldAt (j + k) a := by
  rw [← afterMoves_read, ← afterMoves_read, afterMoves_add]
  exact congrArg (Memory.read · a) (afterMoves_congr k (by simp [hp]) hm hh).1

/-- After the host's move in a step, memory holds `k` moves on what it holds after `k + 1`. -/
theorem heldAt_meanwhile (s : State) (k a : Nat) : s.tick.hostMeanwhile.heldAt k a = s.heldAt (k + 1) a :=
  heldAt_succ (s := s.tick) (hostMeanwhile_par _) rfl (by rw [hostMeanwhile_env]) k a

/-- The events of a stream that starts after the host's move in a step. -/
theorem streamedBytes_events (s : State) (q : Addr) (n : Nat) :
    (List.range n).map (fun i => Event.data (s.tick.hostMeanwhile.heldAt (i + 1) (q.toNat + i))) =
      (s.streamedBytes q n).map .data := by
  unfold State.streamedBytes
  rw [List.map_map]
  refine List.map_congr_left fun i _ => ?_
  rw [heldAt_meanwhile]
  rfl

/-- The sends of a stream are those of its first bytes, then those of the others. -/
theorem sendBytes_add (j k a : Nat) (s : State) : State.sendBytes (j + k) a s =
    (State.sendBytes j a s).bind (State.sendBytes k (a + j)) := by
  induction j generalizing a s with
  | zero => rw [Nat.zero_add]; rfl
  | succ j ih =>
    rw [Nat.succ_add]
    simp only [State.sendBytes]
    cases s.sendByteAt a with
    | error t => rfl
    | ok t =>
      simp only [ih, show a + 1 + j = a + (j + 1) by omega]

/-- A stream whose draw for byte `j` is the first to fail: the bytes before it are sent, and its own is recorded as
memory holds it when it is read. -/
theorem sendBytes_fail {n j : Nat} (a : Nat) {s : State} {xs : List Bool} (hj : j < n)
    (hx : s.env.xferIn = List.replicate j true ++ false :: xs) :
    State.sendBytes n a s = .error (State.transportFail { s with
      mem := (State.afterMoves (j + 1) s).mem
      env := { s.env with xferIn := xs, host := (State.afterMoves (j + 1) s).env.host }
      wt := s.wt ++ (List.range j).map fun i => .data (s.heldAt (i + 1) (a + i)) }
      .data (s.heldAt (j + 1) (a + j))) := by
  obtain ⟨r, rfl⟩ : ∃ r, n = j + (r + 1) := ⟨n - j - 1, by omega⟩
  rw [sendBytes_add, sendBytes_ok j a s _ hx]
  generalize hu : ({ s with
      mem := (State.afterMoves j s).mem
      env := { s.env with xferIn := false :: xs, host := (State.afterMoves j s).env.host }
      wt := s.wt ++ (List.range j).map fun i => .data (s.heldAt (i + 1) (a + i)) } : State) = u
  have hup : u.par = s.par := by rw [← hu]
  have hum : u.mem = (State.afterMoves j s).mem := by rw [← hu]
  have huh : u.env.host = (State.afterMoves j s).env.host := by rw [← hu]
  have hdraw : u.hostMeanwhile.env.xferIn = false :: xs := by rw [hostMeanwhile_env, ← hu]
  have hread : Memory.read u.hostMeanwhile.mem (a + j) = s.heldAt (j + 1) (a + j) := by
    rw [← heldAt_afterMoves hup hum huh]
    exact afterMoves_read 1 u (a + j)
  obtain ⟨hmem, hhost⟩ : u.hostMeanwhile.mem = (State.afterMoves (j + 1) s).mem ∧
      u.hostMeanwhile.env.host = (State.afterMoves (j + 1) s).env.host := by
    rw [afterMoves_add]
    exact afterMoves_congr 1 (by simp [hup]) hum huh
  simp only [Except.bind, State.sendBytes, State.sendByteAt, send_fail (drawXfer_fixed hdraw), hread]
  rw [← hmem, ← hhost, hostMeanwhile_env, hostMeanwhile_eq, ← hu]

/-- A step whose micro-action is a stream within memory, with sends that succeed. -/
theorem step_stream_ok {s : State} {q : Addr} {n : Nat} {rest : List Micro} {xs : List Bool}
    (ha : s.sq.reqActive = true) (hr : s.resetAsserted = false) (hp : s.pending = .stream q n :: rest)
    (hfit : n = 0 ∨ q.toNat + n ≤ s.par.memSize) (hx : s.env.xferIn = List.replicate n true ++ xs) :
    ∃ t, step s = .next t ∧ t.wt = s.wt ++ (s.streamedBytes q n).map Event.data ∧ t.el = s.el ∧
      (∀ a, Memory.read t.mem a = s.heldAt (n + 1) a) ∧ t.env.xferIn = xs ∧
      (rest ≠ [] → t.pending = rest ∧ t.st = s.st) := by
  have hu := hostMoved_meanwhile s
  have hbytes := streamedBytes_events s q n
  have hheld := heldAt_meanwhile s n
  have hxu : s.tick.hostMeanwhile.env.xferIn = List.replicate n true ++ xs := by
    rw [hostMeanwhile_env]
    exact hx
  have hstep := step_micro_host hr ha hp
  generalize s.tick.hostMeanwhile = u at hu hbytes hheld hxu hstep
  have hfits : streamFits u.par q n = true := (streamFits_iff _ _ _).2 (hu.par ▸ hfit)
  rw [State.runMicro, State.runStream, if_pos hfits, sendBytes_ok n q.toNat u xs hxu, hbytes] at hstep
  refine ⟨_, hstep, ?_, ?_, fun a => ?_, ?_, fun hne => ?_⟩
  · simp [completeSends, hu.wt]
  · simp [completeSends, hu.el]
  · simpa [completeSends] using (afterMoves_read n u a).trans (hheld a)
  · simp [completeSends]
  · obtain ⟨hmore, -⟩ := advance_rest (s := { u with
      mem := (State.afterMoves n u).mem
      env := { u.env with xferIn := xs, host := (State.afterMoves n u).env.host }
      wt := u.wt ++ (s.streamedBytes q n).map Event.data }) (hu.sq ▸ ha) (hu.pending.trans hp)
    obtain ⟨hpend, -, -, hst⟩ := hmore hne
    exact ⟨hpend, hst.trans hu.st⟩

/-- A step whose micro-action is a stream within memory, the send of byte `j` the first to fail. -/
theorem step_stream_fail {s : State} {q : Addr} {n j : Nat} {rest : List Micro} {xs : List Bool}
    (ha : s.sq.reqActive = true) (hr : s.resetAsserted = false) (hp : s.pending = .stream q n :: rest)
    (hfit : q.toNat + n ≤ s.par.memSize) (hj : j < n)
    (hx : s.env.xferIn = List.replicate j true ++ false :: xs) :
    ∃ t, step s = .next t ∧
      t.wt = s.wt ++ (s.streamedBytes q j).map Event.data ++
        [Event.xferFail .data (s.heldAt (j + 2) (q.toNat + j))] ∧
      t.el = s.el ++ [s.entry .transportFailure] ∧ t.st.halted = true ∧ t.st.result = .transportFailure ∧
      t.sq.reqActive = false ∧ ∀ a, Memory.read t.mem a = s.heldAt (j + 2) a := by
  have hu := hostMoved_meanwhile s
  have hbytes := streamedBytes_events s q j
  have hheld := heldAt_meanwhile s (j + 1)
  have hxu : s.tick.hostMeanwhile.env.xferIn = List.replicate j true ++ false :: xs := by
    rw [hostMeanwhile_env]
    exact hx
  have hstep := step_micro_host hr ha hp
  generalize s.tick.hostMeanwhile = u at hu hbytes hheld hxu hstep
  have hfits : streamFits u.par q n = true := (streamFits_iff _ _ _).2 (.inr (hu.par ▸ hfit))
  rw [State.runMicro, State.runStream, if_pos hfits, sendBytes_fail q.toNat hj hxu, hbytes, hheld] at hstep
  refine ⟨_, hstep, ?_, ?_, rfl, rfl, rfl, fun a => ?_⟩
  · simp [completeSends, hu.wt]
  · simp [completeSends, hu.el, State.reqOpcode, State.entry, hu.sq]
  · exact (afterMoves_read (j + 1) u a).trans (hheld a)

/-- A step whose micro-action is a stream past the end of memory. -/
theorem step_stream_overrun {s : State} {q : Addr} {n : Nat} {rest : List Micro}
    (ha : s.sq.reqActive = true) (hr : s.resetAsserted = false) (hp : s.pending = .stream q n :: rest)
    (hn : 0 < n) (hover : s.par.memSize < q.toNat + n) :
    ∃ t, step s = .next t ∧ t.wt = s.wt ∧ (∀ a, Memory.read t.mem a = s.heldAt 1 a) ∧
      t.st = { s.st with fault := .bufferOverrun } ∧ t.sq.reqActive = false := by
  have hu := hostMoved_meanwhile s
  have hfits : ¬ streamFits s.tick.hostMeanwhile.par q n = true := by
    rw [hu.par, streamFits_iff]
    omega
  have hstep := step_micro_host hr ha hp
  rw [State.runMicro, State.runStream, if_neg hfits] at hstep
  exact ⟨_, hstep, hu.wt, (met_meanwhile s).held, by rw [raiseFault_st, hu.st], rfl⟩

/-- Settles O48, a clause for each way a stream ends; a host that keeps its duty makes no move. -/
theorem streamSendsMemory : Obligations.StreamSendsMemory := by
  intro s q n rest ha hr hp
  refine ⟨fun hfit xs hx => step_stream_ok ha hr hp hfit hx,
    fun hfit j xs hj hx => step_stream_fail ha hr hp hfit hj hx,
    fun hn hover => step_stream_overrun ha hr hp hn hover, fun hh => ⟨?_, heldAt_waits hh⟩⟩
  exact List.map_congr_left fun i _ => heldAt_waits hh _ _

end Sys2Proof.Machine
end

section
/-! PROOFS. The two waits: how each ends, and that the timed wait ends whatever the draws. -/

namespace Sys2Proof.Machine

/-! ### What a wait leaves when it ends -/

@[simp] theorem waited_par (s : State) (b : Bool) (r : ResultCode) : (s.waited b r).par = s.par := rfl
@[simp] theorem waited_cv (s : State) (b : Bool) (r : ResultCode) : (s.waited b r).cv = s.cv := rfl
@[simp] theorem waited_sq (s : State) (b : Bool) (r : ResultCode) : (s.waited b r).sq = { s.sq with wr := r } := rfl
@[simp] theorem waited_st (s : State) (b : Bool) (r : ResultCode) :
    (s.waited b r).st = { s.st with maybeBusy := b } := rfl
@[simp] theorem waited_mem (s : State) (b : Bool) (r : ResultCode) : (s.waited b r).mem = s.mem := rfl
@[simp] theorem waited_wt (s : State) (b : Bool) (r : ResultCode) : (s.waited b r).wt = s.wt := rfl
@[simp] theorem waited_el (s : State) (b : Bool) (r : ResultCode) : (s.waited b r).el = s.el := rfl
@[simp] theorem waited_env (s : State) (b : Bool) (r : ResultCode) : (s.waited b r).env = s.env := rfl

theorem pending_congr {s t : State} (h : t.sq = s.sq) : t.pending = s.pending :=
  pending_of_sq (by rw [h]) (by rw [h])

/-- A wait that ends goes on to what is left of the sequence or, with nothing left, ends the request with its result. -/
theorem waited_advance {s : State} {m : Micro} {rest : List Micro} (b : Bool) (r : ResultCode)
    (ha : s.sq.reqActive = true) (hp : s.pending = m :: rest) :
    (rest ≠ [] → (s.waited b r).advance.pending = rest ∧ (s.waited b r).advance.sq.reqActive = true ∧
      (s.waited b r).advance.sq.wr = r ∧ (s.waited b r).advance.st = { s.st with maybeBusy := b }) ∧
    (rest = [] → (s.waited b r).advance.sq.reqActive = false ∧
      (s.waited b r).advance.st = { s.st with maybeBusy := b, result := r }) :=
  advance_rest (s := s.waited b r) ha hp

/-! ### The untimed wait (44_wire_commands.md R270) -/

/-- An untimed wait while the busy line reads busy: the step that begins it, then its polls. -/
theorem run_waitIdle_busy {s : State} {rest : List Micro} (k : Nat) {bs : List Bool} (hr : s.NoReset)
    (hh : s.HostWaits) (ha : s.sq.reqActive = true) (hp : s.pending = .waitIdle :: rest) (hw : s.sq.waiting = false)
    (hb : s.env.busyIn = List.replicate k true ++ bs) :
    ∃ t, runSteps (k + 1) s = .next t ∧ Moved s t (List.replicate k (.poll true)) s.st ∧
      PolledOnly s t bs s.env.clockIn ∧
      t.pending = s.pending ∧ t.sq.reqActive = true ∧ t.sq.waiting = true ∧ t.sq.wr = s.sq.wr := by
  obtain ⟨u, hstep, hmoved, hpolled, hpend, hact, hwait, hwr⟩ := step_waitIdle_enter hr hh ha hp hw
  obtain ⟨t, hrun, hmoved', hpolled', hpend', hact', hwait', hwr'⟩ := run_waitIdle_polls k hmoved.noReset
    (hmoved.waits hh) hact (hpend.trans hp) hwait (hpolled.busyIn.trans hb)
  rw [hmoved.st] at hmoved'
  rw [hpolled.clockIn] at hpolled'
  exact ⟨t, (runSteps_succ k hstep).trans hrun, hmoved.trans hmoved', hpolled.trans hpolled', hpend'.trans hpend,
    hact', hwait', hwr'.trans hwr⟩

/-- The poll of an untimed wait that reads not busy, whatever is left of the sequence. -/
theorem step_waitIdle_ends {s : State} {rest : List Micro} {bs : List Bool} (hr : s.NoReset) (hh : s.HostWaits)
    (ha : s.sq.reqActive = true) (hp : s.pending = .waitIdle :: rest) (hw : s.sq.waiting = true)
    (hb : s.env.busyIn = false :: bs) :
    ∃ t : State, step s = .next (t.waited false s.sq.wr).advance ∧ t.wt = s.wt ++ [.poll false] ∧ t.el = s.el ∧
      t.st = s.st ∧ t.sq = s.sq := by
  have hd : s.tick.env.drawBusy = (false, { s.tick.env with busyIn := bs }) := drawBusy_fixed (e := s.tick.env) hb
  refine ⟨s.tick.polled, ?_, ?_, rfl, rfl, rfl⟩
  · rw [step_micro hr hh ha hp, ← exitWait_eq]
    exact congrArg _ (waitIdle_exit (s := s.tick) hw (by rw [hd]))
  · rw [polled_wt, hd]
    rfl

/-- Settles O45: the wait's busy polls, and the poll that ends it. -/
theorem untimedWait : Obligations.UntimedWait := by
  intro s rest k bs hr hh ha hw hp hb
  obtain ⟨u, hrun, hmoved, hpolled, hpend, hact, hwait, hwr⟩ := run_waitIdle_busy k hr hh ha hp hw hb
  refine ⟨⟨u, hrun, hpend, hact, hmoved.wt, hmoved.el, hmoved.st, hmoved.cv, hmoved.mem, hpolled.clockIn,
    hpolled.nClock⟩, ?_⟩
  rintro bs' rfl
  obtain ⟨t, hstep, hwt, hel, hst, hsq⟩ := step_waitIdle_ends hmoved.noReset (hmoved.waits hh) hact
    (hpend.trans hp) hwait hpolled.busyIn
  obtain ⟨hmore, hlast⟩ := waited_advance (s := t) (rest := rest) false u.sq.wr (hsq ▸ hact)
    ((pending_congr hsq).trans (hpend.trans hp))
  rw [hst, hmoved.st] at hmore hlast
  rw [hwr] at hmore hlast hstep
  refine ⟨_, (runSteps_add 1 hrun).trans (runSteps_succ 0 hstep), ?_, ?_, ?_, fun hne => ?_, hlast⟩
  · simp [hwt, hmoved.wt]
  · simp [hel, hmoved.el]
  · rcases eq_or_ne rest [] with he | hne
    · obtain ⟨-, hst'⟩ := hlast he
      rw [hst']
    · obtain ⟨-, -, -, hst'⟩ := hmore hne
      rw [hst']
  · obtain ⟨hpend', hact', -, hst'⟩ := hmore hne
    exact ⟨hpend', hact', hst'⟩

/-! ### The timed wait with fixed draws (44_wire_commands.md R271) -/

/-- A timed wait while the busy line reads busy and the clock is below the budget: the step that begins it, then its
polls. -/
theorem run_waitTimed_busy {s : State} {rest : List Micro} {budget d0 : Nat} (ds : List Nat) {bs : List Bool}
    {cs : List Nat} (hr : s.NoReset) (hh : s.HostWaits) (ha : s.sq.reqActive = true)
    (hp : s.pending = .waitIdleTimed budget :: rest) (hw : s.sq.waiting = false)
    (hb : s.env.busyIn = List.replicate ds.length true ++ bs) (hc : s.env.clockIn = d0 :: (ds ++ cs))
    (hlt : ds = [] ∨ ds.sum < budget) :
    ∃ t, runSteps (ds.length + 1) s = .next t ∧ Moved s t (List.replicate ds.length (.poll true)) s.st ∧
      PolledOnly s t bs cs ∧ t.pending = s.pending ∧ t.sq.reqActive = true ∧ t.sq.waiting = true ∧
      t.sq.waitT0 = s.env.clockFloor + d0 ∧ (t.env.clockFloor : Int) - t.sq.waitT0 = ds.sum := by
  obtain ⟨u, hstep, hmoved, hpolled, hpend, hact, hwait, ht0, hfloor⟩ := step_waitTimed_enter hr hh ha hp hw hc
  have hlt' : ds = [] ∨ (u.env.clockFloor : Int) + ds.sum - u.sq.waitT0 < budget := hlt.imp_right fun h => by
    rw [ht0, hfloor]
    omega
  obtain ⟨t, hrun, hmoved', hpolled', hpend', hact', hwait', ht0', hfloor'⟩ := run_waitTimed_polls ds hmoved.noReset
    (hmoved.waits hh) hact (hpend.trans hp) hwait (hpolled.busyIn.trans hb) hpolled.clockIn hlt'
  rw [hmoved.st] at hmoved'
  refine ⟨t, (runSteps_succ _ hstep).trans hrun, hmoved.trans hmoved', hpolled.trans hpolled', hpend'.trans hpend,
    hact', hwait', ht0'.trans ht0, ?_⟩
  rw [ht0', hfloor', ht0, hfloor]
  omega

/-- A timed wait that times out, up to the advance of `MPC`. -/
theorem run_waitTimed_timeout {s : State} {rest : List Micro} {budget d0 d : Nat} (ds : List Nat) {bs : List Bool}
    {cs : List Nat} (hr : s.NoReset) (hh : s.HostWaits) (ha : s.sq.reqActive = true)
    (hp : s.pending = .waitIdleTimed budget :: rest) (hw : s.sq.waiting = false)
    (hb : s.env.busyIn = List.replicate (ds.length + 1) true ++ bs) (hc : s.env.clockIn = d0 :: (ds ++ d :: cs))
    (hlt : ds = [] ∨ ds.sum < budget) (hge : budget ≤ ds.sum + d) :
    ∃ t, runSteps (ds.length + 2) s = .next ((t.log .timeout).waited true .timeout).advance ∧
      Moved s t (List.replicate (ds.length + 1) (.poll true)) s.st ∧ PolledOnly s t bs cs ∧
      t.pending = s.pending ∧ t.sq.reqActive = true ∧ t.sq.waitT0 = s.env.clockFloor + d0 := by
  rw [List.replicate_succ', List.append_assoc] at hb
  obtain ⟨u, hrun, hmoved, hpolled, hpend, hact, hwait, ht0, hfloor⟩ :=
    run_waitTimed_busy ds hr hh ha hp hw hb hc hlt
  obtain ⟨t, hstep, hmoved', hpolled', hsq⟩ := step_waitTimed_timeout hmoved.noReset (hmoved.waits hh) hact
    (hpend.trans hp) hwait hpolled.busyIn hpolled.clockIn (by omega)
  rw [hmoved.st] at hmoved'
  refine ⟨t, (runSteps_add 1 hrun).trans (runSteps_succ 0 hstep), ?_, hpolled.trans hpolled',
    (pending_congr hsq).trans hpend, hsq ▸ hact, hsq ▸ ht0⟩
  rw [List.replicate_succ']
  exact hmoved.trans hmoved'

/-! ### The timed wait with any draws (10_state.md R34 (c)) -/

/-- How far a timed wait is from its end at the latest: by how much the clock's bound is below the budget, then how many
more draws may stand still. -/
def State.waitRank (s : State) (budget : Nat) : ℕ ×ₗ ℕ :=
  toLex ((s.sq.waitT0 + budget - s.env.clockFloor).toNat, s.env.patience)

/-- The state after a poll of a timed wait that reads busy, the clock read after the busy line
(44_wire_commands.md R271). -/
def State.polledBusy (s : State) : State := { s.polled with env := s.polled.env.drawClock.2 }

/-- A poll that leaves the clock below the budget brings the end of a timed wait nearer: the clock has advanced, or has
lost patience. -/
theorem waitRank_again_lt {s : State} {budget : Nat}
    (hc : ¬ (budget : Int) ≤ (s.polled.env.drawClock.1 : Int) - s.sq.waitT0) :
    s.polledBusy.waitRank budget < s.waitRank budget := by
  obtain ⟨l, n, hkeeps⟩ := drawBusy_keeps s.env
  have hfloor : s.polled.env.clockFloor = s.env.clockFloor := by rw [polled_env, hkeeps]
  have hpatience : s.polled.env.patience = s.env.patience := by rw [polled_env, hkeeps]; rfl
  have hdrawn : s.polled.env.drawClock.2.clockFloor = s.polled.env.drawClock.1 := rfl
  rw [State.waitRank, State.waitRank, Prod.Lex.toLex_lt_toLex]
  dsimp only [State.polledBusy, polled_sq]
  rcases drawClock_progress s.polled.env with h | ⟨h, h'⟩
  · left
    omega
  · right
    exact ⟨by rw [h, hfloor], hpatience ▸ h'⟩

/-- A poll of a timed wait ends it or, the clock still below the budget, brings its end nearer. -/
theorem step_waitTimed_poll {s : State} {rest : List Micro} {budget : Nat} (hr : s.NoReset) (hh : s.HostWaits)
    (ha : s.sq.reqActive = true) (hp : s.pending = .waitIdleTimed budget :: rest) (hw : s.sq.waiting = true) :
    (∃ (t : State) (mb : Bool) (wr : ResultCode), step s = .next (t.waited mb wr).advance ∧
      t.sq = s.sq ∧ (wr = .ok ∨ wr = .timeout)) ∨
    (∃ t : State, step s = .next t ∧ t.NoReset ∧ t.HostWaits ∧ t.sq = s.sq ∧
      t.waitRank budget < s.waitRank budget) := by
  have hstep := step_micro hr hh ha hp
  rw [State.runMicro] at hstep
  rcases waitTimed_cases s.tick budget with ⟨h, -⟩ | ⟨-, -, h⟩ | ⟨-, -, hc, h⟩ | ⟨-, -, -, h⟩
  · exact absurd (hw.symm.trans h) (by decide)
  · exact .inl ⟨s.tick.polled, false, .ok, by rw [hstep, h, exitWait_eq], rfl, .inl rfl⟩
  · have hel := (drawBusy_elapsed s.par s.tick.env s.mem).trans (drawClock_elapsed s.par s.tick.env.drawBusy.2 s.mem)
    have hreset : s.tick.polledBusy.env.resetIn = s.env.resetIn.tail := hel.resetIn
    exact .inr ⟨s.tick.polledBusy, by rw [hstep, h]; rfl, fun b hb => noReset_tail hr b (hreset ▸ hb),
      hostWaits_of_host hh (hel.waits hh).1, rfl, waitRank_again_lt hc⟩
  · exact .inl ⟨s.tick.polledBusy.log .timeout, true, .timeout, by rw [hstep, h, exitWait_eq]; rfl, rfl, .inr rfl⟩

/-- A timed wait that has begun ends. -/
theorem waitTimed_ends {rest : List Micro} {budget : Nat} {s : State} (hr : s.NoReset) (hh : s.HostWaits)
    (ha : s.sq.reqActive = true) (hp : s.pending = .waitIdleTimed budget :: rest) (hw : s.sq.waiting = true) :
    ∃ (n : Nat) (t : State) (mb : Bool) (wr : ResultCode), runSteps n s = .next (t.waited mb wr).advance ∧
      t.sq = s.sq ∧ (wr = .ok ∨ wr = .timeout) := by
  induction hk : s.waitRank budget using WellFoundedLT.induction generalizing s with
  | _ k ih =>
    rcases step_waitTimed_poll hr hh ha hp hw with ⟨t, mb, wr, hstep, hsq, hwr⟩ | ⟨u, hstep, hr', hh', hsq, hlt⟩
    · exact ⟨1, t, mb, wr, runSteps_succ 0 hstep, hsq, hwr⟩
    · obtain ⟨n, t, mb, wr, hrun, hsq', hwr⟩ := ih _ (hk ▸ hlt) hr' hh' (hsq ▸ ha)
        ((pending_congr hsq).trans hp) (hsq ▸ hw) rfl
      exact ⟨n + 1, t, mb, wr, (runSteps_succ n hstep).trans hrun, hsq'.trans hsq, hwr⟩

/-- Settles O46: the two exits after the busy polls below the budget, and an end by the rank that every other poll
lowers. -/
theorem timedWait : Obligations.TimedWait := by
  intro s rest budget d0 ds hr hh ha hw hp
  refine ⟨fun bs cs hb hc hlt => ?_, fun d bs cs hb hc hlt hge => ?_, ?_⟩
  · obtain ⟨u, hrun, hmoved, hpolled, hpend, hact, hwait, ht0, -⟩ := run_waitTimed_busy ds hr hh ha hp hw hb hc hlt
    obtain ⟨t, hstep, hmoved', -, hsq⟩ := step_waitTimed_exit hmoved.noReset (hmoved.waits hh) hact (hpend.trans hp)
      hwait hpolled.busyIn
    obtain ⟨hmore, hlast⟩ := waited_advance (s := t) (rest := rest) false .ok (hsq ▸ hact)
      ((pending_congr hsq).trans (hpend.trans hp))
    rw [hmoved'.st, hmoved.st] at hmore hlast
    exact ⟨_, (runSteps_add 1 hrun).trans (runSteps_succ 0 hstep), by simp [hmoved'.wt, hmoved.wt],
      by simp [hmoved'.el, hmoved.el], by simp [hsq, ht0], hmore, hlast⟩
  · obtain ⟨t, hrun, hmoved, -, hpend, hact, ht0⟩ := run_waitTimed_timeout ds hr hh ha hp hw hb hc hlt hge
    obtain ⟨hmore, hlast⟩ := waited_advance (s := t.log .timeout) (rest := rest) true .timeout hact (hpend.trans hp)
    rw [log_st, hmoved.st] at hmore hlast
    exact ⟨_, hrun, by simp [hmoved.wt], by simp [hmoved.el, State.reqOpcode, State.entry, hmoved.req], by simp [ht0],
      hmore, hlast⟩
  · obtain ⟨u, hstep, hmoved, -, -, hpend, hact, hwait⟩ := step_waitTimed_enter_free hr hh ha hp hw
    obtain ⟨n, t, mb, wr, hrun, hsq, hwr⟩ := waitTimed_ends hmoved.noReset (hmoved.waits hh) hact
      (hpend.trans hp) hwait
    obtain ⟨hmore, hlast⟩ := waited_advance (s := t) (rest := rest) mb wr (hsq ▸ hact)
      ((pending_congr hsq).trans (hpend.trans hp))
    refine ⟨n + 1, _, (runSteps_succ n hstep).trans hrun, fun hne => ?_, fun he => ?_⟩
    · obtain ⟨hpend', hact', hwr', -⟩ := hmore hne
      exact ⟨hpend', hact', hwr'.symm ▸ hwr⟩
    · obtain ⟨hend, hst⟩ := hlast he
      exact ⟨hend, hst ▸ hwr⟩

end Sys2Proof.Machine
end

section
/-! PROOFS. A refresh whose budget runs out: its sequence up to the timed wait is plain micro-actions, its timed wait
times out, and it goes on (45_protocol_ops.md R305, R310, R315, R331). -/

namespace Sys2Proof.Machine

/-! ### What a refresh does before its timed wait -/

/-- A plain micro-action sends as many bytes as it says. -/
theorem microEvents_sent (mem : Memory) (m : Micro) : (microEvents mem m).countP isSent = microSends m := by
  cases m with
  | stream q n =>
    have hall : ((imageBytes mem q n).map Event.data).countP isSent = ((imageBytes mem q n).map Event.data).length :=
      List.countP_eq_length.2 (by simp [isSent])
    rw [microEvents, hall]
    simp [microSends, imageBytes]
  | _ => rfl

theorem flatMap_microEvents_sent (mem : Memory) (ms : List Micro) :
    (ms.flatMap (microEvents mem)).countP isSent = (ms.map microSends).sum := by
  rw [List.countP_flatMap]
  exact congrArg List.sum (List.map_congr_left fun m _ => microEvents_sent mem m)

/-- The end of a refresh up to its timed wait. -/
def updateStart (p : Params) (upd : Byte) : List Micro :=
  encodeWire p (.cmdUpdCtrl2 upd) ++ encodeWire p .cmdMasterAct ++ [.setState .busy]

theorem refreshTail_eq (p : Params) (upd : Byte) (budget : Nat) :
    refreshTail p upd budget = updateStart p upd ++ [.waitIdleTimed budget, .setState .idle] := rfl

/-- The micro-actions of a refresh up to its timed wait; `exec_refresh` ties them to its sequence. -/
def refreshPrefix (p : Params) : Instr → List Micro
  | .refreshFull image =>
    (if p.fullResetsCounters then counterReset p else []) ++ encodeWire p (.cmdWriteRam image p.panelBytes) ++
    updateStart p p.upd2Full
  | .refreshPartial x y w h sub =>
    [.setState .partialLocked] ++ resetPulse p.tRstLowP p.tRstWaitP ++ encodeWire p (.cmdBorder p.borderLock) ++
    windowCommands p (window p.panelH x.toNat y.toNat w.toNat h.toNat) ++
    encodeWire p (.cmdWriteRam sub (subBufferBytes w h)) ++ updateStart p p.upd2Part
  | .refreshFast image =>
    (if p.fastWritesRam then encodeWire p (.cmdWriteRam image p.panelBytes) else []) ++ updateStart p p.upd2Fast
  | _ => []

section
variable {p : Params} {i : Instr} {budget : Nat} (hi : refreshBudget p i = some budget)
include hi

/-- Before its timed wait a refresh waits for nothing, and its stream stays in memory. -/
theorem refreshPrefix_plain (hfit : ∀ q n, streamOf p i = some (q, n) → n = 0 ∨ q.toNat + n ≤ p.memSize) :
    (refreshPrefix p i).all (microPlain p) = true := by
  cases i <;> cases hi
  case refreshFull image =>
    have hf := (streamFits_iff p image p.panelBytes).2 (hfit _ _ rfl)
    cases hc : p.fullResetsCounters <;>
      simp [refreshPrefix, updateStart, counterReset, encodeWire, microPlain, hc, hf]
  case refreshPartial x y w h sub =>
    have hf := (streamFits_iff p sub (subBufferBytes w h)).2 (hfit _ _ rfl)
    simp [refreshPrefix, updateStart, resetPulse, windowCommands, encodeWire, microPlain, hf]
  case refreshFast image =>
    cases hw : p.fastWritesRam with
    | false => simp [refreshPrefix, updateStart, encodeWire, microPlain, hw]
    | true =>
      have hf := (streamFits_iff p image p.panelBytes).2 (hfit _ _ (by simp [streamOf, hw]))
      simp [refreshPrefix, updateStart, encodeWire, microPlain, hw, hf]

theorem refreshPrefix_events (mem : Memory) :
    (refreshPrefix p i).flatMap (microEvents mem) = refreshEvents p mem i := by
  cases i <;> cases hi
  case refreshFull image =>
    cases hc : p.fullResetsCounters <;>
      simp [refreshPrefix, updateStart, counterReset, encodeWire, microEvents, refreshEvents, wireEvents, hc]
  case refreshPartial x y w h sub =>
    simp [refreshPrefix, updateStart, resetPulse, windowCommands, subBufferBytes, encodeWire, microEvents,
      refreshEvents, wireEvents]
  case refreshFast image =>
    cases hw : p.fastWritesRam <;>
      simp [refreshPrefix, updateStart, encodeWire, microEvents, refreshEvents, wireEvents, hw]

theorem refreshPrefix_status (st : Status) : (refreshPrefix p i).foldl microStatus st =
    { st with dstate := .busy, rstLine := lineAfterRefresh st.rstLine i } := by
  cases i <;> cases hi
  case refreshFull image =>
    cases hc : p.fullResetsCounters <;>
      simp [refreshPrefix, updateStart, counterReset, encodeWire, microStatus, lineAfterRefresh, hc]
  case refreshPartial x y w h sub => rfl
  case refreshFast image =>
    cases hw : p.fastWritesRam <;>
      simp [refreshPrefix, updateStart, encodeWire, microStatus, lineAfterRefresh, hw]

/-- Two steps of the timed wait and the return to `Idle` are the rest of a refresh. -/
theorem refreshPrefix_length : (refreshPrefix p i).length + 3 = refreshSteps p i := by
  cases i <;> cases hi
  case refreshFull image =>
    cases hc : p.fullResetsCounters <;>
      simp [refreshPrefix, updateStart, counterReset, encodeWire, refreshSteps, hc]
  case refreshPartial x y w h sub => rfl
  case refreshFast image =>
    cases hw : p.fastWritesRam <;> simp [refreshPrefix, updateStart, encodeWire, refreshSteps, hw]

end

/-- A refresh admitted in `Idle` starts its sequence, which ends with the timed wait and the return to `Idle`
(45_protocol_ops.md R305, R310, R315). -/
theorem exec_refresh {s : State} {i : Instr} {budget : Nat} (hi : refreshBudget s.par i = some budget)
    (hd : s.st.dstate = .idle)
    (hfit : ∀ q n, streamOf s.par i = some (q, n) → n = 0 ∨ q.toNat + n ≤ s.par.memSize) :
    exec i s = .next (s.startSeq (refreshPrefix s.par i ++ [.waitIdleTimed budget, .setState .idle])) := by
  cases i <;> cases hi
  case refreshFull image =>
    have hf := (streamFits_iff s.par image s.par.panelBytes).2 (hfit _ _ rfl)
    refine (admitIdle_idle hd _ _).trans ?_
    rw [if_pos hf, refreshFullSeq, refreshTail_eq, ← List.append_assoc]
    rfl
  case refreshPartial x y w h sub =>
    have hf := (streamFits_iff s.par sub (subBufferBytes w h)).2 (hfit _ _ rfl)
    refine (admitIdle_idle hd _ _).trans ?_
    rw [if_pos hf, refreshPartialSeq, refreshTail_eq, ← List.append_assoc]
    rfl
  case refreshFast image =>
    have hf : (!s.par.fastWritesRam || streamFits s.par image s.par.panelBytes) = true := by
      cases hw : s.par.fastWritesRam with
      | false => rfl
      | true => exact (streamFits_iff s.par image s.par.panelBytes).2 (hfit _ _ (by simp [streamOf, hw]))
    refine (admitIdle_idle hd _ _).trans ?_
    rw [if_pos hf, refreshFastSeq, refreshTail_eq, ← List.append_assoc]
    rfl

/-! ### The timeout -/

/-- Settles O44: the stretch before the timed wait, the wait, and the return to `Idle`. -/
theorem refreshTimesOut : Obligations.RefreshTimesOut := by
  intro s i budget k xs bs d0 ds d cs hi hk hfit hr hh hd hx hb hc hlt hge
  have hsends : k = ((refreshPrefix s.par i).map microSends).sum := by
    rw [hk, ← refreshPrefix_events hi, flatMap_microEvents_sent]
  obtain ⟨t, hrun, hmoved, hsent, hpend, hact, -, hwait⟩ :=
    run_plain (s := s.startSeq (refreshPrefix s.par i ++ [.waitIdleTimed budget, .setState .idle]))
      (refreshPrefix s.par i) hr hh rfl rfl (refreshPrefix_plain hi hfit) (hsends ▸ hx) rfl
  obtain ⟨u, hrun', hmoved', hpolled, hpend', hact', -⟩ := run_waitTimed_timeout ds hmoved.noReset (hmoved.waits hh)
    hact hpend hwait (hsent.busyIn.trans hb) (hsent.clockIn.trans hc) hlt hge
  rw [hmoved.st, startSeq_st, refreshPrefix_status hi] at hmoved'
  rw [startSeq_mem, refreshPrefix_events hi] at hmoved
  replace hmoved := hmoved.trans hmoved'
  obtain ⟨hmore, -⟩ := waited_advance (s := u.log .timeout) true .timeout hact' (hpend'.trans hpend)
  obtain ⟨hpendw, hactw, hwr, hst⟩ := hmore (by simp)
  have henv : ((u.log .timeout).waited true .timeout).advance.env = u.env := by simp
  have hreset : ((u.log .timeout).waited true .timeout).advance.NoReset := by
    unfold State.NoReset
    rw [henv]
    exact hmoved.noReset
  obtain ⟨v, hstep, hlast, hsent', hended⟩ := step_plain_last (xs := xs) hreset
    (hostWaits_of_host (hmoved.waits hh) (by rw [henv])) hactw hpendw rfl
    (by rw [henv, hpolled.xferIn, hsent.xferIn]; rfl)
  refine ⟨_, v, exec_refresh hi hd hfit, ?_, hsent'.xferIn, by rw [hsent'.busyIn, henv, hpolled.busyIn],
    by rw [hsent'.clockIn, henv, hpolled.clockIn], ?_⟩
  · rw [← refreshPrefix_length hi,
      show (refreshPrefix s.par i).length + 3 + ds.length =
        (refreshPrefix s.par i).length + (ds.length + 2 + 1) by omega,
      runSteps_add _ hrun, runSteps_add _ hrun']
    exact runSteps_succ 0 hstep
  · exact {
      params := by simp [hlast.par, hmoved.par]
      canvas := by simp [hlast.cv, hmoved.cv]
      memory := by simp [hlast.mem, hmoved.mem]
      trace := by simp [hlast.wt, hmoved.wt, microEvents]
      errors := by simp [hlast.el, hmoved.el, State.reqOpcode, State.entry, hmoved.req]
      status := by rw [hlast.st, hst, hwr, log_st, hmoved.st]; rfl
      ended := hended
      request := by simp [hlast.req, hmoved.req]
      host := by rw [hlast.host, henv, hmoved.host, startSeq_env] }

end Sys2Proof.Machine
end

section
/-! PROOFS. The display state: what a step may do to it, and the admission of the protocol requests by it. -/

namespace Sys2Proof.Machine

/-! ### Every change of `DSTATE` (45_protocol_ops.md R325) -/

@[simp] theorem advance_dstate (s : State) : s.advance.st.dstate = s.st.dstate := by
  unfold State.advance; split <;> rfl

/-- The display state stays, or makes a transition of the table (45_protocol_ops.md R325). -/
def Transits (d d' : DState) : Prop := d' = d ∨ legalTransition d d' = true

/-- Of the micro-actions only `SetState` changes the display state, and one that may run does so by the table
(44_wire_commands.md R266). -/
theorem transits_stateAfter {p : Params} {d : DState} {m : Micro} (hm : microOk p d m = true) :
    Transits d (stateAfter d m) := by
  cases m with
  | setState d' => exact .inr hm
  | _ => exact .inl rfl

theorem microStep_transits {s t : State} {m : Micro} (h : MicroStep s m t)
    (hm : microOk s.par s.st.dstate m = true) : Transits s.st.dstate t.st.dstate := by
  cases h with
  | stays t0 es e hw hes he => exact .inl rfl
  | completes mb wr es ls e mem hmb hwr hes he => simpa using transits_stateAfter hm
  | fails k b es e mem hsend hes he => exact .inl rfl
  | overruns q n hq hover => exact .inl rfl

/-- The step that takes a request leaves the display state: a sequence changes it in later steps
(45_protocol_ops.md R290). -/
theorem requestStep_dstate {s t : State} (h : RequestStep s t) : t.st.dstate = s.st.dstate := by
  cases h with
  | ends he =>
    cases he with
    | finishes hu r => exact hu.dstate
    | faults hu hc => exact hu.dstate
  | starts hms hok => rfl

/-- Settles O57, over the cases of a step: what is left of `SEQ` may run, so its first micro-action keeps to the
table. -/
theorem displayStateTransitions : Obligations.DisplayStateTransitions := by
  intro s t hi h
  have stays {d' : DState} (hd : d' = s.st.dstate) : d' = s.st.dstate ∨ legalTransition s.st.dstate d' = true ∨
      (s.resetAsserted = true ∧ d' = .poweredOff) := .inl hd
  cases step_cases h with
  | resets hr => exact .inr (.inr ⟨hr, rfl⟩)
  | micro ha hu hp hm =>
    obtain ⟨-, -, -, hok⟩ := hi.runs ha
    obtain ⟨hmok, -⟩ := seqOk_cons.1 (hp ▸ hok)
    rw [← hu.par, ← hu.st] at hmok
    exact (hu.st ▸ microStep_transits hm hmok).imp_right .inl
  | runsOut ha hu hp => exact stays (by rw [finish_st, hu.st])
  | rests ha ht => exact stays (by rw [ht.st])
  | takes ha hf hh hu ht => exact stays (by rw [requestStep_dstate ht, latch_st, hu.st])

/-! ### Admission (45_protocol_ops.md R291, R292) -/

@[simp] theorem startSeq_pending (s : State) (ms : List Micro) : (s.startSeq ms).pending = ms := rfl

theorem raiseFault_faultedOnly (s : State) (c : FaultCode) : FaultedOnly s (s.raiseFault c) c := rfl

/-- A request that streams needs `Idle`. -/
theorem needsIdle_of_streamOf {p : Params} {i : Instr} {q : Addr} {n : Nat} (h : streamOf p i = some (q, n)) :
    needsIdle i = true := by
  cases i with
  | refreshFull | refreshPartial | refreshFast => rfl
  | _ => cases h

/-- Settles O36: INIT starts without a check, the others as `admitIdle` says. -/
theorem admissionByDisplayState : Obligations.AdmissionByDisplayState := by
  refine ⟨fun s => ⟨_, rfl, rfl, rfl, rfl, rfl, by simp [initSeq]⟩, fun i s hi => ?_⟩
  obtain ⟨fits, ms, he, hms, hfits⟩ := exec_needsIdle (s := s) hi
  refine ⟨fun hd => ?_, fun hd => ?_, fun hd hs => ?_⟩
  · exact ⟨_, he.trans (admitIdle_poweredOff hd _ _), raiseFault_faultedOnly s _⟩
  · exact ⟨_, he.trans (admitIdle_sleeping hd _ _), raiseFault_faultedOnly s _⟩
  · rw [admitIdle_idle hd, if_pos (hfits.2 hs)] at he
    exact ⟨_, he, rfl, rfl, rfl, rfl, hms⟩

/-- Settles O37: the range check of the request fails. -/
theorem streamRangeIsChecked : Obligations.StreamRangeIsChecked := by
  intro i s q n hd hs hn hover
  obtain ⟨fits, ms, he, -, hfits⟩ := exec_needsIdle (s := s) (needsIdle_of_streamOf hs)
  have hnot : ¬ fits = true := fun hf => by
    have := hfits.1 hf q n hs
    omega
  rw [admitIdle_idle hd, if_neg hnot] at he
  exact ⟨_, he, raiseFault_faultedOnly s _⟩

/-- Settles O38. -/
theorem stopsOutsideTheAdmissionTable : Obligations.StopsOutsideTheAdmissionTable := by
  intro i s hi hd
  obtain ⟨fits, ms, he, -, -⟩ := exec_needsIdle (s := s) hi
  exact he.trans (admitIdle_other hd fits ms)

end Sys2Proof.Machine
end

section
/-! PROOFS. What a protocol request sees of the canvas: nothing. With its registers replaced, each step does the same;
and what a step leaves alone. -/

namespace Sys2Proof.Machine

/-! ### The shared operations with the canvas registers replaced (45_protocol_ops.md R290, R333) -/

/-- The canvas registers replaced (10_state.md R38). -/
def State.withCanvas (s : State) (c : Canvas) : State := { s with cv := c }

section
variable (c : Canvas)

@[simp] theorem withCanvas_par (s : State) : (s.withCanvas c).par = s.par := rfl
@[simp] theorem withCanvas_sq (s : State) : (s.withCanvas c).sq = s.sq := rfl
@[simp] theorem withCanvas_env (s : State) : (s.withCanvas c).env = s.env := rfl
@[simp] theorem withCanvas_mem (s : State) : (s.withCanvas c).mem = s.mem := rfl
@[simp] theorem withCanvas_pending (s : State) : (s.withCanvas c).pending = s.pending := rfl

theorem hostWrite_withCanvas (s : State) (a : Nat) (v : Byte) :
    (s.withCanvas c).hostWrite a v = (s.hostWrite a v).withCanvas c := by
  unfold State.hostWrite
  rw [apply_ite (State.withCanvas · c)]
  rfl

theorem hostMeanwhile_withCanvas (s : State) : (s.withCanvas c).hostMeanwhile = s.hostMeanwhile.withCanvas c := by
  unfold State.hostMeanwhile
  rw [withCanvas_env]
  split
  · rfl
  · rfl
  · rfl
  · rfl
  · exact hostWrite_withCanvas c s.popHost _ _

/-- The outcome of sends with the canvas registers replaced. -/
abbrev sendsWithCanvas : Except State State → Except State State :=
  mapBody (State.withCanvas · c) (State.withCanvas · c)

theorem send_withCanvas (s : State) (k : SendKind) (b : Byte) :
    (s.withCanvas c).send k b = sendsWithCanvas c (s.send k b) := by
  unfold State.send
  rw [apply_ite (sendsWithCanvas c)]
  rfl

theorem sendByteAt_withCanvas (s : State) (a : Nat) :
    (s.withCanvas c).sendByteAt a = sendsWithCanvas c (s.sendByteAt a) := by
  simp only [State.sendByteAt, hostMeanwhile_withCanvas, send_withCanvas, withCanvas_mem]

theorem sendBytes_withCanvas (n a : Nat) (s : State) :
    State.sendBytes n a (s.withCanvas c) = sendsWithCanvas c (State.sendBytes n a s) := by
  induction n generalizing a s with
  | zero => rfl
  | succ n ih =>
    simp only [State.sendBytes, sendByteAt_withCanvas]
    cases s.sendByteAt a with
    | ok t => exact ih (a + 1) t
    | error t => rfl

theorem advance_withCanvas (s : State) : (s.withCanvas c).advance = s.advance.withCanvas c := by
  unfold State.advance
  rw [apply_ite (State.withCanvas · c)]
  rfl

theorem exitWait_withCanvas (s : State) (b : Bool) (r : ResultCode) :
    (s.withCanvas c).exitWait b r = (s.exitWait b r).withCanvas c := advance_withCanvas c (s.waited b r)

theorem completeSends_withCanvas (r : Except State State) :
    completeSends (sendsWithCanvas c r) = (completeSends r).withCanvas c := by
  cases r with
  | ok t => exact advance_withCanvas c t
  | error t => rfl

/-! ### The micro-actions with the canvas registers replaced -/

theorem runStream_withCanvas (s : State) (q : Addr) (n : Nat) :
    (s.withCanvas c).runStream q n = (s.runStream q n).withCanvas c := by
  simp only [State.runStream, withCanvas_par, sendBytes_withCanvas, completeSends_withCanvas]
  split <;> rfl

theorem runWaitIdle_withCanvas (s : State) : (s.withCanvas c).runWaitIdle = s.runWaitIdle.withCanvas c := by
  rcases waitIdle_cases s with ⟨hw, h⟩ | ⟨hw, hb, h⟩ | ⟨hw, hb, h⟩ <;> rw [h]
  · exact waitIdle_enter hw
  · exact waitIdle_again hw hb
  · rw [← exitWait_withCanvas]
    exact waitIdle_exit hw hb

theorem runWaitIdleTimed_withCanvas (s : State) (t : Nat) :
    (s.withCanvas c).runWaitIdleTimed t = (s.runWaitIdleTimed t).withCanvas c := by
  rcases waitTimed_cases s t with ⟨hw, h⟩ | ⟨hw, hb, h⟩ | ⟨hw, hb, hc, h⟩ | ⟨hw, hb, hc, h⟩ <;> rw [h]
  · exact waitTimed_enter t hw
  · rw [← exitWait_withCanvas]
    exact waitTimed_exit t hw hb
  · exact waitTimed_again hw hb hc
  · rw [← exitWait_withCanvas]
    exact waitTimed_timeout hw hb hc

theorem runMicro_withCanvas (s : State) (m : Micro) : (s.withCanvas c).runMicro m = (s.runMicro m).withCanvas c := by
  cases m with
  | sendCmd b => exact (congrArg completeSends (send_withCanvas c s .cmd b)).trans (completeSends_withCanvas c _)
  | sendData b => exact (congrArg completeSends (send_withCanvas c s .data b)).trans (completeSends_withCanvas c _)
  | stream q n => exact runStream_withCanvas c s q n
  | rst l => exact advance_withCanvas c (State.emit { s with st := { s.st with rstLine := l } } (.rst l))
  | delay ms => exact advance_withCanvas c (State.emit { s with env := s.env.delay ms } (.delay ms))
  | waitIdle => exact runWaitIdle_withCanvas c s
  | waitIdleTimed t => exact runWaitIdleTimed_withCanvas c s t
  | setState d => exact advance_withCanvas c { s with st := { s.st with dstate := d } }

end

/-! ### A step of a request -/

/-- What a step of an executing request does after the host's move (10_state.md R37). -/
def State.perform (s : State) : State :=
  match s.pending with
  | [] => s.finish s.sq.wr
  | m :: _ => s.runMicro m

/-- A step of an executing request always answers a next state. -/
theorem step_perform {s : State} (hr : s.resetAsserted = false) (ha : s.sq.reqActive = true) :
    step s = .next s.tick.hostMeanwhile.perform := by
  have hu := hostMoved_meanwhile s
  unfold State.perform
  cases hp : s.pending with
  | nil =>
    rw [step_of_active hr ha, State.stepActive, hu.pending.trans hp]
  | cons m rest =>
    rw [step_micro_host hr ha hp, hu.pending.trans hp]

theorem perform_withCanvas (c : Canvas) (s : State) : (s.withCanvas c).perform = s.perform.withCanvas c := by
  unfold State.perform
  rw [withCanvas_pending]
  split
  · rfl
  · exact runMicro_withCanvas c s _

/-- A step of a request that sees other canvas registers. -/
theorem step_withCanvas {s : State} (c : Canvas) (hr : s.resetAsserted = false) (ha : s.sq.reqActive = true) :
    step (s.withCanvas c) = .next (s.tick.hostMeanwhile.perform.withCanvas c) := by
  have hstep := step_perform (s := s.withCanvas c) hr ha
  rwa [show (s.withCanvas c).tick = s.tick.withCanvas c from rfl, hostMeanwhile_withCanvas, perform_withCanvas] at hstep

/-- Of the status registers nothing differs in `t` but the controller's, `RESULT`, `FAULT` and `HALTED`: `RVAL` and the
window registers are as they were (10_state.md R39). -/
def KeepsValues (s t : State) : Prop :=
  t.st = { s.st with
    dstate := t.st.dstate
    rstLine := t.st.rstLine
    maybeBusy := t.st.maybeBusy
    result := t.st.result
    fault := t.st.fault
    halted := t.st.halted }

theorem advance_keepsValues (s : State) : KeepsValues s s.advance := by
  unfold State.advance
  split <;> rfl

theorem microStep_keepsValues {s t : State} {m : Micro} (h : MicroStep s m t) : KeepsValues s t := by
  cases h with
  | stays t0 es e hw hes he => rfl
  | completes mb wr es ls e mem hmb hwr hes he =>
    refine (advance_keepsValues _).trans ?_
    cases m <;> rfl
  | fails k b es e mem hsend hes he => rfl
  | overruns q n hq hover => rfl

/-- What a step of a request leaves alone after the host's move: the canvas registers, memory but for what the host
writes, and the value registers (45_protocol_ops.md R290, R333). -/
theorem perform_frame (s : State) : s.perform.cv = s.cv ∧ (∃ e, Elapsed s.par s.env s.mem e s.perform.mem) ∧
    KeepsValues s s.perform := by
  unfold State.perform
  split
  · exact ⟨rfl, ⟨s.env, .refl _ _ _⟩, rfl⟩
  · rename_i m rest _
    obtain ⟨-, hcv, hmem⟩ := runMicro_frame s m
    exact ⟨hcv, hmem, microStep_keepsValues (runMicro_cases s m)⟩

/-- Taking a protocol request in a state with other canvas registers. -/
theorem protocolRequest_withCanvas {i : Instr} (hi : isProtocolRequest i = true) (s : State) (c : Canvas) :
    exec i (s.withCanvas c) = mapNext (State.withCanvas · c) (exec i s) := by
  have admission (fits : Bool) (ms : List Micro) :
      (s.withCanvas c).admitIdle fits ms = mapNext (State.withCanvas · c) (s.admitIdle fits ms) := by
    simp only [State.admitIdle, show (s.withCanvas c).st = s.st from rfl]
    cases s.st.dstate with
    | idle => cases fits <;> rfl
    | _ => rfl
  cases i <;> try cases hi
  case init => rfl
  all_goals exact admission _ _

/-- Settles O59: the request itself, then each of its steps, with the host's move before it. -/
theorem protocolRequestsIgnoreTheCanvas : Obligations.ProtocolRequestsIgnoreTheCanvas := by
  refine ⟨fun i s c hi => protocolRequest_withCanvas hi s c, fun s c ha hr => ?_⟩
  obtain ⟨hcv, ⟨e, he⟩, hvalues⟩ := perform_frame s.tick.hostMeanwhile
  have hu := hostMoved_meanwhile s
  have hmem := (hostMeanwhile_elapsed s.tick).trans (hu.par ▸ he)
  unfold KeepsValues at hvalues
  rw [hu.st] at hvalues
  refine ⟨_, step_perform hr ha, step_withCanvas c hr ha, by simpa using hcv, hmem.held, fun hh => ?_, ?_⟩
  · obtain ⟨-, hkept⟩ := hmem.waits hh
    exact hkept
  · rw [hvalues]
    exact ⟨rfl, rfl, rfl, rfl, rfl, rfl, rfl⟩

end Sys2Proof.Machine
end

section
/-! PROOFS. The protocol requests run to their end: stretches of plain micro-actions and the waits between them. -/

namespace Sys2Proof.Machine

/-! ### From the start of a sequence to its end -/

/-- What a whole run touched, from the state in which the sequence starts to the one in which no request executes. -/
theorem Moved.ranTo {s t : State} {ms : List Micro} {es : List Event} {st : Status}
    (h : Moved (s.startSeq ms) t es st) (hended : t.sq.reqActive = false ∧ t.sq.seq = [] ∧ t.sq.mpc = 0) :
    RanTo s t st es [] where
  params := h.par
  canvas := h.cv
  memory := h.mem
  trace := h.wt
  errors := h.el.trans (List.append_nil _).symm
  status := h.st
  ended := hended
  request := h.req
  host := h.host

/-- A stretch of plain micro-actions and the untimed wait after it, with more of the sequence to run
(44_wire_commands.md R270). -/
theorem run_plain_waitIdle {s : State} (ms : List Micro) {rest : List Micro} {k : Nat} {xs bs : List Bool}
    (hr : s.NoReset) (hh : s.HostWaits) (ha : s.sq.reqActive = true) (hp : s.pending = ms ++ .waitIdle :: rest)
    (hne : rest ≠ []) (hm : ms.all (microPlain s.par) = true)
    (hx : s.env.xferIn = List.replicate (ms.map microSends).sum true ++ xs) (hw : s.sq.waiting = false)
    (hb : s.env.busyIn = List.replicate k true ++ false :: bs) :
    ∃ t, runSteps (ms.length + (k + 2)) s = .next t ∧
      Moved s t (ms.flatMap (microEvents s.mem) ++ (List.replicate k (.poll true) ++ [.poll false]))
        { ms.foldl microStatus s.st with maybeBusy := false } ∧
      t.env.xferIn = xs ∧ t.env.busyIn = bs ∧ t.pending = rest ∧ t.sq.reqActive = true ∧ t.sq.waiting = false ∧
      t.sq.wr = s.sq.wr := by
  obtain ⟨m', rest', rfl⟩ := List.exists_cons_of_ne_nil hne
  obtain ⟨u, hrun, hmoved, hsent, hpend, hact, hwr, hwait⟩ := run_plain ms hr hh ha hp hm hx hw
  obtain ⟨t, hrun', hmoved', hpolled, hpend', hact', hwait', hwr'⟩ := run_waitIdle k hmoved.noReset
    (hmoved.waits hh) hact hpend hwait (hsent.busyIn.trans hb)
  rw [hmoved.st] at hmoved'
  exact ⟨t, (runSteps_add _ hrun).trans hrun', hmoved.trans hmoved', hpolled.xferIn.trans hsent.xferIn,
    hpolled.busyIn, hpend', hact', hwait', hwr'.trans hwr⟩

/-! ### INIT (45_protocol_ops.md R300) -/

/-- INIT up to its first wait. -/
def initStart (p : Params) : List Micro :=
  [.setState .resetting] ++ resetPulse p.tRstLow p.tRstWait ++ [.setState .initializing]

/-- INIT by its waits. -/
theorem initSeq_eq (p : Params) : initSeq p = initStart p ++ .waitIdle :: (encodeWire p .cmdSwReset ++
    .waitIdle :: (initConfig p ++ .waitIdle :: [.setState .idle])) := by
  simp [initSeq, initStart]

section
variable (p : Params)

theorem initStart_plain : (initStart p).all (microPlain p) = true := rfl

theorem initStart_sends : ((initStart p).map microSends).sum = 0 := rfl

theorem initStart_events (mem : Memory) : (initStart p).flatMap (microEvents mem) =
    [.rst false, .delay p.tRstLow, .rst true, .delay p.tRstWait] := rfl

theorem initStart_status (st : Status) :
    (initStart p).foldl microStatus st = { st with dstate := .initializing, rstLine := true } := rfl

theorem initConfig_plain : (initConfig p).all (microPlain p) = true := rfl

theorem initConfig_sends : ((initConfig p).map microSends).sum = 23 := by
  simp [initConfig, encodeWire, microSends]

theorem initConfig_events (mem : Memory) : (initConfig p).flatMap (microEvents mem) =
    wireEvents p.cmds.driverOutput [p.initData.doc0, p.initData.doc1, p.initData.doc2] ++
    wireEvents p.cmds.dataEntry [p.initData.dem] ++
    wireEvents p.cmds.ramXRange [p.initData.xStart, p.initData.xEnd] ++
    wireEvents p.cmds.ramYRange [p.initData.yStart, p.initData.yStartHi, p.initData.yEnd0, p.initData.yEnd1] ++
    wireEvents p.cmds.border [p.initData.border] ++
    wireEvents p.cmds.tempSensor [p.initData.temp] ++
    wireEvents p.cmds.ramXCounter [p.initData.xCounter] ++
    wireEvents p.cmds.ramYCounter [p.initData.yCounter0, p.initData.yCounter1] := rfl

theorem initConfig_status (st : Status) : (initConfig p).foldl microStatus st = st := rfl

/-- INIT takes a step for each micro-action, one more for each of its three waits, one for each busy poll (log 8). -/
theorem initSeq_steps (k1 k2 k3 : Nat) : 37 + k1 + k2 + k3 = (initStart p).length + (k1 + 2) +
    ((encodeWire p .cmdSwReset).length + (k2 + 2) + ((initConfig p).length + (k3 + 2) + 1)) := by
  rw [show (initStart p).length = 6 from rfl, show (encodeWire p .cmdSwReset).length = 1 from rfl,
    show (initConfig p).length = 23 from rfl]
  omega

end

/-- Settles O39: three stretches, each with its wait, and the move to `Idle`. -/
theorem initRuns : Obligations.InitRuns := by
  intro s k1 k2 k3 xs bs hr hh hx hb
  have hx0 : s.env.xferIn = List.replicate ((initStart s.par).map microSends).sum true ++
      (List.replicate 1 true ++ (List.replicate 23 true ++ xs)) := by
    rw [hx, initStart_sends, ← List.append_assoc (List.replicate 1 true), ← List.replicate_add]
    rfl
  obtain ⟨t1, hrun1, hmoved1, hx1, hb1, hpend1, hact1, hwait1, hwr1⟩ := run_plain_waitIdle
    (s := s.startSeq (initSeq s.par)) (initStart s.par) hr hh rfl (initSeq_eq s.par) (by simp)
    (initStart_plain s.par) hx0 rfl hb
  obtain ⟨t2, hrun2, hmoved2, hx2, hb2, hpend2, hact2, hwait2, hwr2⟩ := run_plain_waitIdle
    (encodeWire s.par .cmdSwReset) hmoved1.noReset (hmoved1.waits hh) hact1 hpend1 (by simp) rfl hx1 hwait1 hb1
  replace hmoved2 := hmoved1.trans hmoved2
  obtain ⟨t3, hrun3, hmoved3, hx3, hb3, hpend3, hact3, hwait3, hwr3⟩ := run_plain_waitIdle (initConfig s.par)
    hmoved2.noReset (hmoved2.waits hh) hact2 hpend2 (by simp) (hmoved2.par ▸ initConfig_plain s.par)
    (initConfig_sends s.par ▸ hx2) hwait2 hb2
  replace hmoved3 := hmoved2.trans hmoved3
  obtain ⟨t, hstep, hmoved, hsent, hended⟩ := step_plain_last (xs := xs) hmoved3.noReset (hmoved3.waits hh) hact3
    hpend3 rfl hx3
  rw [hmoved3.st, hmoved2.st, hmoved1.st, hwr3.trans (hwr2.trans hwr1), initConfig_status, startSeq_st,
    initStart_status] at hmoved
  rw [initConfig_events, initStart_events] at hmoved3
  replace hmoved := hmoved3.trans hmoved
  refine ⟨_, t, rfl, ?_, hsent.xferIn, hsent.busyIn.trans hb3, ?_⟩
  · rw [initSeq_steps s.par, runSteps_add _ hrun1, runSteps_add _ hrun2, runSteps_add _ hrun3]
    exact runSteps_succ 0 hstep
  · simpa [encodeWire, microEvents, wireEvents, microStatus] using hmoved.ranTo hended

/-! ### The refreshes (45_protocol_ops.md R305, R310, R315) -/

/-- A wait that ends with more of the sequence to run. -/
theorem Moved.waited_advance {s t : State} {m m' : Micro} {rest : List Micro} {es : List Event} {st : Status}
    (h : Moved s t es st) (b : Bool) (r : ResultCode) (hp : t.pending = m :: m' :: rest) :
    Moved s (t.waited b r).advance es { st with maybeBusy := b } := by
  obtain ⟨hadv, -⟩ := advance_more (s := t.waited b r) hp
  rw [hadv]
  exact { h with st := by simp [h.st] }

/-- A whole timed wait whose first poll is not busy, with more of the sequence to run (44_wire_commands.md R271). -/
theorem run_waitTimed_notBusy {s : State} {m' : Micro} {rest : List Micro} {budget : Nat} {bs : List Bool}
    (hr : s.NoReset) (hh : s.HostWaits) (ha : s.sq.reqActive = true)
    (hp : s.pending = .waitIdleTimed budget :: m' :: rest) (hw : s.sq.waiting = false)
    (hb : s.env.busyIn = false :: bs) :
    ∃ t, runSteps 2 s = .next t ∧ Moved s t [.poll false] { s.st with maybeBusy := false } ∧
      t.env.xferIn = s.env.xferIn ∧ t.env.busyIn = bs ∧ t.pending = m' :: rest ∧ t.sq.reqActive = true ∧
      t.sq.wr = .ok := by
  obtain ⟨u, hstep, hmoved, hxfer, hbusy, hpend, hact, hwait⟩ := step_waitTimed_enter_free hr hh ha hp hw
  rw [hp] at hpend
  obtain ⟨v, hstep', hmoved', hpolled, hsq⟩ := step_waitTimed_exit hmoved.noReset (hmoved.waits hh) hact hpend hwait
    (hbusy.trans hb)
  have hpend' : v.pending = .waitIdleTimed budget :: m' :: rest := (pending_congr hsq).trans hpend
  obtain ⟨hmore, -⟩ := waited_advance false .ok (hsq ▸ hact) hpend'
  obtain ⟨hpendw, hactw, hwr, -⟩ := hmore (by simp)
  rw [hmoved.st] at hmoved'
  exact ⟨_, (runSteps_succ 1 hstep).trans (runSteps_succ 0 hstep'),
    (hmoved.trans hmoved').waited_advance false .ok hpend', by simp [hpolled.xferIn, hxfer], by simp [hpolled.busyIn],
    hpendw, hactw, hwr⟩

/-- A refresh of any kind whose first poll is not busy: the stretch before the timed wait, the wait, and the return to
`Idle`. -/
theorem refresh_runs {s : State} {i : Instr} {budget : Nat} {xs bs : List Bool}
    (hi : refreshBudget s.par i = some budget)
    (hfit : ∀ q n, streamOf s.par i = some (q, n) → n = 0 ∨ q.toNat + n ≤ s.par.memSize)
    (hr : s.NoReset) (hh : s.HostWaits) (hd : s.st.dstate = .idle)
    (hx : s.env.xferIn = List.replicate ((refreshEvents s.par s.mem i).countP isSent) true ++ xs)
    (hb : s.env.busyIn = false :: bs) :
    ∃ u t, exec i s = .next u ∧ runSteps (refreshSteps s.par i) u = .next t ∧
      t.env.xferIn = xs ∧ t.env.busyIn = bs ∧
      RanTo s t { s.st with
          dstate := .idle
          rstLine := lineAfterRefresh s.st.rstLine i
          maybeBusy := false
          result := .ok }
        (refreshEvents s.par s.mem i ++ [.poll false]) [] := by
  rw [← refreshPrefix_events hi, flatMap_microEvents_sent] at hx
  obtain ⟨t1, hrun1, hmoved1, hsent1, hpend1, hact1, -, hwait1⟩ :=
    run_plain (s := s.startSeq (refreshPrefix s.par i ++ [.waitIdleTimed budget, .setState .idle]))
      (refreshPrefix s.par i) hr hh rfl rfl (refreshPrefix_plain hi hfit) hx rfl
  obtain ⟨t2, hrun2, hmoved2, hx2, hb2, hpend2, hact2, hwr2⟩ := run_waitTimed_notBusy hmoved1.noReset
    (hmoved1.waits hh) hact1 hpend1 hwait1 (hsent1.busyIn.trans hb)
  rw [hmoved1.st, startSeq_st, refreshPrefix_status hi] at hmoved2
  rw [startSeq_mem, refreshPrefix_events hi] at hmoved1
  replace hmoved2 := hmoved1.trans hmoved2
  obtain ⟨t, hstep, hmoved, hsent, hended⟩ := step_plain_last (xs := xs) hmoved2.noReset (hmoved2.waits hh) hact2
    hpend2 rfl (hx2.trans hsent1.xferIn)
  rw [hmoved2.st, hwr2] at hmoved
  refine ⟨_, t, exec_refresh hi hd hfit, ?_, hsent.xferIn, hsent.busyIn.trans hb2, ?_⟩
  · rw [← refreshPrefix_length hi, runSteps_add _ hrun1,
      show 3 = 2 + 1 from rfl, runSteps_add _ hrun2]
    exact runSteps_succ 0 hstep
  · simpa [microEvents, microStatus] using (hmoved2.trans hmoved).ranTo hended

theorem wireEvents_length (b : Byte) (ds : List Byte) : (wireEvents b ds).length = ds.length + 1 := by
  simp [wireEvents]

theorem wireEvents_sent (b : Byte) (ds : List Byte) : (wireEvents b ds).countP isSent = ds.length + 1 := by
  rw [← wireEvents_length b, List.countP_eq_length]
  simp [wireEvents, isSent]

@[simp] theorem imageBytes_length (m : Memory) (q : Addr) (n : Nat) : (imageBytes m q n).length = n := by
  simp [imageBytes]

/-- Settles O40: the bytes sent and the steps, with and without the counter commands. -/
theorem refreshFullRuns : Obligations.RefreshFullRuns := by
  intro s image xs bs p counters hr hh hd hfit hx hb
  have hcount : (refreshEvents s.par s.mem (.refreshFull image)).countP isSent =
      counters.length + p.panelBytes + 4 := by
    cases hc : s.par.fullResetsCounters with
    | false => simp [refreshEvents, wireEvents_sent, counters, p, hc]
    | true => simp +arith [refreshEvents, wireEvents_sent, wireEvents_length, counters, p, hc]
  have hsteps : refreshSteps s.par (.refreshFull image) = counters.length + 9 := by
    cases hc : s.par.fullResetsCounters <;>
      simp [refreshSteps, wireEvents_length, counters, p, hc]
  have hruns := refresh_runs (i := .refreshFull image) rfl (by rintro q n ⟨⟩; exact hfit) hr hh hd (hcount ▸ hx) hb
  rwa [hsteps] at hruns

/-- Settles O41: its events send 19 bytes and the sub-buffer. -/
theorem refreshPartialRuns : Obligations.RefreshPartialRuns := by
  intro s x y w h sub xs bs p n win hr hh hd hfit hx hb
  have hcount : (refreshEvents s.par s.mem (.refreshPartial x y w h sub)).countP isSent = 19 + n := by
    simp +arith [refreshEvents, wireEvents_sent, isSent, n]
  exact refresh_runs (i := .refreshPartial x y w h sub) rfl (by rintro q n ⟨⟩; exact hfit) hr hh hd (hcount ▸ hx) hb

/-- Settles O42: the bytes sent and the stream, with and without the write to the controller. -/
theorem refreshFastRuns : Obligations.RefreshFastRuns := by
  intro s image xs bs p ram hr hh hd hfit hx hb
  have hcount : (refreshEvents s.par s.mem (.refreshFast image)).countP isSent = ram.length + 3 := by
    cases hw : s.par.fastWritesRam <;>
      simp [refreshEvents, wireEvents_sent, wireEvents_length, ram, p, hw]
  refine refresh_runs (i := .refreshFast image) rfl (fun q n hs => ?_) hr hh hd (hcount ▸ hx) hb
  cases hw : s.par.fastWritesRam with
  | false => simp [streamOf, hw] at hs
  | true =>
    obtain ⟨rfl, rfl⟩ : image = q ∧ s.par.panelBytes = n := by simpa [streamOf, hw] using hs
    exact hfit hw

/-! ### DEEP_SLEEP (45_protocol_ops.md R320) -/

/-- Settles O43: no wait among its micro-actions. -/
theorem deepSleepRuns : Obligations.DeepSleepRuns := by
  intro s xs hr hh hd hx
  obtain ⟨t1, hrun, hmoved1, hsent1, hpend, hact, hwr, -⟩ := run_plain (s := s.startSeq (deepSleepSeq s.par))
    (encodeWire s.par (.cmdDeepSleep s.par.dslpMode) ++ [Micro.setState .sleeping]) (m' := .delay s.par.tSleep) (rest := [])
    (xs := xs) hr hh rfl rfl rfl hx rfl
  obtain ⟨t, hstep, hmoved, hsent, hended⟩ := step_plain_last (xs := xs) hmoved1.noReset (hmoved1.waits hh) hact
    hpend rfl hsent1.xferIn
  replace hsent := hsent1.trans hsent
  rw [hmoved1.st, hwr] at hmoved
  refine ⟨_, t, admitIdle_idle hd true _, (runSteps_add 1 hrun).trans (runSteps_succ 0 hstep), hsent.xferIn,
    hsent.busyIn, hsent.nBusy, ?_⟩
  exact (hmoved1.trans hmoved).ranTo hended

end Sys2Proof.Machine
end

section
/-! PROOFS. The word the host issues, and the block that a fault or a halt holds: a word is run by a block that is
ready and discarded by every other, and only block reset ends a fault or a halt. -/

namespace Sys2Proof.Machine

/-! ### A word on the request port (60_exceptions.md R347) -/

theorem State.Ready.accepts {s : State} (h : s.Ready) : s.accepts = true := by
  simp [State.accepts, h.idle, h.noFault, h.running]

theorem takeRequest_runs {s : State} {w : ReqWord} {i : Instr} (ha : s.accepts = true)
    (hw : decodeRequest w = .ok i) : s.takeRequest w = exec i (s.latch w) := by
  rw [State.takeRequest, if_pos ha, hw]

theorem takeRequest_discards {s : State} {w : ReqWord} (ha : s.accepts = false) : s.takeRequest w = .next s := by
  simp [State.takeRequest, ha]

/-- Settles O6: a ready block takes the word, and a word that decodes is latched and run. -/
theorem stepRunsTheIssuedRequest : Obligations.StepRunsTheIssuedRequest := by
  intro s w rest i hr hh hw
  have ha : s.tick.popHost.accepts = true := hr.accepts
  rw [step_issue hr hh, takeRequest_runs ha hw]
  simp [State.latch, State.popHost, State.tick, hh]

/-! ### A block that a fault or a halt holds (60_exceptions.md R347, R352) -/

/-- No request executes, and a fault or a halt keeps the block from taking one. -/
structure State.Stuck (s : State) : Prop where
  idle : s.sq.reqActive = false
  held : s.st.fault ≠ .none ∨ s.st.halted = true

theorem State.Stuck.not_accepts {s : State} (h : s.Stuck) : s.accepts = false := by
  rcases h.held with hf | hh
  · simp [State.accepts, hf]
  · simp [State.accepts, hh]

theorem step_stuck_issue {s : State} {w : ReqWord} {rest : List HostAct} (hr : s.resetAsserted = false)
    (hs : s.Stuck) (hh : s.env.host = .issue w :: rest) :
    step s = .next { s with env := { s.env with host := rest, resetIn := s.env.resetIn.tail } } := by
  have ha : s.tick.popHost.accepts = false := hs.not_accepts
  rw [step_of_idle hr hs.idle, State.stepIdle, tick_env, hh]
  exact (takeRequest_discards ha).trans (by simp [State.popHost, State.tick, hh])

/-- From `s` to `t` only the host has acted: the block kept everything of its own, the host used up actions, and memory
is as before wherever those actions write nothing (20_memory.md R87). -/
structure State.OnlyHostActed (s t : State) : Prop where
  rest : t = { s with mem := t.mem, env := t.env }
  host : t.env.host <:+ s.env.host
  resetIn : t.env.resetIn <:+ s.env.resetIn
  held : s.MemoryHeld t

namespace State.OnlyHostActed

theorem refl (s : State) : s.OnlyHostActed s := ⟨rfl, List.suffix_rfl, List.suffix_rfl, fun _ _ => rfl⟩

theorem trans {s t u : State} (h : s.OnlyHostActed t) (h' : t.OnlyHostActed u) : s.OnlyHostActed u where
  rest := calc
    u = { t with mem := u.mem, env := u.env } := h'.rest
    _ = { s with mem := u.mem, env := u.env } := by rw [h.rest]
  host := h'.host.trans h.host
  resetIn := h'.resetIn.trans h.resetIn
  held := fun a ha => (h'.held a fun v hv => ha v (h.host.subset hv)).trans (h.held a ha)

/-- The host's list gets shorter and memory stays. -/
theorem of_host {s : State} {acts : List HostAct} (h : acts <:+ s.env.host) :
    s.OnlyHostActed { s with env := { s.env with host := acts, resetIn := s.env.resetIn.tail } } :=
  ⟨rfl, h, List.tail_suffix _, fun _ _ => rfl⟩

theorem noReset {s t : State} (h : s.OnlyHostActed t) (hr : s.NoReset) : t.NoReset :=
  fun b hb => hr b (h.resetIn.subset hb)

theorem stuck {s t : State} (h : s.OnlyHostActed t) (hs : s.Stuck) : t.Stuck := by
  rw [h.rest]
  exact ⟨hs.idle, hs.held⟩

end State.OnlyHostActed

/-- A step of a stuck block is the host's move alone: a step between requests, and a word issued in it is discarded. -/
theorem step_stuck {s : State} (hr : s.resetAsserted = false) (hs : s.Stuck) :
    ∃ t, step s = .next t ∧ s.OnlyHostActed t := by
  obtain ⟨hsilent, hpasses, hwrites⟩ := idleStepsFollowTheHost s hs.idle hr
  cases hh : s.env.host with
  | nil => exact ⟨_, hsilent hh, .of_host List.suffix_rfl⟩
  | cons x acts =>
    have hacts : acts <:+ s.env.host := by
      rw [hh]
      exact List.suffix_cons x acts
    cases x with
    | pass => exact ⟨_, hpasses acts (.inl hh), .of_host hacts⟩
    | await => exact ⟨_, hpasses acts (.inr hh), .of_host hacts⟩
    | issue w => exact ⟨_, step_stuck_issue hr hs hh, .of_host hacts⟩
    | writeMem a v =>
      obtain ⟨m, hstep, hother, -, -⟩ := hwrites a v acts hh
      refine ⟨_, hstep, rfl, hacts, List.tail_suffix _, fun c hc => hother c ?_⟩
      rintro rfl
      exact hc v (by rw [hh]; exact List.mem_cons_self)

/-- A stuck block stays stuck, so every step of a run is the host's move. -/
theorem runSteps_stuck (n : Nat) {s : State} (hr : s.NoReset) (hs : s.Stuck) :
    ∃ t, runSteps n s = .next t ∧ s.OnlyHostActed t := by
  induction n generalizing s with
  | zero => exact ⟨s, runSteps_zero s, .refl s⟩
  | succ n ih =>
    obtain ⟨u, hstep, hu⟩ := step_stuck (noReset_asserted hr) hs
    obtain ⟨t, hrun, ht⟩ := ih (hu.noReset hr) (hu.stuck hs)
    exact ⟨t, (runSteps_succ n hstep).trans hrun, hu.trans ht⟩

/-- Settles O11: in the whole run only the host has acted. -/
theorem stuckUntilBlockReset : Obligations.StuckUntilBlockReset := by
  intro n s hr ha hstuck
  obtain ⟨t, hrun, ht⟩ := runSteps_stuck n hr ⟨ha, hstuck⟩
  refine ⟨t, hrun, ?_, ?_, ?_, ?_, ?_, ?_, ht.held⟩ <;> rw [ht.rest]

/-! ### A word issued while a request executes (93_implementation_defined.md I13) -/

theorem hostMeanwhile_issue {s : State} {w : ReqWord} {rest : List HostAct} (h : s.env.host = .issue w :: rest) :
    s.hostMeanwhile = { s with env := { s.env with host := rest } } := by
  simp [State.hostMeanwhile, State.popHost, h]

/-- The host's move is the same whether it issues a word or lets the moment pass. -/
theorem step_active_issue {s : State} {w : ReqWord} {rest : List HostAct} (hr : s.resetAsserted = false)
    (ha : s.sq.reqActive = true) (hh : s.env.host = .issue w :: rest) :
    step s = step { s with env := { s.env with host := .pass :: rest } } := by
  rw [step_of_active hr ha, step_of_active (by exact hr) (by exact ha), hostMeanwhile_issue (s := s.tick) hh]
  rfl

theorem completeSends_send_host (s : State) (k : SendKind) (b : Byte) :
    (completeSends (s.send k b)).env.host = s.env.host := by
  rcases send_cases s k b with h | h <;> rw [h] <;> simp [completeSends]

/-- Before the bytes of a stream the host may act; during every other micro-action it does not. -/
theorem runMicro_host (s : State) {m : Micro} (hm : ∀ q n, m ≠ .stream q n) :
    (s.runMicro m).env.host = s.env.host := by
  cases m with
  | sendCmd b => exact completeSends_send_host s .cmd b
  | sendData v => exact completeSends_send_host s .data v
  | stream q n => exact absurd rfl (hm q n)
  | rst l => simp [State.runMicro, State.runRst]
  | delay ms =>
    obtain ⟨f, k, j, hdelay, -⟩ := delay_keeps s.env ms
    simp [State.runMicro, State.runDelay, hdelay]
  | waitIdle =>
    simp only [State.runMicro]
    rcases waitIdle_cases s with ⟨-, h⟩ | ⟨-, -, h⟩ | ⟨-, -, h⟩ <;> rw [h] <;> simp
  | waitIdleTimed t =>
    simp only [State.runMicro]
    rcases waitTimed_cases s t with ⟨-, h⟩ | ⟨-, -, h⟩ | ⟨-, -, -, h⟩ | ⟨-, -, -, h⟩ <;> rw [h] <;> simp
  | setState d => simp [State.runMicro, State.runSetState]

theorem perform_host {s : State} (h : ∀ q n ms, s.pending ≠ .stream q n :: ms) :
    s.perform.env.host = s.env.host := by
  unfold State.perform
  split
  · rfl
  · rename_i m rest hp
    refine runMicro_host s fun q n hm => h q n rest ?_
    rw [hp, hm]

/-- Settles O9: a stuck block discards the word, and during a request the host's move does. -/
theorem wordIsDiscardedWhenStuck : Obligations.WordIsDiscardedWhenStuck := by
  intro s w rest hr hh
  refine ⟨fun ha hstuck => step_stuck_issue hr ⟨ha, hstuck⟩ hh, fun ha => ⟨step_active_issue hr ha hh, ?_⟩⟩
  intro t hstep hstream
  obtain rfl := Host.Outcome.next.inj ((step_perform hr ha).symm.trans hstep)
  rw [perform_host (by rwa [(hostMoved_meanwhile s).pending]), hostMeanwhile_issue (s := s.tick) hh]

end Sys2Proof.Machine
end

section
/-! PROOFS. Block reset at any step, and the silence of a sleeping block. -/

namespace Sys2Proof.Machine

/-! ### Block reset (70_reset_and_hazards.md R380) -/

/-- What the host reads by number is the canvas and the status registers alone (10_state.md R38, R39). -/
theorem register_congr {s t : State} (hcv : t.cv = s.cv) (hst : t.st = s.st) (n : Nat) :
    t.register n = s.register n := by
  unfold State.register
  rw [hcv, hst]

/-- Settles O12: the step is block reset, which leaves the registers of the reset state. -/
theorem blockResetRestores : Obligations.BlockResetRestores := by
  intro s hr
  obtain ⟨hreset, -⟩ := resetState
  refine ⟨s.tick.blockReset, step_of_reset hr, fun n => ?_, rfl, rfl, rfl, rfl, rfl, rfl, rfl⟩
  exact (register_congr (s := State.reset) rfl rfl n).trans (hreset n)

/-! ### A sleeping block is silent (70_reset_and_hazards.md R396) -/

/-- From `s` to `t` the trace has gained only reset-line levels and delays. -/
def QuietlyGrows (s t : State) : Prop := ∃ es, t.wt = s.wt ++ es ∧ ∀ e ∈ es, isQuiet e = true

theorem quietlyGrows_of_wt_eq {s t : State} (h : t.wt = s.wt) : QuietlyGrows s t := ⟨[], by simp [h], by simp⟩

/-- Of the micro-actions that may run in `Sleeping` none is a send. -/
theorem isSend_of_microOk_sleeping {p : Params} {m : Micro} (hm : microOk p .sleeping m = true) : isSend m = false := by
  cases m with
  | sendCmd | sendData | stream => cases hm
  | _ => rfl

/-- What a micro-action that may run in `Sleeping` emits is no byte and no poll. -/
theorem isQuiet_of_mayEmit {p : Params} {m : Micro} (hm : microOk p .sleeping m = true) {e : Event}
    (he : mayEmit m e = true) : isQuiet e = true := by
  cases m with
  | sendCmd | sendData | stream | waitIdle | waitIdleTimed => cases hm
  | setState => cases he
  | rst | delay =>
    cases e with
    | rst | delay => rfl
    | _ => cases he

theorem microStep_quiet {s t : State} {m : Micro} (h : MicroStep s m t) (hm : microOk s.par .sleeping m = true) :
    QuietlyGrows s t := by
  cases h with
  | stays t0 es e hw hes he => exact ⟨es, rfl, fun x hx => isQuiet_of_mayEmit hm (hes x hx)⟩
  | completes mb wr es ls e mem hmb hwr hes he =>
    exact ⟨es, by simp, fun x hx => isQuiet_of_mayEmit hm (hes x hx)⟩
  | fails k b es e mem hsend hes he =>
    rw [isSend_of_microOk_sleeping hm] at hsend
    cases hsend
  | overruns q n hq hover => exact quietlyGrows_of_wt_eq rfl

/-- The step that takes a request puts nothing on the wire: a sequence does so in later steps (45_protocol_ops.md
R290). -/
theorem requestStep_wt {s t : State} (h : RequestStep s t) : t.wt = s.wt := by
  cases h with
  | ends he =>
    cases he with
    | finishes hu r => exact hu.wt
    | faults hu hc => exact hu.wt
  | starts hms hok => rfl

/-- Settles O58, over the cases of a step: what is left of `SEQ` may run, so its first micro-action may run in
`Sleeping`; every other step leaves the trace. -/
theorem noTrafficInSleep : Obligations.NoTrafficInSleep := by
  intro s t hi hd hr h
  cases step_cases h with
  | resets hr' => exact absurd hr' (by simp [hr])
  | micro ha hu hp hm =>
    obtain ⟨-, -, -, hok⟩ := hi.runs ha
    obtain ⟨hmok, -⟩ := seqOk_cons.1 (hp ▸ hok)
    rw [hd, ← hu.par] at hmok
    obtain ⟨es, hwt, hes⟩ := microStep_quiet hm hmok
    exact ⟨es, hu.wt ▸ hwt, hes⟩
  | runsOut ha hu hp => exact quietlyGrows_of_wt_eq (by rw [finish_wt, hu.wt])
  | rests ha ht => exact quietlyGrows_of_wt_eq ht.wt
  | takes ha hf hh hu ht => exact quietlyGrows_of_wt_eq (by rw [requestStep_wt ht, latch_wt, hu.wt])

end Sys2Proof.Machine
end
